-- ==== Sys2Proof/Word.lean ====
section
/-! DEFINITION. The word types of lexyOS-PTW: registers and entries, command words, bytes, virtual page numbers. -/

namespace Sys2Proof

/-- A byte of physical memory (R61). -/
abbrev Byte := BitVec 8

/-- A 64-bit register, address or page-table entry (R21, R34, R67). -/
abbrev Word := BitVec 64

/-- A 32-bit register, command word or bitmap word (R24, R92, R28). -/
abbrev Word32 := BitVec 32

/-- A virtual page number, `virt[47:12]` (R71). -/
abbrev Vpn := BitVec 36

end Sys2Proof
end

