-- ==== Sys2Proof/Config.lean ====
section
/-! DEFINITION. What an implementation fixes (R7) and the values the spec leaves free (R33, R185). -/

namespace Sys2Proof

/-- A stretch of physical addresses `[base, base + size)` at which memory exists (part of `PHYS_MEM`, R7). -/
structure Region where
  base : Nat
  size : Nat
  deriving DecidableEq, Repr

/-- The implementation parameters of R7 that are not constants (U1, U2, U17). Every statement about all states is about all of
their values: they stand in `State`, and no step changes them (log entry 3). -/
structure Config where
  /-- `MAX_BLOCKS`, the number of 32-bit bitmap words (R7, D7). -/
  maxBlocks : Nat
  /-- `TLB_ENTRIES`, the capacity of the translation cache; 0: the unit is absent (R7, R182). -/
  tlbEntries : Nat
  /-- `PHYS_MEM`: the addresses at which memory exists, as a union of regions (R7, D24). -/
  physMem : List Region
  deriving DecidableEq, Repr

/-- The parameters `State.reset` carries: the spec's default for `MAX_BLOCKS` (R7), and for the two `OPEN` parameters a value the
model names. DESIGN CHOICE (log entry 3). -/
def Config.default : Config :=
  { maxBlocks := 32768, tlbEntries := 16, physMem := [{ base := 0, size := 2 ^ 64 }] }

/-- FREE VALUE: the byte physical memory holds at an address nothing has written ("unspecified, any value", R37, U10). No body: no
proof can see a value of it (log entry 5). -/
opaque Config.initialByte : Nat → Byte

/-- FREE VALUE: whether the `k`-th `tlb_fill` keeps the pair of a virtual page; R185: "under no law, and a claim must hold for every
choice". No body (log entry 7). -/
opaque Config.tlbKeeps : Nat → Vpn → Bool

end Sys2Proof
end

