-- ==== Sys2Proof/Syntax.lean ====
section
/-! DEFINITION. What the host can say to the block: the fifteen commands (R93), a command with its operands (R99), the
pseudo-commands (R100), the register file (R36) and the host's accesses (R34, R90, R103). -/

namespace Sys2Proof

/-- The fifteen commands (R93). No operand lies in the command word (R92): a command's operands are the `ARG` registers (R94), so
no constructor carries a field. -/
inductive Instr where
  | pmmInit | pmmAlloc | pmmAllocn | pmmFree | pmmFreen | pmmTotal | pmmUsed | pmmFreemem
  | vmmInit | vmmMap | vmmUnmap | vmmGetpa | vmmSwitch
  | tlbXlate | tlbInvlpg
  deriving DecidableEq, Repr

/-- The four formats: how many `ARG` registers a command reads (R92). -/
inductive Format where
  | c0 | c1 | c2 | c3
  deriving DecidableEq, Repr

/-- A command with its operands, in the order `ARG0`, `ARG1`, `ARG2`: what one line of R99's syntax stands for. -/
structure Command where
  instr : Instr
  args : List Word
  deriving DecidableEq, Repr

/-- The pseudo-commands (R100). -/
inductive Pseudo where
  | tlbFlush
  | vmmActivate
  | vmmIdmap (lo hi flags : Word)
  | boot (bytes : Word)
  deriving DecidableEq, Repr

/-- The twelve registers of the register file (R36), in the order of their numbers. -/
inductive Reg where
  | cmd | arg0 | arg1 | arg2 | status | res0 | res1 | flags | root | activeRoot | totalBlocks | usedPages
  deriving DecidableEq, Repr

/-- The widths a host access may have (R36: registers are 32 or 64 bits; R61: a host may read memory narrower). -/
inductive Width where
  | w8 | w16 | w32 | w64
  deriving DecidableEq, Repr

/-- One thing the host, or the platform for `reset`, does: an access to the register file at an offset (`W64`, `W32`, `R64`, `R32`
of R103; of a 32-bit write the low 32 bits of the value count), a load or store of physical memory (R12, R257), a reset (R250). -/
inductive HostAccess where
  | regWrite (offset : Nat) (width : Width) (value : Word)
  | regRead (offset : Nat) (width : Width)
  | memWrite (addr : Word) (width : Width) (value : Word)
  | memRead (addr : Word) (width : Width)
  | reset
  deriving DecidableEq, Repr

end Sys2Proof
end

