-- ==== Sys2Proof/Decode.lean ====
section
/-! DEFINITION. The command word (R92, R93, R96, R97), its decoder and encoder; the register table (R36); a program as host
register writes, both ways (R103). -/

namespace Sys2Proof

/-! ## The command word -/

/-- The opcode of a command (R93). -/
def Instr.opcode : Instr → BitVec 8
  | .pmmInit => 0x10
  | .pmmAlloc => 0x11
  | .pmmAllocn => 0x12
  | .pmmFree => 0x13
  | .pmmFreen => 0x14
  | .pmmTotal => 0x15
  | .pmmUsed => 0x16
  | .pmmFreemem => 0x17
  | .vmmInit => 0x20
  | .vmmMap => 0x21
  | .vmmUnmap => 0x22
  | .vmmGetpa => 0x23
  | .vmmSwitch => 0x24
  | .tlbXlate => 0x30
  | .tlbInvlpg => 0x31

/-- How many `ARG` registers each command reads (R92, R93). -/
def Instr.format : Instr → Format
  | .pmmAlloc | .pmmTotal | .pmmUsed | .pmmFreemem | .vmmInit => .c0
  | .pmmInit | .pmmAllocn | .pmmFree | .vmmUnmap | .vmmGetpa | .vmmSwitch | .tlbXlate | .tlbInvlpg => .c1
  | .pmmFreen => .c2
  | .vmmMap => .c3

/-- The number of operands of a format (R92). -/
def Format.arity : Format → Nat
  | .c0 => 0
  | .c1 => 1
  | .c2 => 2
  | .c3 => 3

/-- The fifteen commands, in the order of R93's table. -/
def Instr.all : List Instr :=
  [.pmmInit, .pmmAlloc, .pmmAllocn, .pmmFree, .pmmFreen, .pmmTotal, .pmmUsed, .pmmFreemem,
   .vmmInit, .vmmMap, .vmmUnmap, .vmmGetpa, .vmmSwitch, .tlbXlate, .tlbInvlpg]

/-- Why a word is no command (R96). -/
inductive DecodeError where
  /-- One of bits 31 to 8 is 1, whatever `op` is. -/
  | nonzeroReserved
  /-- `op` is none of the fifteen opcodes. -/
  | unknownOpcode (op : BitVec 8)
  deriving DecidableEq, Repr

/-- The command whose opcode is `op` (R93's table read from left to right), or none. -/
def Instr.ofOpcode (op : BitVec 8) : Option Instr :=
  Instr.all.find? fun i => i.opcode == op

/-- The decoder: total on all `2 ^ 32` words (R97), naming what it refuses (R96). -/
def decode (w : Word32) : Except DecodeError Instr :=
  if w.extractLsb' 8 24 ≠ 0 then .error .nonzeroReserved
  else
    match Instr.ofOpcode (w.extractLsb' 0 8) with
    | some i => .ok i
    | none => .error (.unknownOpcode (w.extractLsb' 0 8))

/-- The encoder: `op` in bits 7 to 0, zeros above (R92). -/
def encode (i : Instr) : Word32 :=
  (0 : BitVec 24) ++ i.opcode

/-- The command the decoder reads from a word of `nbits` bits numbered as the opcode table numbers them. -/
def decodeTableWord (nbits w : Nat) : Option Instr :=
  match decode (BitVec.ofNat 32 (w % 2 ^ nbits)) with
  | .ok i => some i
  | .error _ => none

/-! ## The register file (R36) -/

/-- Register numbers (R36). -/
def Reg.number : Reg → Nat
  | .cmd => 0
  | .arg0 => 1
  | .arg1 => 2
  | .arg2 => 3
  | .status => 4
  | .res0 => 5
  | .res1 => 6
  | .flags => 7
  | .root => 8
  | .activeRoot => 9
  | .totalBlocks => 10
  | .usedPages => 11

/-- Register widths (R36). -/
def Reg.width : Reg → Width
  | .cmd | .status | .flags => .w32
  | .arg0 | .arg1 | .arg2 | .res0 | .res1 | .root | .activeRoot | .totalBlocks | .usedPages => .w64

/-- The offset of a register: `8 * number` (R36). -/
def Reg.offset (r : Reg) : Nat :=
  8 * r.number

/-- The address of a register when the register file is memory mapped at `mmioBase` (R36, U17; log entry 4). -/
def Reg.address (mmioBase : Word) (r : Reg) : Word :=
  mmioBase + BitVec.ofNat 64 r.offset

/-- The twelve registers, in the order of their numbers. -/
def Reg.all : List Reg :=
  [.cmd, .arg0, .arg1, .arg2, .status, .res0, .res1, .flags, .root, .activeRoot, .totalBlocks, .usedPages]

/-- The register at an offset of R36's table, or none. -/
def Reg.atOffset (offset : Nat) : Option Reg :=
  Reg.all.find? fun r => r.offset == offset

/-- A width in bytes. -/
def Width.bytes : Width → Nat
  | .w8 => 1
  | .w16 => 2
  | .w32 => 4
  | .w64 => 8

/-- The low part of a value that an access of this width carries. -/
def Width.low (w : Width) (v : Word) : Word :=
  v &&& BitVec.ofNat 64 (2 ^ (8 * w.bytes) - 1)

/-! ## A program as register writes (R103) -/

/-- The `ARG` writes of a list of operands, `ARG0` first (R103). -/
def encodeArgs (args : List Word) : List HostAccess :=
  (args.zip [Reg.arg0, .arg1, .arg2]).map fun p => .regWrite p.2.offset .w64 p.1

/-- The write of a command word (R90 step 2, R103). -/
def commandAccess (w : Word32) : HostAccess :=
  .regWrite Reg.cmd.offset .w32 (w.setWidth 64)

/-- The host accesses one command stands for: the `ARG` writes of its format, then the `CMD` write (R103). -/
def Command.encode (c : Command) : List HostAccess :=
  encodeArgs c.args ++ [commandAccess (Sys2Proof.encode c.instr)]

/-- The encoding of a program is the sequence of its commands' writes (R103). -/
def encodeProgram (p : List Command) : List HostAccess :=
  p.flatMap Command.encode

/-- The reading back of a program: `pending` are the operands written since the last `CMD` write. It accepts exactly the writes of
R103: `ARG0`, `ARG1`, `ARG2` in order, as many as the command's format reads, then a `CMD` write of a command word. -/
def decodeProgramFrom (pending : List Word) : List HostAccess → Option (List Command)
  | [] => if pending.isEmpty then some [] else none
  | .regWrite offset width value :: rest =>
    match Reg.atOffset offset, width with
    | some .cmd, .w32 =>
      match decode (value.setWidth 32) with
      | .ok i =>
        if value = (value.setWidth 32).setWidth 64 ∧ pending.length = i.format.arity then
          (decodeProgramFrom [] rest).map ({ instr := i, args := pending } :: ·)
        else none
      | .error _ => none
    | some r, .w64 =>
      if [Reg.arg0, .arg1, .arg2][pending.length]? = some r then decodeProgramFrom (pending ++ [value]) rest else none
    | _, _ => none
  | .regRead _ _ :: _ => none
  | .memWrite _ _ _ :: _ => none
  | .memRead _ _ :: _ => none
  | .reset :: _ => none

/-- The program whose encoding a list of host accesses is, if it is one (R103). -/
def decodeProgram (accesses : List HostAccess) : Option (List Command) :=
  decodeProgramFrom [] accesses

end Sys2Proof
end

