-- ==== Sys2Proof/WellFormed.lean ====
section
/-! DEFINITION. Which terms of the syntax the spec gives a meaning to: operand counts (R92, R99), register accesses (R36),
parameters (R7). -/

namespace Sys2Proof

/-- A command word has no field that could be ill formed (R92): every constructor of `Instr` is one of R93's rows, whose word has
its reserved bits zero. -/
def Instr.wf (i : Instr) : Bool :=
  (encode i).extractLsb' 8 24 == 0 && Instr.all.contains i

/-- A command is well formed when it has as many operands as its format reads (R92, R99). -/
def Command.wf (c : Command) : Bool :=
  c.instr.wf && c.args.length == c.instr.format.arity

/-- A register access has a meaning when its offset is a register's and its width is that register's own (R36). -/
def registerAccessWf (offset : Nat) (width : Width) : Bool :=
  match Reg.atOffset offset with
  | some r => r.width == width
  | none => false

/-- The host accesses the spec gives a meaning to as syntax; whether memory exists at an address is the state's to say. -/
def HostAccess.wf : HostAccess → Bool
  | .regWrite offset width _ => registerAccessWf offset width
  | .regRead offset width => registerAccessWf offset width
  | .memWrite _ _ _ => true
  | .memRead _ _ => true
  | .reset => true

/-- The admissible parameters: `MAX_BLOCKS` is "any value from 128 up" (R7). -/
def Config.wf (c : Config) : Bool :=
  128 ≤ c.maxBlocks

end Sys2Proof
end

