-- ==== Sys2Proof/Machine/State.lean ====
section
/-! DEFINITION. The machine's state (R20), its values after reset (R37), why a step may stop. -/

namespace Sys2Proof.Machine

/-- Why the machine stops with a fault. The block itself raises no exception (R226); this is the one case the spec calls impossible
and gives nothing for. -/
inductive Fault where
  /-- Raised by `memRead` and `memWrite` at an address that is not a multiple of 8. R62: "a misaligned access cannot occur and nothing
  is specified for one". Safe: no state a run reaches has it (log entry 8). -/
  | misalignedTableAccess
  deriving DecidableEq, Repr

/-- Why a step has no meaning. -/
inductive Refusal where
  /-- Raised by `exec` for a command that has no meaning yet; no arm of this model raises it. Safe. -/
  | notModelled (mnemonic : String)
  /-- Raised by a host register access at an offset that is no register's; R36: "refused by the model (it gives it no meaning)".
  Safe (log entry 11). -/
  | noSuchRegister (offset : Nat)
  /-- Raised by a host register access whose width is not that register's own; R36, as above. Safe (log entry 11). -/
  | wrongRegisterWidth (reg : Reg) (width : Width)
  /-- Raised by the host's own load or store at an address with no memory: the spec says what such an access of the block does (R64),
  nothing of the host's. Safe (log entry 12). -/
  | hostAccessWithoutMemory (addr : Word)
  deriving DecidableEq, Repr

/-- The seven status codes (R220). -/
inductive Status where
  | ok | fail | errCmd | errState | errArg | errRange | errBus
  deriving DecidableEq, Repr

/-- The four bits of `FLAGS` that have a name (R25). -/
inductive FlagBit where
  | pmmReady | vmmReady | activeValid | err
  deriving DecidableEq, Repr

/-- `BITMAP` (R28), held as the set of its CLEAR bits: bit `i` of `freeBits` is 1 exactly when page `i` is free, that is, when bit
`i % 32` of word `i / 32` is 0. A page beyond the bitmap is never free. DESIGN CHOICE of representation (log entry 9). -/
structure Bitmap where
  freeBits : Nat
  deriving DecidableEq, Repr

/-- Physical memory (R33): the bytes something has written, by address. -/
abbrev Memory := List Host.Cell

/-- The translation cache (R32): pairs of virtual page number and leaf entry, by page number. -/
abbrev Tlb := List (Vpn × Word)

/-- The complete state (R20): the block's registers under their own names, the bitmap, the translation cache and physical memory;
then the model's own fields (parameters, draw counter, the host). `CMD` holds nothing (R35). -/
structure State where
  /-- `ARG0` (R21). -/
  arg0 : Word
  /-- `ARG1` (R21). -/
  arg1 : Word
  /-- `ARG2` (R21). -/
  arg2 : Word
  /-- `RES0` (R22). -/
  res0 : Word
  /-- `RES1` (R22). -/
  res1 : Word
  /-- `STATUS` (R24). -/
  status : Word32
  /-- `FLAGS` (R25). -/
  flags : Word32
  /-- `TOTAL_BLOCKS` (R26). -/
  totalBlocks : Word
  /-- `USED_PAGES` (R27). -/
  usedPages : Word
  /-- `BITMAP` (R28). -/
  bitmap : Bitmap
  /-- `ROOT` (R30). -/
  root : Word
  /-- `ACTIVE_ROOT` (R31). -/
  activeRoot : Word
  /-- `TLB` (R32). -/
  tlb : Tlb
  /-- Physical memory (R33). -/
  mem : Memory
  /-- The model's own: the implementation parameters (R7; log entry 3). -/
  cfg : Config
  /-- The model's own: how many fills have drawn a choice (R185; log entry 7). -/
  tlbDraws : Nat
  /-- The model's own: the accesses the host has still to make (R12, R90; log entry 1). -/
  hostScript : List HostAccess
  /-- The model's own: the value the host's last read returned (R36; log entry 2). -/
  hostData : Word
  deriving DecidableEq, Repr

/-- What a step answers. -/
abbrev Result := Host.Outcome State Fault Refusal

/-- Every element of the block at its value after reset (R37), over given parameters, memory, draw counter and host. R250: reset
"does not read or write physical memory". -/
def State.blockReset (cfg : Config) (mem : Memory) (tlbDraws : Nat) (hostScript : List HostAccess) (hostData : Word) : State :=
  { arg0 := 0, arg1 := 0, arg2 := 0, res0 := 0, res1 := 0, status := 0, flags := 0, totalBlocks := 0, usedPages := 0,
    bitmap := { freeBits := 0 }, root := 0, activeRoot := 0, tlb := [], mem, cfg, tlbDraws, hostScript, hostData }

/-- The machine right after reset (R37, R250): nothing written to memory, no command given. -/
def State.reset : State :=
  State.blockReset Config.default [] 0 [] 0

end Sys2Proof.Machine
end

