-- ==== Sys2Proof/Machine/Flags.lean ====
section
/-! DEFINITION. `STATUS` codes (R220), `FLAGS` bits (R25), and `done`, the last action of every command (R221). -/

namespace Sys2Proof.Machine

/-- The number of a status code (R220). -/
def Status.code : Status → Word32
  | .ok => 0
  | .fail => 1
  | .errCmd => 2
  | .errState => 3
  | .errArg => 4
  | .errRange => 5
  | .errBus => 6

/-- Where a named bit stands in `FLAGS` (R25). -/
def FlagBit.position : FlagBit → Nat
  | .pmmReady => 0
  | .vmmReady => 1
  | .activeValid => 2
  | .err => 3

/-- `FLAGS` with one bit set (R25: no command clears one). -/
def FlagBit.raise (b : FlagBit) (flags : Word32) : Word32 :=
  flags ||| (1 <<< b.position)

/-- A named bit of `FLAGS` (R25). -/
def State.flag (b : FlagBit) (s : State) : Bool :=
  s.flags.getLsbD b.position

/-- `FLAGS.<b> <- 1`. -/
def State.raiseFlag (b : FlagBit) (s : State) : State :=
  { s with flags := b.raise s.flags }

/-- `FLAGS.ERR` after a command ends with a status: raised by codes 2 and above, else as it was (R221). -/
def Status.mark (st : Status) (flags : Word32) : Word32 :=
  if 2 ≤ st.code.toNat then FlagBit.err.raise flags else flags

/-- `done(status, r0, r1)` (R221). -/
def State.done (st : Status) (r0 r1 : Word) (s : State) : State :=
  { s with status := st.code, res0 := r0, res1 := r1, flags := st.mark s.flags }

/-- The end of a command: `done`, and the `CMD` write returns (R221). -/
def finish (st : Status) (r0 r1 : Word) (s : State) : Result :=
  .next (s.done st r0 r1)

end Sys2Proof.Machine
end

