-- ==== Sys2Proof/Machine/Operands.lean ====
section
/-! DEFINITION. The constants of R6 and the operand forms: page indices (R28, R134), the parts of a virtual address (R70, R71), the
parts of a page-table entry (R67 to R69), the address of an entry (R74). -/

namespace Sys2Proof.Machine

/-! ## Constants (R6) -/

/-- `PAGE_SIZE`. -/
@[simp] abbrev pageSize : Nat := 4096

/-- `BITS_PER_WORD`. -/
@[simp] abbrev bitsPerWord : Nat := 32

/-- `BLOCK_BYTES`, `PAGE_SIZE * 32`. -/
@[simp] abbrev blockBytes : Nat := 131072

/-- `RESERVED_BYTES`, 16 MiB. -/
@[simp] abbrev reservedBytes : Nat := 0x1000000

/-- `RESERVED_PAGES`. -/
@[simp] abbrev reservedPages : Nat := 4096

/-- The pages `VMM_INIT` maps, `IDMAP_BYTES / PAGE_SIZE` (R6, R151). -/
@[simp] abbrev idmapPages : Nat := 4096

/-- `ENTRIES_PER_TABLE`. -/
@[simp] abbrev entriesPerTable : Nat := 512

/-- `TABLE_FLAGS`, present and writable. -/
abbrev tableFlags : Word := 0x03

/-- `FRAME_MASK`, bits 63 to 12 (R7, D10). -/
abbrev frameMask : Word := 0xFFFFFFFFFFFFF000

/-! ## Pages -/

/-- The page a physical address lies in, `addr / 4096` (R134). -/
def pageIndex (addr : Word) : Nat :=
  addr.toNat / pageSize

/-- The physical address of a page, `i * 4096` (R134). -/
def pageAddr (i : Nat) : Word :=
  BitVec.ofNat 64 (i * pageSize)

/-! ## Virtual addresses -/

/-- The four levels of the tree, leaf first (R66). -/
inductive Level where
  | pt | pd | pdpt | pml4
  deriving DecidableEq, Repr

/-- The number of a level (R66). -/
def Level.number : Level → Nat
  | .pt => 0
  | .pd => 1
  | .pdpt => 2
  | .pml4 => 3

/-- The three non-leaf levels, in the order every walk takes them: `L = 3, 2, 1` (R73, R152, R159). -/
def nonLeafLevels : List Level :=
  [.pml4, .pdpt, .pd]

/-- `vidx(virt, L)`: nine bits from bit `12 + 9 L` up (R70). -/
def vidx (virt : Word) (l : Level) : BitVec 9 :=
  virt.extractLsb' (12 + 9 * l.number) 9

/-- `voff(virt) = virt[11:0]`, as a 64-bit value (R71). -/
def voff (virt : Word) : Word :=
  (virt.extractLsb' 0 12).setWidth 64

/-- `vpn(virt) = virt[47:12]` (R71). -/
def vpn (virt : Word) : Vpn :=
  virt.extractLsb' 12 36

/-! ## Entries -/

/-- `present(e)`: bit 0 decides, whatever the other bits (R68). -/
def present (e : Word) : Bool :=
  e.getLsbD 0

/-- `frame(e)`: the entry with its low 12 bits cleared (R69). -/
def frame (e : Word) : Word :=
  e &&& frameMask

/-- The entry's bits 11 to 0, as `TLB_XLATE` returns them in `RES1` (R186). -/
def entryFlags (e : Word) : Word :=
  (e.extractLsb' 0 12).setWidth 64

/-- The translation of `virt` through a leaf entry, `frame(e) | voff(virt)` (R75). -/
def translate (e virt : Word) : Word :=
  frame e ||| voff virt

/-- The address of entry `idx` of the table at `t`, `t + idx * 8` (R66, R74). -/
def entryAddr (t : Word) (idx : BitVec 9) : Word :=
  t + idx.setWidth 64 * 8

end Sys2Proof.Machine
end

