-- ==== Sys2Proof/Machine/Ops.lean ====
section
/-! DEFINITION. The operations the commands share: bitmap, allocation and release (R28, R122, R124, R128, R129), bytes and words of
memory (R61, R64), pages and walks (R72, R73, R152), the translation cache (R183 to R185). -/

namespace Sys2Proof.Machine

/-! ## Lists kept by key -/

/-- Put a pair into a list kept by rising key, in place of the pair with that key if there is one. -/
def insertByKey {κ β : Type} (key : κ → Nat) (k : κ) (v : β) : List (κ × β) → List (κ × β)
  | [] => [(k, v)]
  | (j, w) :: rest =>
    if key k < key j then (k, v) :: (j, w) :: rest
    else if key k = key j then (k, v) :: rest
    else (j, w) :: insertByKey key k v rest

/-! ## The bitmap -/

/-- The pages `first`, …, `first + count - 1`, as a mask. -/
def pageMask (first count : Nat) : Nat :=
  (2 ^ count - 1) <<< first

/-- `bit(i)` (R10): true for a used page. -/
def Bitmap.used (b : Bitmap) (i : Nat) : Bool :=
  !b.freeBits.testBit i

/-- `BITMAP[w]`: 32 bits, page `32 w` the least significant (R28). -/
def Bitmap.word (b : Bitmap) (w : Nat) : Word32 :=
  ~~~ BitVec.ofNat 32 (b.freeBits >>> (bitsPerWord * w))

/-- Every page used: the bitmap at reset (R28) and before `PMM_INIT` clears its range (R120). -/
def Bitmap.allUsed : Bitmap :=
  { freeBits := 0 }

/-- `setbit(j)` for the pages `first`, …, `first + count - 1` (R10, R122, R125). -/
def Bitmap.setPages (b : Bitmap) (first count : Nat) : Bitmap :=
  { freeBits := b.freeBits ^^^ (b.freeBits &&& pageMask first count) }

/-- `clrbit(j)` for the pages `first`, …, `first + count - 1` (R10, R120, R129). -/
def Bitmap.clearPages (b : Bitmap) (first count : Nat) : Bitmap :=
  { freeBits := b.freeBits ||| pageMask first count }

/-- How many of the pages `first`, …, `first + count - 1` are used (R27). -/
def Bitmap.countUsed (b : Bitmap) (first count : Nat) : Nat :=
  (List.range' first count).countP b.used

/-- Total pages, `TOTAL_BLOCKS * 32` (R26): the scanned range is the pages below it (R121). -/
def State.totalPages (s : State) : Nat :=
  s.totalBlocks.toNat * bitsPerWord

/-- Mark free pages used and count them (R122, R125). -/
def State.takePages (s : State) (first count : Nat) : State :=
  { s with bitmap := s.bitmap.setPages first count, usedPages := s.usedPages + BitVec.ofNat 64 count }

/-- Clear those of the pages that are used, and count each one down; a page already free changes nothing (R128, R129). -/
def State.releasePages (s : State) (first count : Nat) : State :=
  { s with
    bitmap := s.bitmap.clearPages first count
    usedPages := s.usedPages - BitVec.ofNat 64 (s.bitmap.countUsed first count) }

/-- The bitmap `PMM_INIT` makes for a memory of `bytes` bytes: every page used, then cleared from the end of the reserved region up to
`min(bytes / 4096, MAX_BLOCKS * 32)` (R120). -/
def Bitmap.forMemory (maxBlocks bytes : Nat) : Bitmap :=
  Bitmap.allUsed.clearPages reservedPages (min (bytes / pageSize) (maxBlocks * bitsPerWord) - reservedPages)

/-- The state changes of `PMM_INIT` for a memory of `bytes` bytes (R120). -/
def State.initFrames (s : State) (bytes : Nat) : State :=
  { s with
    totalBlocks := BitVec.ofNat 64 (min (bytes / blockBytes) s.cfg.maxBlocks)
    bitmap := Bitmap.forMemory s.cfg.maxBlocks bytes
    usedPages := BitVec.ofNat 64 reservedPages
    flags := FlagBit.pmmReady.raise s.flags }

/-- The lowest free page of the scanned range: words in ascending order, bits from bit 0 up (R122: "the least `i` in
`[0, TOTAL_BLOCKS*32)` with `bit(i) = 0`"). -/
def State.lowestFree (s : State) : Option Nat :=
  (List.range' 0 s.totalPages).find? fun i => !s.bitmap.used i

/-- `pfa_alloc_one()` (R122): the address of the frame, or 0 for "no frame", and the state after it. -/
def pfaAllocOne (s : State) : Word × State :=
  match s.lowestFree with
  | none => (0, s)
  | some i => (pageAddr i, s.takePages i 1)

/-- Whether the pages `first`, …, `first + count - 1` are all free. -/
def Bitmap.runFree (b : Bitmap) (first count : Nat) : Bool :=
  (List.range' first count).all fun j => !b.used j

/-- `pfa_find_run(count)` (R124): the least `s` with `s + count <= TOTAL_BLOCKS*32` and all pages of the run free; the sum does not
wrap, so the candidates are `0`, …, `TOTAL_BLOCKS*32 - count`. -/
def State.findRun (s : State) (count : Nat) : Option Nat :=
  (List.range' 0 (s.totalPages + 1 - count)).find? fun first => s.bitmap.runFree first count

/-! ## Bytes of memory -/

/-- The canonical form: addresses strictly rising, all of them 64-bit addresses. An unlisted address holds nothing that was written, so
no entry can equal what it reads as (log entry 5). -/
abbrev Memory.wf (m : Memory) : Prop :=
  (m.map Prod.fst).Pairwise (· < ·) ∧ ∀ c ∈ m, c.1 < 2 ^ 64

/-- What an unlisted address reads as: the value it had at reset, unspecified and so free (R37, U10; log entry 5). -/
def Memory.unlisted (addr : Word) : Byte :=
  Config.initialByte addr.toNat

/-- The byte at an address. -/
def Memory.readByte (m : Memory) (addr : Word) : Byte :=
  (m.lookup addr.toNat).getD (Memory.unlisted addr)

/-- The memory with one byte written. -/
def Memory.writeByte (m : Memory) (addr : Word) (v : Byte) : Memory :=
  insertByKey id addr.toNat v m

/-- `n` bytes from `addr` on as a number, the least significant at `addr` (R61). -/
def Memory.readLE (m : Memory) (addr : Word) : Nat → Word
  | 0 => 0
  | n + 1 => (m.readLE (addr + 1) n <<< 8) ||| (m.readByte addr).setWidth 64

/-- The memory with the low `n` bytes of `v` written from `addr` on, the least significant at `addr` (R61). -/
def Memory.writeLE (m : Memory) (addr : Word) : Nat → Word → Memory
  | 0, _ => m
  | n + 1, v => (m.writeByte addr (v.setWidth 8)).writeLE (addr + 1) n (v >>> 8)

/-- The 64-bit word at an address (R61, R64). -/
def Memory.readWord (m : Memory) (addr : Word) : Word :=
  m.readLE addr 8

/-- The memory with a 64-bit word written (R61, R64). -/
def Memory.writeWord (m : Memory) (addr : Word) (v : Word) : Memory :=
  m.writeLE addr 8 v

/-! ## The block's accesses -/

/-- Whether all of `[addr, addr + n)` lies in one region of memory. -/
def Config.covers (c : Config) (addr n : Nat) : Bool :=
  c.physMem.any fun r => r.base ≤ addr && addr + n ≤ r.base + r.size

/-- `MemValid(addr)` (R7, R64): the eight bytes at an 8-byte-aligned address exist. -/
def State.memValid (s : State) (addr : Word) : Bool :=
  Config.covers s.cfg addr.toNat 8

/-- How a part of a command that reaches memory goes on: with a value, or at its end with `ERR_BUS` and everything before the failing
access kept (R64), or with the fault of R62's impossible case. -/
inductive CmdResult (α : Type) where
  | ok (a : α) (s : State)
  | busError (s : State)
  | fault (f : Fault)
  deriving DecidableEq, Repr

/-- One part of a command after another. -/
def CmdResult.andThen {α β : Type} (r : CmdResult α) (k : α → State → CmdResult β) : CmdResult β :=
  match r with
  | .ok a s => k a s
  | .busError s => .busError s
  | .fault f => .fault f

/-- The end of a command that reached memory: `done(ERR_BUS, 0, 0)` at a failing access (R64, R225). -/
def CmdResult.conclude {α : Type} (r : CmdResult α) (k : α → State → Result) : Result :=
  match r with
  | .ok a s => k a s
  | .busError s => finish .errBus 0 0 s
  | .fault f => .fault f

/-- `MemRead(addr, 8)` (R64). -/
def memRead (addr : Word) (s : State) : CmdResult Word :=
  if addr.toNat % 8 ≠ 0 then .fault .misalignedTableAccess
  else if s.memValid addr then .ok (s.mem.readWord addr) s
  else .busError s

/-- The state with a word of memory written. -/
def State.storeWord (s : State) (addr v : Word) : State :=
  { s with mem := s.mem.writeWord addr v }

/-- `MemWrite(addr, 8, v)` (R64). -/
def memWrite (addr v : Word) (s : State) : CmdResult Unit :=
  if addr.toNat % 8 ≠ 0 then .fault .misalignedTableAccess
  else if s.memValid addr then .ok () (s.storeWord addr v)
  else .busError s

/-- Zero the listed entries of the table at `p`, in the order of the list. -/
def zeroEntries (p : Word) : List Nat → State → CmdResult Unit
  | [], s => .ok () s
  | k :: ks, s => (memWrite (p + BitVec.ofNat 64 (8 * k)) 0 s).andThen fun _ s => zeroEntries p ks s

/-- `zero_page(p)` (R72): all 512 entries, ascending. -/
def zeroPage (p : Word) (s : State) : CmdResult Unit :=
  zeroEntries p (List.range' 0 entriesPerTable) s

/-! ## Walks -/

/-- Down the non-leaf levels without creating: the table below the last of them, or none at the first absent entry (the loop of R73
and R159). -/
def descend (virt : Word) : List Level → Word → State → CmdResult (Option Word)
  | [], t, s => .ok (some t) s
  | l :: ls, t, s =>
    (memRead (entryAddr t (vidx virt l)) s).andThen fun e s =>
      if present e then descend virt ls (frame e) s else .ok none s

/-- What a walk finds (R73). -/
inductive Walk where
  | absent
  | found (e a : Word)
  deriving DecidableEq, Repr

/-- `walk(root, virt)` (R73): at most four reads, no write. -/
def walk (root virt : Word) (s : State) : CmdResult Walk :=
  (descend virt nonLeafLevels root s).andThen fun leafTable s =>
    match leafTable with
    | none => .ok .absent s
    | some t =>
      (memRead (entryAddr t (vidx virt .pt)) s).andThen fun e s =>
        .ok (if present e then .found e (entryAddr t (vidx virt .pt)) else .absent) s

/-- A fresh table for the entry at `a`: a frame of the PFA, zeroed, then linked with `TABLE_FLAGS`; none when the PFA has no frame
(R152). -/
def installTable (a : Word) (s : State) : CmdResult (Option Word) :=
  match pfaAllocOne s with
  | (n, s) =>
    if n = 0 then .ok none s
    else
      (zeroPage n s).andThen fun _ s =>
        (memWrite a (n ||| tableFlags) s).andThen fun _ s => .ok (some n) s

/-- Down the non-leaf levels, creating the tables that are absent: the table below the last level, or none when the PFA ran out (the
loop of R152). -/
def descendCreating (virt : Word) : List Level → Word → State → CmdResult (Option Word)
  | [], t, s => .ok (some t) s
  | l :: ls, t, s =>
    (memRead (entryAddr t (vidx virt l)) s).andThen fun e s =>
      if present e then descendCreating virt ls (frame e) s
      else
        (installTable (entryAddr t (vidx virt l)) s).andThen fun fresh s =>
          match fresh with
          | none => .ok none s
          | some n => descendCreating virt ls n s

/-! ## The translation cache -/

/-- The entry cached for a page (R32). -/
def Tlb.find (t : Tlb) (n : Vpn) : Option Word :=
  t.lookup n

/-- The cache without the pair of a page (R183). -/
def Tlb.remove (t : Tlb) (n : Vpn) : Tlb :=
  t.filter fun p => p.1 != n

/-- The cache with a pair added, before anything is dropped (R185). -/
def Tlb.add (t : Tlb) (n : Vpn) (e : Word) : Tlb :=
  insertByKey BitVec.toNat n e t

/-- `tlb_invalidate(n)` (R183). -/
def tlbInvalidate (n : Vpn) (s : State) : State :=
  { s with tlb := s.tlb.remove n }

/-- `tlb_flush()` (R184). -/
def tlbFlush (s : State) : State :=
  { s with tlb := [] }

/-- What a fill leaves in the cache: of the old pairs and the new one, those the draw keeps, at most `TLB_ENTRIES` (R185). Every set
R185 allows is left by some choice of the draw. -/
def Tlb.retain (t : Tlb) (keeps : Vpn → Bool) (entries : Nat) : Tlb :=
  (t.filter fun p => keeps p.1).take entries

/-- `tlb_fill(n, e)` (R185). -/
def tlbFill (n : Vpn) (e : Word) (s : State) : State :=
  { s with tlb := (s.tlb.add n e).retain (Config.tlbKeeps s.tlbDraws) s.cfg.tlbEntries, tlbDraws := s.tlbDraws + 1 }

/-! ## Mapping -/

/-- `ptw_map(virt, phys, flags)` (R152): true for `ok`, false for `fail`. -/
def ptwMap (virt phys flags : Word) (s : State) : CmdResult Bool :=
  (descendCreating virt nonLeafLevels s.root s).andThen fun leafTable s =>
    match leafTable with
    | none => .ok false s
    | some t =>
      (memWrite (entryAddr t (vidx virt .pt)) (phys ||| flags) s).andThen fun _ s =>
        .ok true (tlbInvalidate (vpn virt) s)

/-- The identity mappings of the listed pages, in order, up to the first that fails (R151). -/
def identityMap : List Nat → State → CmdResult Bool
  | [], s => .ok true s
  | k :: ks, s =>
    (ptwMap (pageAddr k) (pageAddr k) tableFlags s).andThen fun mapped s =>
      if mapped then identityMap ks s else .ok false s

end Sys2Proof.Machine
end

