-- ==== Sys2Proof/Machine/Pfa.lean ====
section
/-! DEFINITION. The PFA commands (`40_pfa_commands.md`). Checks in the order of R222; none of them reaches memory (R60). -/

namespace Sys2Proof.Machine

/-- `PMM_INIT` (R120). -/
def execPmmInit (s : State) : Result :=
  if s.flag .pmmReady then finish .errState 0 0 s
  else if s.arg0.toNat < reservedBytes then finish .errArg 0 0 s
  else finish .ok 0 0 (s.initFrames s.arg0.toNat)

/-- `PMM_ALLOC` (R123). -/
def execPmmAlloc (s : State) : Result :=
  if !s.flag .pmmReady then finish .errState 0 0 s
  else
    match pfaAllocOne s with
    | (a, s) => if a = 0 then finish .fail 0 0 s else finish .ok a 0 s

/-- `PMM_ALLOCN` (R125). -/
def execPmmAllocn (s : State) : Result :=
  if !s.flag .pmmReady then finish .errState 0 0 s
  else if s.arg0 = 0 then finish .errArg 0 0 s
  else
    match s.findRun s.arg0.toNat with
    | none => finish .fail 0 0 s
    | some first => finish .ok (pageAddr first) 0 (s.takePages first s.arg0.toNat)

/-- `PMM_FREE` (R128). -/
def execPmmFree (s : State) : Result :=
  if !s.flag .pmmReady then finish .errState 0 0 s
  else if pageIndex s.arg0 < reservedPages ∨ s.totalPages ≤ pageIndex s.arg0 then finish .errRange 0 0 s
  else finish .ok 0 0 (s.releasePages (pageIndex s.arg0) 1)

/-- `PMM_FREEN` (R129): the `count = 0` exit stands before the range check (C9), whose sum does not wrap (R134). -/
def execPmmFreen (s : State) : Result :=
  if !s.flag .pmmReady then finish .errState 0 0 s
  else if s.arg1 = 0 then finish .ok 0 0 s
  else if pageIndex s.arg0 < reservedPages ∨ s.totalPages < pageIndex s.arg0 + s.arg1.toNat then finish .errRange 0 0 s
  else finish .ok 0 0 (s.releasePages (pageIndex s.arg0) s.arg1.toNat)

/-- `PMM_TOTAL` (R131). -/
def execPmmTotal (s : State) : Result :=
  finish .ok (s.totalBlocks * BitVec.ofNat 64 blockBytes) 0 s

/-- `PMM_USED` (R132). -/
def execPmmUsed (s : State) : Result :=
  finish .ok (s.usedPages * BitVec.ofNat 64 pageSize) 0 s

/-- `PMM_FREEMEM` (R133). -/
def execPmmFreemem (s : State) : Result :=
  finish .ok ((s.totalBlocks * BitVec.ofNat 64 bitsPerWord - s.usedPages) * BitVec.ofNat 64 pageSize) 0 s

end Sys2Proof.Machine
end

