-- ==== Sys2Proof/Machine/Ptw.lean ====
section
/-! DEFINITION. The PTW commands (`41_ptw_commands.md`). All but `VMM_SWITCH` work on the tree at `ROOT` (R150). -/

namespace Sys2Proof.Machine

/-- `ROOT <- r` (R151). -/
def State.setRoot (s : State) (r : Word) : State :=
  { s with root := r }

/-- `VMM_INIT` (R151). -/
def execVmmInit (s : State) : Result :=
  if s.flag .vmmReady then finish .errState 0 0 s
  else if !s.flag .pmmReady then finish .errState 0 0 s
  else
    match pfaAllocOne s with
    | (r, s) =>
      if r = 0 then finish .fail 0 0 s
      else
        (zeroPage r s).conclude fun _ s =>
          (identityMap (List.range' 0 idmapPages) (s.setRoot r)).conclude fun mapped s =>
            if mapped then finish .ok r 0 (s.raiseFlag .vmmReady) else finish .fail 0 0 s

/-- `VMM_MAP` (R153): no check of the operands (R156). -/
def execVmmMap (s : State) : Result :=
  if !s.flag .vmmReady then finish .errState 0 0 s
  else
    (ptwMap s.arg0 s.arg1 s.arg2 s).conclude fun mapped s =>
      if mapped then finish .ok 0 0 s else finish .fail 0 0 s

/-- `VMM_UNMAP` (R159). -/
def execVmmUnmap (s : State) : Result :=
  if !s.flag .vmmReady then finish .errState 0 0 s
  else
    (descend s.arg0 nonLeafLevels s.root s).conclude fun leafTable s =>
      match leafTable with
      | none => finish .ok 0 0 s
      | some t =>
        (memWrite (entryAddr t (vidx s.arg0 .pt)) 0 s).conclude fun _ s =>
          finish .ok 0 0 (tlbInvalidate (vpn s.arg0) s)

/-- `VMM_GETPA` (R161): never the translation cache. -/
def execVmmGetpa (s : State) : Result :=
  if !s.flag .vmmReady then finish .errState 0 0 s
  else
    (walk s.root s.arg0 s).conclude fun r s =>
      match r with
      | .absent => finish .fail 0 0 s
      | .found e _ => finish .ok (translate e s.arg0) 0 s

/-- `ACTIVE_ROOT <- t` (R163). -/
def State.setActiveRoot (s : State) (t : Word) : State :=
  { s with activeRoot := t }

/-- `VMM_SWITCH` (R163): the table is not inspected, no readiness is needed. -/
def execVmmSwitch (s : State) : Result :=
  if voff s.arg0 ≠ 0 then finish .errArg 0 0 s
  else finish .ok 0 0 (tlbFlush ((s.setActiveRoot s.arg0).raiseFlag .activeValid))

end Sys2Proof.Machine
end

