-- ==== Sys2Proof/Machine/TlbUnit.lean ====
section
/-! DEFINITION. The TLB commands (`42_tlb_commands.md`). -/

namespace Sys2Proof.Machine

/-- `TLB_XLATE` (R186): a hit is mandatory and reads no memory; a miss walks from `ACTIVE_ROOT`; an absent page is never cached. -/
def execTlbXlate (s : State) : Result :=
  if !s.flag .activeValid then finish .errState 0 0 s
  else
    match s.tlb.find (vpn s.arg0) with
    | some e => finish .ok (translate e s.arg0) (entryFlags e) s
    | none =>
      (walk s.activeRoot s.arg0 s).conclude fun r s =>
        match r with
        | .absent => finish .fail 0 0 s
        | .found e _ => finish .ok (translate e s.arg0) (entryFlags e) (tlbFill (vpn s.arg0) e s)

/-- `TLB_INVLPG` (R187): legal in every state. -/
def execTlbInvlpg (s : State) : Result :=
  finish .ok 0 0 (tlbInvalidate (vpn s.arg0) s)

end Sys2Proof.Machine
end

