-- ==== Sys2Proof/Machine/Dispatch.lean ====
section
/-! DEFINITION. One arm per command. -/

namespace Sys2Proof.Machine

/-- What a command does: the whole of it, from the state at the `CMD` write to the state when that write returns (R91). -/
def exec (i : Instr) (s : State) : Host.Outcome State Fault Refusal :=
  match i with
  | .pmmInit => Sys2Proof.Machine.execPmmInit s
  | .pmmAlloc => Sys2Proof.Machine.execPmmAlloc s
  | .pmmAllocn => Sys2Proof.Machine.execPmmAllocn s
  | .pmmFree => Sys2Proof.Machine.execPmmFree s
  | .pmmFreen => Sys2Proof.Machine.execPmmFreen s
  | .pmmTotal => Sys2Proof.Machine.execPmmTotal s
  | .pmmUsed => Sys2Proof.Machine.execPmmUsed s
  | .pmmFreemem => Sys2Proof.Machine.execPmmFreemem s
  | .vmmInit => Sys2Proof.Machine.execVmmInit s
  | .vmmMap => Sys2Proof.Machine.execVmmMap s
  | .vmmUnmap => Sys2Proof.Machine.execVmmUnmap s
  | .vmmGetpa => Sys2Proof.Machine.execVmmGetpa s
  | .vmmSwitch => Sys2Proof.Machine.execVmmSwitch s
  | .tlbXlate => Sys2Proof.Machine.execTlbXlate s
  | .tlbInvlpg => Sys2Proof.Machine.execTlbInvlpg s

end Sys2Proof.Machine
end

