-- ==== Sys2Proof/Machine/HostPort.lean ====
section
/-! DEFINITION. What the host does to the block: register accesses (R36), the `CMD` write (R91, R96), loads and stores of physical
memory (R61, R257), reset (R250), and the next access of its script. -/

namespace Sys2Proof.Machine

/-- What a host read of a register returns, zero-extended (R36; `CMD` reads 0, R35). -/
def State.readRegister (s : State) : Reg → Word
  | .cmd => 0
  | .arg0 => s.arg0
  | .arg1 => s.arg1
  | .arg2 => s.arg2
  | .status => s.status.setWidth 64
  | .res0 => s.res0
  | .res1 => s.res1
  | .flags => s.flags.setWidth 64
  | .root => s.root
  | .activeRoot => s.activeRoot
  | .totalBlocks => s.totalBlocks
  | .usedPages => s.usedPages

/-- A host write of a command word to `CMD`: the whole command (R91), or `ERR_CMD` and nothing else for an illegal word (R96). -/
def runCommandWord (w : Word32) (s : State) : Result :=
  match decode w with
  | .ok i => exec i s
  | .error _ => finish .errCmd 0 0 s

/-- A host write of a whole register: `CMD` runs a command, the `ARG` registers take the value, every other write "is ignored and
changes nothing" (R36). -/
def writeRegister (r : Reg) (v : Word) (s : State) : Result :=
  match r with
  | .cmd => runCommandWord (v.setWidth 32) s
  | .arg0 => .next { s with arg0 := v }
  | .arg1 => .next { s with arg1 := v }
  | .arg2 => .next { s with arg2 := v }
  | .status | .res0 | .res1 | .flags | .root | .activeRoot | .totalBlocks | .usedPages => .next s

/-- A register access at an offset: to one whole register at its own width, or refused (R36, U12; log entry 11). -/
def atRegister (offset : Nat) (width : Width) (access : Reg → Result) : Result :=
  match Reg.atOffset offset with
  | none => .refused (.noSuchRegister offset)
  | some r => if width = r.width then access r else .refused (.wrongRegisterWidth r width)

/-- Whether memory exists at each of the `n` bytes from `addr` on: a byte exists with the aligned word that holds it (R33, R61). -/
def State.bytesExist (s : State) (addr : Word) : Nat → Bool
  | 0 => true
  | n + 1 => Config.covers s.cfg (addr.toNat - addr.toNat % 8) 8 && s.bytesExist (addr + 1) n

/-- What reset leaves: every element of R37 at its reset value; physical memory, the parameters and the host are not the block's
(R250, R252; log entry 10). -/
def State.afterReset (s : State) : State :=
  State.blockReset s.cfg s.mem s.tlbDraws s.hostScript s.hostData

/-- One access of the host's. -/
def hostAccess (a : HostAccess) (s : State) : Result :=
  match a with
  | .regWrite offset width v => atRegister offset width fun r => writeRegister r v s
  | .regRead offset width => atRegister offset width fun r => .next { s with hostData := s.readRegister r }
  | .memWrite addr width v =>
    if s.bytesExist addr width.bytes then .next { s with mem := s.mem.writeLE addr width.bytes v }
    else .refused (.hostAccessWithoutMemory addr)
  | .memRead addr width =>
    if s.bytesExist addr width.bytes then .next { s with hostData := s.mem.readLE addr width.bytes }
    else .refused (.hostAccessWithoutMemory addr)
  | .reset => .next s.afterReset

/-- The state once the host's next access has left its script. -/
def State.withScript (s : State) (rest : List HostAccess) : State :=
  { s with hostScript := rest }

/-- The next access of the host's script; a host with nothing left to do leaves the block idle (R237, R264; log entry 1). -/
def nextAccess (s : State) : Result :=
  match s.hostScript with
  | [] => .next s
  | a :: rest => hostAccess a (s.withScript rest)

/-- The write of a command word to `CMD` put before everything else the host will do; the bits above `nbits` are zero. -/
def State.fetching (s : State) (nbits w : Nat) : State :=
  s.withScript (.regWrite Reg.cmd.offset .w32 (BitVec.ofNat 64 (w % 2 ^ nbits)) :: s.hostScript)

end Sys2Proof.Machine
end

