-- ==== Sys2Proof/Machine/Transaction.lean ====
section
/-! DEFINITION. Whole transactions: a command with its operands (R90), a program (R264), a pseudo-command (R100). -/

namespace Sys2Proof.Machine

/-- The `ARG` registers once a transaction's operands are written, `ARG0` first (R90 step 1); the others keep their values (R21). -/
def State.writeArgs (s : State) : List Word → State
  | [] => s
  | [a] => { s with arg0 := a }
  | [a, b] => { s with arg0 := a, arg1 := b }
  | a :: b :: c :: _ => { s with arg0 := a, arg1 := b, arg2 := c }

/-- One transaction up to the return of the `CMD` write: the operands, then the command (R90, R91). -/
def transact (c : Command) (s : State) : Result :=
  exec c.instr (s.writeArgs c.args)

/-- One result after another. -/
def thenRun (r : Result) (k : State → Result) : Result :=
  match r with
  | .next s => k s
  | .fault f => .fault f
  | .refused r => .refused r

/-- A program: its transactions in order (R103, R264). -/
def runProgram : List Command → State → Result
  | [], s => .next s
  | c :: cs, s => thenRun (transact c s) (runProgram cs)

/-- `VMM_MAP a, a, flags` for `count` pages from `a` on, up to the first status that is not `OK` (R100). -/
def runIdmap (flags : Word) : Nat → Nat → State → Result
  | 0, _, s => .next s
  | count + 1, a, s =>
    thenRun (transact { instr := .vmmMap, args := [BitVec.ofNat 64 a, BitVec.ofNat 64 a, flags] } s) fun t =>
      if t.status = Status.ok.code then runIdmap flags count (a + pageSize) t else .next t

/-- `VMM_ACTIVATE`: `VMM_SWITCH` to the current value of `ROOT` (R100). -/
def runActivate (s : State) : Result :=
  transact { instr := .vmmSwitch, args := [s.root] } s

/-- A pseudo-command by its expansion (R100); none where it has no expansion: `TLB_FLUSH` without `ACTIVE_VALID`. -/
def runPseudo (p : Pseudo) (s : State) : Option Result :=
  match p with
  | .tlbFlush => if s.flag .activeValid then some (transact { instr := .vmmSwitch, args := [s.activeRoot] } s) else none
  | .vmmActivate => some (runActivate s)
  | .vmmIdmap lo hi flags => some (runIdmap flags ((hi.toNat - lo.toNat + (pageSize - 1)) / pageSize) lo.toNat s)
  | .boot bytes =>
    some (thenRun (transact { instr := .pmmInit, args := [bytes] } s) fun s =>
      thenRun (transact { instr := .vmmInit, args := [] } s) runActivate)

end Sys2Proof.Machine
end

