-- ==== Sys2Proof/Machine/Assembler.lean ====
section
/-! DEFINITION. The textual syntax (R99) and the lines it assembles to (R100, R103). What R99 leaves open of spaces, letter case and
underscores is log entry 15. -/

namespace Sys2Proof.Machine

/-- What one line of text stands for (R99, R100). -/
inductive Line where
  | blank
  | command (c : Command)
  | pseudo (p : Pseudo)
  deriving DecidableEq, Repr

/-- The mnemonics of R93. -/
def mnemonicOf : Instr → String
  | .pmmInit => "PMM_INIT"
  | .pmmAlloc => "PMM_ALLOC"
  | .pmmAllocn => "PMM_ALLOCN"
  | .pmmFree => "PMM_FREE"
  | .pmmFreen => "PMM_FREEN"
  | .pmmTotal => "PMM_TOTAL"
  | .pmmUsed => "PMM_USED"
  | .pmmFreemem => "PMM_FREEMEM"
  | .vmmInit => "VMM_INIT"
  | .vmmMap => "VMM_MAP"
  | .vmmUnmap => "VMM_UNMAP"
  | .vmmGetpa => "VMM_GETPA"
  | .vmmSwitch => "VMM_SWITCH"
  | .tlbXlate => "TLB_XLATE"
  | .tlbInvlpg => "TLB_INVLPG"

/-- Space, tab and carriage return separate; a line feed ends a line and is no part of it. -/
def isBlank (c : Char) : Bool :=
  c == ' ' || c == '\t' || c == '\r'

/-- A text without blanks at its ends. -/
def trimBlanks (cs : List Char) : List Char :=
  ((cs.dropWhile isBlank).reverse.dropWhile isBlank).reverse

/-- The parts of a text between separators. -/
def splitAtChar (sep : Char) : List Char → List (List Char)
  | [] => [[]]
  | c :: cs =>
    if c == sep then [] :: splitAtChar sep cs
    else
      match splitAtChar sep cs with
      | [] => [[c]]
      | part :: parts => (c :: part) :: parts

/-- The characters of the digits in the order of their values, hexadecimal letters in either case (log entry 15). -/
def digitRows : List (List Char) :=
  ["0123456789ABCDEF".toList, "0123456789abcdef".toList]

/-- The value of a digit of a base: its place in a row cut to the base. -/
def digitValue (base : Nat) (c : Char) : Option Nat :=
  digitRows.findSome? fun row => (row.take base).findIdx? (· == c)

/-- The digits of a numeral in a base; an underscore stands between two digits (R99). -/
def parseDigits (base : Nat) : List Char → Nat → Bool → Option Nat
  | [], value, afterDigit => if afterDigit then some value else none
  | c :: cs, value, afterDigit =>
    if c == '_' then (if afterDigit then parseDigits base cs value false else none)
    else
      match digitValue base c with
      | some d => parseDigits base cs (value * base + d) true
      | none => none

/-- An unsigned numeral, decimal or `0x` hexadecimal, of at most 64 bits (R99). -/
def parseNumeral (cs : List Char) : Option Word :=
  let value :=
    match cs with
    | '0' :: 'x' :: rest => parseDigits 16 rest 0 false
    | cs => parseDigits 10 cs 0 false
  match value with
  | some v => if v < 2 ^ 64 then some (BitVec.ofNat 64 v) else none
  | none => none

/-- The flag names of R99. -/
def flagByName (cs : List Char) : Option Word :=
  if cs == ['P'] then some 0x01
  else if cs == ['W'] then some 0x02
  else if cs == ['U'] then some 0x04
  else if cs == ['W', 'T'] then some 0x08
  else if cs == ['C', 'D'] then some 0x10
  else none

/-- Flag names joined by `|` (R99). -/
def parseFlagNames (cs : List Char) : Option Word :=
  ((splitAtChar '|' cs).mapM fun part => flagByName (trimBlanks part)).map fun vs => vs.foldl (· ||| ·) 0

/-- The third operand of `VMM_MAP`: a numeral or flag names (R99). -/
def parseMapFlags (cs : List Char) : Option Word :=
  match parseNumeral cs with
  | some v => some v
  | none => parseFlagNames cs

/-- The operands of a command, in the order `ARG0`, `ARG1`, `ARG2`, as many as its format reads (R92, R99). -/
def parseOperands (i : Instr) (parts : List (List Char)) : Option Command :=
  let args :=
    match i, parts with
    | .vmmMap, [v, p, f] =>
      match parseNumeral v, parseNumeral p, parseMapFlags f with
      | some v, some p, some f => some [v, p, f]
      | _, _, _ => none
    | _, parts => parts.mapM parseNumeral
  match args with
  | some args => if args.length = i.format.arity then some { instr := i, args } else none
  | none => none

/-- The pseudo-commands of R100. Every operand is a numeral, the flags of `VMM_IDMAP` too: R99 gives flag names to `VMM_MAP` and says
nothing of pseudo-commands. DESIGN CHOICE (log entry 16). -/
def parsePseudo (name : List Char) (parts : List (List Char)) : Option Pseudo :=
  match parts.mapM parseNumeral with
  | none => none
  | some args =>
    if name == "TLB_FLUSH".toList ∧ args = [] then some .tlbFlush
    else if name == "VMM_ACTIVATE".toList ∧ args = [] then some .vmmActivate
    else if name == "VMM_IDMAP".toList then
      match args with
      | [lo, hi, flags] => some (.vmmIdmap lo hi flags)
      | _ => none
    else if name == "BOOT".toList then
      match args with
      | [bytes] => some (.boot bytes)
      | _ => none
    else none

/-- One line of text: a comment from `;` on, the mnemonic, then the operands separated by commas (R99). A line that holds no command,
empty or a comment only, is accepted and stands for nothing: R99 is silent on it. DESIGN CHOICE (log entry 15). -/
def parseLine (line : List Char) : Option Line :=
  let body := trimBlanks (line.takeWhile (· != ';'))
  if body.isEmpty then some .blank
  else
    let name := body.takeWhile fun c => !isBlank c
    let rest := trimBlanks (body.drop name.length)
    let parts := if rest.isEmpty then [] else (splitAtChar ',' rest).map trimBlanks
    match Instr.all.find? fun i => (mnemonicOf i).toList == name with
    | some i => (parseOperands i parts).map .command
    | none => (parsePseudo name parts).map .pseudo

/-- The register writes a line of a real command assembles to (R99, R103); a pseudo-command's depend on the state (R100). -/
def assembleLine (line : List Char) : Option (List HostAccess) :=
  match parseLine line with
  | some .blank => some []
  | some (.command c) => some c.encode
  | some (.pseudo _) => none
  | none => none

end Sys2Proof.Machine
end

