-- ==== Sys2Proof/Machine/Step.lean ====
section
/-! DEFINITION. One step of the machine: the host's next access, and with a `CMD` write the whole command (R91, R264). -/

namespace Sys2Proof.Machine

/-- One step: the next access of the host. -/
def step (s : State) : Host.Outcome State Fault Refusal :=
  nextAccess s

/-- The state whose very next step runs the command word `w`: the host writes it to `CMD` (R90 step 2), before what it had in mind. -/
def State.withFetchWord (s : State) (nbits w : Nat) : State :=
  s.fetching nbits w

end Sys2Proof.Machine
end

