-- ==== Sys2Proof/Safety.lean ====
section
/-! DEFINITION. What counts as a legal state and a safe step: the invariants the spec states of the PFA (R29), of the registers (R24,
R25, R30, R31) and the translation cache (R32, R181), of the tree at `ROOT` (R39), and of the cache against memory (R188). -/

namespace Sys2Proof.Machine

/-- The invariants of the PFA state once `FLAGS.PMM_READY = 1` (R29, points 1 to 3), and that no page beyond the bitmap is free (R28). -/
structure State.FrameInv (s : State) : Prop where
  /-- `128 <= TOTAL_BLOCKS` (R29.1). -/
  blocksLow : 128 ≤ s.totalBlocks.toNat
  /-- `TOTAL_BLOCKS <= MAX_BLOCKS` (R29.1). -/
  blocksHigh : s.totalBlocks.toNat ≤ s.cfg.maxBlocks
  /-- `TOTAL_BLOCKS` counts blocks of a 64-bit size (R120), so every page of the range has a 64-bit address. -/
  blocksFit : s.totalBlocks.toNat < 2 ^ 47
  /-- The reserved region is used (R29.2). -/
  reserved : ∀ i < reservedPages, s.bitmap.used i = true
  /-- `USED_PAGES` is exact (R29.3). -/
  counted : s.usedPages.toNat = s.bitmap.countUsed 0 s.totalPages
  /-- No page beyond the bitmap is free. -/
  beyond : ∀ i, s.cfg.maxBlocks * bitsPerWord ≤ i → s.bitmap.used i = true

/-- The state invariant that every step keeps. -/
structure State.Inv (s : State) : Prop where
  /-- Memory is in its canonical form. -/
  memCanonical : s.mem.wf
  /-- At most one pair per page, in one order (R32). -/
  tlbSorted : (s.tlb.map Prod.fst).Pairwise fun a b => a.toNat < b.toNat
  /-- At most `TLB_ENTRIES` pairs (R32). -/
  tlbBound : s.tlb.length ≤ s.cfg.tlbEntries
  /-- Only present leaf entries are cached (R181). -/
  tlbPresent : ∀ p ∈ s.tlb, present p.2 = true
  /-- `ROOT` is a multiple of 4096 (R30). -/
  rootAligned : s.root.toNat % pageSize = 0
  /-- `ROOT`, once written, is at least `RESERVED_BYTES` (R30). -/
  rootAboveReserved : s.root ≠ 0 → reservedBytes ≤ s.root.toNat
  /-- `ACTIVE_ROOT` is a multiple of 4096 (R31). -/
  activeRootAligned : s.activeRoot.toNat % pageSize = 0
  /-- Bits 31 to 4 of `FLAGS` read as 0 (R25). -/
  flagsReserved : s.flags.toNat < 16
  /-- `STATUS` holds one of the seven codes (R24, R220). -/
  statusLegal : s.status.toNat ≤ 6
  /-- `RES1` carries flag bits only (R22, R186). -/
  res1Low : s.res1.toNat < 4096
  /-- `VMM_INIT` succeeds only after `PMM_INIT` (R151). -/
  vmmAfterPmm : s.flag .vmmReady = true → s.flag .pmmReady = true
  /-- Before `PMM_INIT` the PFA is as reset left it (R37, R251). -/
  beforePmm : s.flag .pmmReady = false → s.totalBlocks = 0 ∧ s.usedPages = 0 ∧ s.bitmap = Bitmap.allUsed
  /-- After it, R29 holds. -/
  frames : s.flag .pmmReady = true → s.FrameInv

/-! ## The tree (R39) -/

/-- The table reached from `t` down the listed levels on the path of `virt`, as memory holds it: what the loop of R73 reaches when
every access finds memory. -/
def tableBelow (m : Memory) (virt : Word) : List Level → Word → Option Word
  | [], t => some t
  | l :: ls, t =>
    if present (m.readWord (entryAddr t (vidx virt l))) then tableBelow m virt ls (frame (m.readWord (entryAddr t (vidx virt l))))
    else none

/-- The table at depth `n` (0: the root, 3: the leaf table) on the path of `virt`. -/
def tableAt (m : Memory) (root virt : Word) (n : Nat) : Option Word :=
  tableBelow m virt (nonLeafLevels.take n) root

/-- The level whose entry a walk reads at depth `n`: 3, 2, 1, then the leaf (R73). -/
def levelAt : Nat → Level
  | 0 => .pml4
  | 1 => .pdpt
  | 2 => .pd
  | _ => .pt

/-- The address of the entry a walk of `virt` reads at depth `n`, if it gets there (R73). -/
def entryOnPath (m : Memory) (root virt : Word) (n : Nat) : Option Word :=
  (tableAt m root virt n).map fun t => entryAddr t (vidx virt (levelAt n))

/-- The present leaf entry of `virt` in the tree at `root`: what `walk(root, virt)` finds (R73). -/
def leafEntry (m : Memory) (root virt : Word) : Option Word :=
  match tableAt m root virt 3 with
  | none => none
  | some t =>
    if present (m.readWord (entryAddr t (vidx virt .pt))) then some (m.readWord (entryAddr t (vidx virt .pt))) else none

/-- R39, points 1 and 2, for the tree at `ROOT`, and that it is a tree: no table is reached by two paths. -/
structure State.TreeInv (s : State) : Prop where
  /-- "Every table reachable from `ROOT` occupies one 4096-byte frame obtained from the PFA, whose bitmap bit is 1" (R39.1). -/
  backed : ∀ virt n t, n ≤ 3 → tableAt s.mem s.root virt n = some t →
    t.toNat % pageSize = 0 ∧ reservedPages ≤ pageIndex t ∧ pageIndex t < s.totalPages ∧ s.bitmap.used (pageIndex t) = true
  /-- One table, one place in the tree. -/
  unshared : ∀ v w n k t, n ≤ 3 → k ≤ 3 → tableAt s.mem s.root v n = some t → tableAt s.mem s.root w k = some t →
    n = k ∧ ∀ l ∈ nonLeafLevels.take n, vidx v l = vidx w l
  /-- "Every non-leaf entry reachable from `ROOT` is either 0 or `frame | 0x03`" (R39.2). -/
  entries : ∀ virt n t idx, n < 3 → tableAt s.mem s.root virt n = some t →
    s.mem.readWord (entryAddr t idx) = 0 ∨
      (present (s.mem.readWord (entryAddr t idx)) = true ∧
        s.mem.readWord (entryAddr t idx) = frame (s.mem.readWord (entryAddr t idx)) ||| tableFlags)

/-- What the host owes `PMM_INIT` (R7, R254): memory exists at every aligned address of the range the allocator hands out. -/
def State.RangeBacked (s : State) : Prop :=
  ∀ a : Word, a.toNat % 8 = 0 → a.toNat < s.totalPages * pageSize → s.memValid a = true

/-- Memory exists at each entry a walk of `virt` from `root` reads (R64). -/
def State.PathBacked (s : State) (root virt : Word) : Prop :=
  ∀ n a, n ≤ 3 → entryOnPath s.mem root virt n = some a → s.memValid a = true

/-- A walk of `virt` from `root` meets its first address without memory at depth `n` (R64, R225). -/
structure State.BusErrorAt (s : State) (root virt : Word) (n : Nat) : Prop where
  depth : n ≤ 3
  absent : ∃ a, entryOnPath s.mem root virt n = some a ∧ s.memValid a = false
  earlier : ∀ k a, k < n → entryOnPath s.mem root virt k = some a → s.memValid a = true

/-- Memory exists at each of the 512 entries a table in page `p` has (R64, R72). -/
def State.FrameBacked (s : State) (p : Nat) : Prop :=
  ∀ idx, s.memValid (entryAddr (pageAddr p) idx) = true

/-- `b` is none of the eight bytes from `a` on. -/
def OutsideWord (a b : Word) : Prop :=
  8 ≤ (b - a).toNat

/-- The free pages of the scanned range, lowest first (R121, R122). -/
def State.freeList (s : State) : List Nat :=
  (List.range' 0 s.totalPages).filter fun i => !s.bitmap.used i

/-- How many pages of the scanned range are free. -/
def State.freePages (s : State) : Nat :=
  s.totalPages - s.bitmap.countUsed 0 s.totalPages

/-- The pages a command frees if it ends `OK` (R128, R129). -/
def State.freeing (s : State) (i : Instr) (p : Nat) : Prop :=
  match i with
  | .pmmFree => p = pageIndex s.arg0
  | .pmmFreen => pageIndex s.arg0 ≤ p ∧ p < pageIndex s.arg0 + s.arg1.toNat
  | .pmmInit | .pmmAlloc | .pmmAllocn | .pmmTotal | .pmmUsed | .pmmFreemem | .vmmInit | .vmmMap | .vmmUnmap | .vmmGetpa | .vmmSwitch
  | .tlbXlate | .tlbInvlpg => False

/-- What the host owes the tree (R39, R258): the command frees no frame that holds a table of the tree at `ROOT`. -/
def State.SparesTables (s : State) (i : Instr) : Prop :=
  ∀ virt n t, n ≤ 3 → tableAt s.mem s.root virt n = some t → ¬ s.freeing i (pageIndex t)

/-- The same of each command of a program that ends `OK`, in the state it runs in. -/
def sparesTables : List Command → State → Prop
  | [], _ => True
  | c :: cs, s =>
    ∀ t, transact c s = .next t → (t.status = Status.ok.code → (s.writeArgs c.args).SparesTables c.instr) ∧ sparesTables cs t

/-! ## The translation cache (R188) -/

/-- The first address of a virtual page. -/
def pageBase (n : Vpn) : Word :=
  n.setWidth 64 <<< 12

/-- "The cache never disagrees with memory": every cached pair is what a walk from `ACTIVE_ROOT` finds (R188). -/
def State.Coherent (s : State) : Prop :=
  ∀ p ∈ s.tlb, leafEntry s.mem s.activeRoot (pageBase p.1) = some p.2

/-- No table of the tree at `ACTIVE_ROOT` lies in a frame the allocator could hand out for another table. -/
def State.ActiveGuarded (s : State) : Prop :=
  ∀ virt n t, n ≤ 3 → tableAt s.mem s.activeRoot virt n = some t →
    s.bitmap.used (pageIndex t) = true ∨ s.totalPages ≤ pageIndex t

/-- "`ACTIVE_ROOT = ROOT` or the two trees share no table" (R188). -/
def State.SameOrApart (s : State) : Prop :=
  s.activeRoot = s.root ∨
    ∀ v w n k t, n ≤ 3 → k ≤ 3 → tableAt s.mem s.root v n = some t → tableAt s.mem s.activeRoot w k ≠ some t

/-! ## The error table (R224) -/

/-- When a command answers `ERR_STATE` (R224). -/
def stateError (s : State) : Instr → Prop
  | .pmmInit => s.flag .pmmReady = true
  | .pmmAlloc | .pmmAllocn | .pmmFree | .pmmFreen => s.flag .pmmReady = false
  | .vmmInit => s.flag .vmmReady = true ∨ s.flag .pmmReady = false
  | .vmmMap | .vmmUnmap | .vmmGetpa => s.flag .vmmReady = false
  | .tlbXlate => s.flag .activeValid = false
  | .pmmTotal | .pmmUsed | .pmmFreemem | .vmmSwitch | .tlbInvlpg => False

/-- When the operand check of a command fails (R224, `ERR_ARG`). -/
def argError (s : State) : Instr → Prop
  | .pmmInit => s.arg0.toNat < 0x1000000
  | .pmmAllocn => s.arg0 = 0#64
  | .vmmSwitch => s.arg0.extractLsb' 0 12 ≠ 0#12
  | .pmmAlloc | .pmmFree | .pmmFreen | .pmmTotal | .pmmUsed | .pmmFreemem | .vmmInit | .vmmMap | .vmmUnmap | .vmmGetpa
  | .tlbXlate | .tlbInvlpg => False

/-- When the page-range check of a command fails (R224, `ERR_RANGE`). -/
def rangeError (s : State) : Instr → Prop
  | .pmmFree => s.arg0.toNat / 4096 < 4096 ∨ s.totalBlocks.toNat * 32 ≤ s.arg0.toNat / 4096
  | .pmmFreen =>
    0 < s.arg1.toNat ∧ (s.arg0.toNat / 4096 < 4096 ∨ s.totalBlocks.toNat * 32 < s.arg0.toNat / 4096 + s.arg1.toNat)
  | .pmmInit | .pmmAlloc | .pmmAllocn | .pmmTotal | .pmmUsed | .pmmFreemem | .vmmInit | .vmmMap | .vmmUnmap | .vmmGetpa
  | .vmmSwitch | .tlbXlate | .tlbInvlpg => False

/-- The commands that reach memory, and so may answer `ERR_BUS` (R224). -/
def reachesMemory : Instr → Bool
  | .vmmInit | .vmmMap | .vmmUnmap | .vmmGetpa | .tlbXlate => true
  | .pmmInit | .pmmAlloc | .pmmAllocn | .pmmFree | .pmmFreen | .pmmTotal | .pmmUsed | .pmmFreemem | .vmmSwitch | .tlbInvlpg => false

/-! ## Safe steps -/

/-- A step is safe when it is no fault. -/
def Safe (r : Result) : Prop :=
  ∀ f, r ≠ .fault f

end Sys2Proof.Machine
end

