-- ==== Sys2Proof/Certificates/Slice0/Obligations.lean ====
section
/-! DEFINITION. The statements for the provers. Each docstring names the rule of spec/ it formalises. Numerals are written out: status
0 `OK`, 1 `FAIL`, 2 `ERR_CMD`, 3 `ERR_STATE`, 4 `ERR_ARG`, 5 `ERR_RANGE`, 6 `ERR_BUS`; flags 1 `PMM_READY`, 2 `VMM_READY`,
4 `ACTIVE_VALID`, 8 `ERR`. A statement that gives a whole next state as `{ s with … }` says that every field it does not name keeps its
value, memory included. -/

section Slice0Obligations

open Sys2Proof Sys2Proof.Machine

/-! ## The command word and the program -/

/-- R93: the opcode map, word by word, and two words that are no command. -/
def Obligations.WordsOfTheOpcodeMap : Prop :=
  decode 0x00000010#32 = .ok .pmmInit ∧ decode 0x00000011#32 = .ok .pmmAlloc ∧ decode 0x00000012#32 = .ok .pmmAllocn ∧
  decode 0x00000013#32 = .ok .pmmFree ∧ decode 0x00000014#32 = .ok .pmmFreen ∧ decode 0x00000015#32 = .ok .pmmTotal ∧
  decode 0x00000016#32 = .ok .pmmUsed ∧ decode 0x00000017#32 = .ok .pmmFreemem ∧ decode 0x00000020#32 = .ok .vmmInit ∧
  decode 0x00000021#32 = .ok .vmmMap ∧ decode 0x00000022#32 = .ok .vmmUnmap ∧ decode 0x00000023#32 = .ok .vmmGetpa ∧
  decode 0x00000024#32 = .ok .vmmSwitch ∧ decode 0x00000030#32 = .ok .tlbXlate ∧ decode 0x00000031#32 = .ok .tlbInvlpg ∧
  decode 0x00000000#32 = .error (.unknownOpcode 0x00#8) ∧ decode 0x00000111#32 = .error .nonzeroReserved

/-- R97: "every one of the 2^32 command words is either one of the fifteen commands or illegal under rule R96". -/
def Obligations.EveryWordIsOneCommandOrIllegal : Prop :=
  (∀ (w : Word32) (i : Instr), decode w = .ok i ↔ w = i.opcode.setWidth 32) ∧
  ∀ w : Word32, (∃ e, decode w = .error e) ↔ (w.extractLsb' 8 24 ≠ 0#24 ∨ ∀ i : Instr, w.extractLsb' 0 8 ≠ i.opcode)

/-- R96: an illegal command word written to `CMD` ends with `ERR_CMD` and changes nothing else but `FLAGS.ERR`. -/
def Obligations.IllegalWordReportsAndChangesNothingElse : Prop :=
  ∀ (s : State) (v : Word),
    ((v.setWidth 32).extractLsb' 8 24 ≠ 0#24 ∨
      (v.setWidth 32).extractLsb' 0 8 ∉ [0x10#8, 0x11#8, 0x12#8, 0x13#8, 0x14#8, 0x15#8, 0x16#8, 0x17#8,
        0x20#8, 0x21#8, 0x22#8, 0x23#8, 0x24#8, 0x30#8, 0x31#8]) →
    hostAccess (.regWrite 0x00 .w32 v) s = .next { s with status := 2#32, res0 := 0#64, res1 := 0#64, flags := s.flags ||| 8#32 }

/-- R103: a program and its encoding as host register writes determine each other; a list of accesses that is no program's encoding
reads back as none. -/
def Obligations.ProgramEncodingReadsBack : Prop :=
  ∀ (accesses : List HostAccess) (p : List Command),
    decodeProgram accesses = some p ↔ (∀ c ∈ p, c.wf = true) ∧ accesses = encodeProgram p

/-- R91: a step that finds a `CMD` write of a command word next in the host's script is that command, whole; and so is the step of the
state that `withFetchWord` makes. That the host is a script in the state is the model's choice (log entry 1). -/
def Obligations.StepRunsTheDecodedCommand : Prop :=
  (∀ (s : State) (i : Instr) (v : Word) (rest : List HostAccess),
    s.hostScript = .regWrite 0x00 .w32 v :: rest → decode (v.setWidth 32) = .ok i →
      step s = exec i { s with hostScript := rest }) ∧
  ∀ (s : State) (i : Instr), step (s.withFetchWord 32 (encode i).toNat) = exec i s

/-- R103, R264: running the encoding of a program, access by access, is running its commands in order. Rests on the host's script
(log entry 1). -/
def Obligations.RunOfAnEncodedProgramIsItsCommands : Prop :=
  ∀ (p : List Command) (rest : List HostAccess) (s : State), (∀ c ∈ p, c.wf = true) →
    core.run (encodeProgram p).length { s with hostScript := encodeProgram p ++ rest } = runProgram p { s with hostScript := rest }

/-- R94: a command reads the `ARG` registers of its format and no other; nor does it read what the model keeps of the host. -/
def Obligations.CommandsReadOnlyTheirOperands : Prop :=
  ∀ (i : Instr) (s t : State) (a0 a1 a2 d : Word) (script : List HostAccess),
    (1 ≤ i.format.arity → a0 = s.arg0) → (2 ≤ i.format.arity → a1 = s.arg1) → (3 ≤ i.format.arity → a2 = s.arg2) →
    exec i s = .next t →
      exec i { s with arg0 := a0, arg1 := a1, arg2 := a2, hostScript := script, hostData := d } =
        .next { t with arg0 := a0, arg1 := a1, arg2 := a2, hostScript := script, hostData := d }

/-! ## The register file and reset -/

/-- R36, R35: what a host write of each register does, at its offset and width; read-only registers ignore it. -/
def Obligations.RegisterWrites : Prop :=
  ∀ (s : State) (v : Word),
    hostAccess (.regWrite 0x08 .w64 v) s = .next { s with arg0 := v } ∧
    hostAccess (.regWrite 0x10 .w64 v) s = .next { s with arg1 := v } ∧
    hostAccess (.regWrite 0x18 .w64 v) s = .next { s with arg2 := v } ∧
    hostAccess (.regWrite 0x20 .w32 v) s = .next s ∧ hostAccess (.regWrite 0x28 .w64 v) s = .next s ∧
    hostAccess (.regWrite 0x30 .w64 v) s = .next s ∧ hostAccess (.regWrite 0x38 .w32 v) s = .next s ∧
    hostAccess (.regWrite 0x40 .w64 v) s = .next s ∧ hostAccess (.regWrite 0x48 .w64 v) s = .next s ∧
    hostAccess (.regWrite 0x50 .w64 v) s = .next s ∧ hostAccess (.regWrite 0x58 .w64 v) s = .next s

/-- R36, R35: what a host read of each register returns; it changes nothing of the block. `hostData` is the model's own (log
entry 2). -/
def Obligations.RegisterReads : Prop :=
  ∀ s : State,
    hostAccess (.regRead 0x00 .w32) s = .next { s with hostData := 0#64 } ∧
    hostAccess (.regRead 0x08 .w64) s = .next { s with hostData := s.arg0 } ∧
    hostAccess (.regRead 0x10 .w64) s = .next { s with hostData := s.arg1 } ∧
    hostAccess (.regRead 0x18 .w64) s = .next { s with hostData := s.arg2 } ∧
    hostAccess (.regRead 0x20 .w32) s = .next { s with hostData := s.status.setWidth 64 } ∧
    hostAccess (.regRead 0x28 .w64) s = .next { s with hostData := s.res0 } ∧
    hostAccess (.regRead 0x30 .w64) s = .next { s with hostData := s.res1 } ∧
    hostAccess (.regRead 0x38 .w32) s = .next { s with hostData := s.flags.setWidth 64 } ∧
    hostAccess (.regRead 0x40 .w64) s = .next { s with hostData := s.root } ∧
    hostAccess (.regRead 0x48 .w64) s = .next { s with hostData := s.activeRoot } ∧
    hostAccess (.regRead 0x50 .w64) s = .next { s with hostData := s.totalBlocks } ∧
    hostAccess (.regRead 0x58 .w64) s = .next { s with hostData := s.usedPages }

/-- R36: "an access of any other width, or at an offset not in the table, is refused by the model (it gives it no meaning)". -/
def Obligations.OddRegisterAccessesAreRefused : Prop :=
  ∀ (s : State) (offset : Nat) (width : Width) (v : Word),
    ¬ (width = .w32 ∧ offset ∈ [0x00, 0x20, 0x38]) →
    ¬ (width = .w64 ∧ offset ∈ [0x08, 0x10, 0x18, 0x28, 0x30, 0x40, 0x48, 0x50, 0x58]) →
    ∃ r, hostAccess (.regWrite offset width v) s = .refused r ∧ hostAccess (.regRead offset width) s = .refused r

/-- R37, R250: the values after reset, in `State.reset` and in the state a reset event leaves, which keeps physical memory. That it keeps
the parameters is the model's choice (log entry 10). -/
def Obligations.ResetValues : Prop :=
  (∀ s : State, s = State.reset ∨ (∃ u : State, hostAccess .reset u = .next s) →
    s.arg0 = 0#64 ∧ s.arg1 = 0#64 ∧ s.arg2 = 0#64 ∧ s.res0 = 0#64 ∧ s.res1 = 0#64 ∧ s.status = 0#32 ∧ s.flags = 0#32 ∧
    s.totalBlocks = 0#64 ∧ s.usedPages = 0#64 ∧ (∀ w, s.bitmap.word w = 0xFFFFFFFF#32) ∧ s.root = 0#64 ∧ s.activeRoot = 0#64 ∧
    s.tlb = []) ∧
  ∀ u : State, ∃ s, hostAccess .reset u = .next s ∧ s.mem = u.mem ∧ s.cfg = u.cfg

/-- R251: straight after reset, whatever the operands: the queries and `TLB_INVLPG` answer `OK`, `VMM_SWITCH` of an aligned table and
`PMM_INIT` of enough memory work, every other command answers `ERR_STATE` and changes nothing but `FLAGS.ERR`. -/
def Obligations.StraightAfterReset : Prop :=
  ∀ (u r s : State) (a0 a1 a2 : Word), hostAccess .reset u = .next r → s = { r with arg0 := a0, arg1 := a1, arg2 := a2 } →
    (∀ i ∈ [Instr.pmmTotal, .pmmUsed, .pmmFreemem, .tlbInvlpg], exec i s = .next s) ∧
    (∀ i ∈ [Instr.pmmAlloc, .pmmAllocn, .pmmFree, .pmmFreen, .vmmInit, .vmmMap, .vmmUnmap, .vmmGetpa, .tlbXlate],
      exec i s = .next { s with status := 3#32, flags := 8#32 }) ∧
    (a0.extractLsb' 0 12 = 0#12 → exec .vmmSwitch s = .next { s with activeRoot := a0, flags := 4#32 }) ∧
    (0x1000000 ≤ a0.toNat → ∃ t, exec .pmmInit s = .next t ∧ t.status = 0#32 ∧ t.flags = 1#32)

/-! ## Every command: its end, its errors, what it may write -/

/-- R221, R220, R95, R25: the end of every command: one of the seven codes; with an error code both results are 0 and `FLAGS.ERR`
is 1, without one `FLAGS.ERR` is as it was; no command clears a bit of `FLAGS` or sets a reserved one. -/
def Obligations.EveryCommandEndsInDone : Prop :=
  ∀ (i : Instr) (s t : State), exec i s = .next t →
    t.status.toNat ≤ 6 ∧
    (2 ≤ t.status.toNat → t.res0 = 0#64 ∧ t.res1 = 0#64 ∧ t.flags.getLsbD 3 = true) ∧
    (t.status.toNat < 2 → t.flags.getLsbD 3 = s.flags.getLsbD 3) ∧
    (t.status = 1#32 → t.res0 = 0#64 ∧ t.res1 = 0#64) ∧
    (i ≠ .tlbXlate → t.res1 = 0#64) ∧
    (∀ k, s.flags.getLsbD k = true → t.flags.getLsbD k = true) ∧
    ∀ k, 4 ≤ k → t.flags.getLsbD k = s.flags.getLsbD k

/-- R220, R228: "wholly not done": a command that ends with `ERR_STATE`, `ERR_ARG` or `ERR_RANGE` changes nothing but `FLAGS.ERR`, and
so does one that ends with `FAIL`, but for `VMM_MAP` and `VMM_INIT`, and not even that bit. -/
def Obligations.RefusedAndFailedCommandsAreWhollyNotDone : Prop :=
  ∀ (i : Instr) (s t : State), s.Inv → exec i s = .next t →
    (t.status = 3#32 ∨ t.status = 4#32 ∨ t.status = 5#32 →
      t = { s with status := t.status, res0 := 0#64, res1 := 0#64, flags := s.flags ||| 8#32 }) ∧
    (t.status = 1#32 → i ≠ .vmmMap → i ≠ .vmmInit → t = { s with status := 1#32, res0 := 0#64, res1 := 0#64 })

/-- R222, R224: which error each command reports, in the order of the checks: `ERR_STATE` first, then `ERR_ARG`, then `ERR_RANGE`;
`ERR_CMD` by none; `ERR_BUS` only by a command that reaches memory. -/
def Obligations.ErrorsAreReportedInTheOrderOfTheChecks : Prop :=
  ∀ (i : Instr) (s t : State), exec i s = .next t →
    (t.status = 3#32 ↔ stateError s i) ∧
    (t.status = 4#32 ↔ ¬ stateError s i ∧ argError s i) ∧
    (t.status = 5#32 ↔ ¬ stateError s i ∧ ¬ argError s i ∧ rangeError s i) ∧
    t.status ≠ 2#32 ∧
    (t.status = 6#32 → reachesMemory i = true)

/-- R36 (last column), R21, R26, R28, R30 to R32, R77: which command may write which element; every other command leaves it. The
`ARG` registers, the parameters and what the model keeps of the host are written by none. -/
def Obligations.OnlyTheNamedCommandsWriteEachElement : Prop :=
  ∀ (i : Instr) (s t : State), exec i s = .next t →
    (t.arg0 = s.arg0 ∧ t.arg1 = s.arg1 ∧ t.arg2 = s.arg2 ∧ t.cfg = s.cfg ∧ t.hostScript = s.hostScript ∧ t.hostData = s.hostData) ∧
    (i ≠ .pmmInit → t.totalBlocks = s.totalBlocks ∧ t.flags.getLsbD 0 = s.flags.getLsbD 0) ∧
    (i ∉ [Instr.pmmInit, .pmmAlloc, .pmmAllocn, .pmmFree, .pmmFreen, .vmmInit, .vmmMap] →
      t.bitmap = s.bitmap ∧ t.usedPages = s.usedPages) ∧
    (i ≠ .vmmInit → t.root = s.root ∧ t.flags.getLsbD 1 = s.flags.getLsbD 1) ∧
    (i ≠ .vmmSwitch → t.activeRoot = s.activeRoot ∧ t.flags.getLsbD 2 = s.flags.getLsbD 2) ∧
    (i ∉ [Instr.vmmInit, .vmmMap, .vmmUnmap, .vmmSwitch, .tlbXlate, .tlbInvlpg] → t.tlb = s.tlb) ∧
    (i ∉ [Instr.vmmInit, .vmmMap, .vmmUnmap] → t.mem = s.mem ∧ ∀ a, t.mem.readByte a = s.mem.readByte a)

/-- R226: "No command and no condition makes the block raise an exception, trap, abort or halt": in every state of the invariant every
command ends in a next state. -/
def Obligations.EveryCommandCompletes : Prop :=
  ∀ (i : Instr) (s : State), s.Inv → ∃ t, exec i s = .next t

/-! ## The frame allocator -/

/-- R28: page `i` is bit `i % 32` of word `i / 32`, 1 for used. -/
def Obligations.BitmapWordsHoldThePages : Prop :=
  ∀ (b : Bitmap) (i : Nat), (b.word (i / 32)).getLsbD (i % 32) = b.used i

/-- R120: `PMM_INIT`, whole: its effect, its two checks, and nothing else changed. -/
def Obligations.PmmInit : Prop :=
  ∀ s : State,
    (s.flag .pmmReady = true →
      exec .pmmInit s = .next { s with status := 3#32, res0 := 0#64, res1 := 0#64, flags := s.flags ||| 8#32 }) ∧
    (s.flag .pmmReady = false → s.arg0.toNat < 0x1000000 →
      exec .pmmInit s = .next { s with status := 4#32, res0 := 0#64, res1 := 0#64, flags := s.flags ||| 8#32 }) ∧
    (s.flag .pmmReady = false → 0x1000000 ≤ s.arg0.toNat →
      ∃ t, exec .pmmInit s = .next t ∧
        t = { s with status := 0#32, res0 := 0#64, res1 := 0#64, flags := s.flags ||| 1#32, totalBlocks := t.totalBlocks,
                     bitmap := t.bitmap, usedPages := 4096#64 } ∧
        t.totalBlocks.toNat = min (s.arg0.toNat / 131072) s.cfg.maxBlocks ∧
        ∀ i, t.bitmap.used i = false ↔ 4096 ≤ i ∧ i < min (s.arg0.toNat / 4096) (s.cfg.maxBlocks * 32))

/-- R123, R122: `PMM_ALLOC`, whole: `ERR_STATE` before `PMM_INIT`; then the lowest free page of the scanned range is taken, or `FAIL` and
nothing changes. -/
def Obligations.PmmAllocTakesTheLowestFreePage : Prop :=
  (∀ s : State, s.flag .pmmReady = false →
    exec .pmmAlloc s = .next { s with status := 3#32, res0 := 0#64, res1 := 0#64, flags := s.flags ||| 8#32 }) ∧
  ∀ s : State, s.Inv → s.flag .pmmReady = true →
    (∀ i, i < s.totalBlocks.toNat * 32 → s.bitmap.used i = false → (∀ j < i, s.bitmap.used j = true) →
      ∃ t, exec .pmmAlloc s = .next t ∧
        t = { s with status := 0#32, res0 := BitVec.ofNat 64 (i * 4096), res1 := 0#64, bitmap := t.bitmap,
                     usedPages := s.usedPages + 1#64 } ∧
        ∀ j, t.bitmap.used j = (s.bitmap.used j || decide (j = i))) ∧
    ((∀ i < s.totalBlocks.toNat * 32, s.bitmap.used i = true) →
      exec .pmmAlloc s = .next { s with status := 1#32, res0 := 0#64, res1 := 0#64 })

/-- R125, R124: `PMM_ALLOCN`, whole: `ERR_STATE` before `PMM_INIT`; then `ERR_ARG` for a count of 0; then the lowest run of `ARG0` free
pages of the scanned range is taken, or `FAIL` and nothing changes. -/
def Obligations.PmmAllocnTakesTheLowestRun : Prop :=
  (∀ s : State, s.flag .pmmReady = false →
    exec .pmmAllocn s = .next { s with status := 3#32, res0 := 0#64, res1 := 0#64, flags := s.flags ||| 8#32 }) ∧
  (∀ s : State, s.flag .pmmReady = true → s.arg0 = 0#64 →
    exec .pmmAllocn s = .next { s with status := 4#32, res0 := 0#64, res1 := 0#64, flags := s.flags ||| 8#32 }) ∧
  ∀ s : State, s.flag .pmmReady = true → s.arg0 ≠ 0#64 →
    (∀ f, f + s.arg0.toNat ≤ s.totalBlocks.toNat * 32 →
      (∀ j, f ≤ j → j < f + s.arg0.toNat → s.bitmap.used j = false) →
      (∀ g < f, ∃ j, g ≤ j ∧ j < g + s.arg0.toNat ∧ s.bitmap.used j = true) →
      ∃ t, exec .pmmAllocn s = .next t ∧
        t = { s with status := 0#32, res0 := BitVec.ofNat 64 (f * 4096), res1 := 0#64, bitmap := t.bitmap,
                     usedPages := s.usedPages + s.arg0 } ∧
        ∀ j, t.bitmap.used j = (s.bitmap.used j || (decide (f ≤ j) && decide (j < f + s.arg0.toNat)))) ∧
    ((∀ f, f + s.arg0.toNat ≤ s.totalBlocks.toNat * 32 → ∃ j, f ≤ j ∧ j < f + s.arg0.toNat ∧ s.bitmap.used j = true) →
      exec .pmmAllocn s = .next { s with status := 1#32, res0 := 0#64, res1 := 0#64 })

/-- R126: a freed page comes back when nothing below it is free; a freed run comes back when no run as long starts below it. -/
def Obligations.FreedFramesComeBack : Prop :=
  (∀ (s t : State) (a : Word), s.Inv → s.flag .pmmReady = true → transact { instr := .pmmFree, args := [a] } s = .next t →
    t.status = 0#32 → (∀ j < a.toNat / 4096, s.bitmap.used j = true) →
      ∃ u, transact { instr := .pmmAlloc, args := [] } t = .next u ∧ u.status = 0#32 ∧
        u.res0 = BitVec.ofNat 64 (a.toNat / 4096 * 4096)) ∧
  ∀ (s t : State) (a n : Word), s.Inv → s.flag .pmmReady = true → n ≠ 0#64 →
    transact { instr := .pmmFreen, args := [a, n] } s = .next t → t.status = 0#32 →
    (∀ g < a.toNat / 4096, ∃ j, g ≤ j ∧ j < g + n.toNat ∧ t.bitmap.used j = true) →
      ∃ u, transact { instr := .pmmAllocn, args := [n] } t = .next u ∧ u.status = 0#32 ∧
        u.res0 = BitVec.ofNat 64 (a.toNat / 4096 * 4096)

/-- R128: `PMM_FREE`, whole: `ERR_STATE` before `PMM_INIT`; in range it clears the page's bit and counts it down if it was used; out of range it
answers `ERR_RANGE` and changes nothing. -/
def Obligations.PmmFree : Prop :=
  (∀ s : State, s.flag .pmmReady = false →
    exec .pmmFree s = .next { s with status := 3#32, res0 := 0#64, res1 := 0#64, flags := s.flags ||| 8#32 }) ∧
  ∀ s : State, s.flag .pmmReady = true →
    (4096 ≤ s.arg0.toNat / 4096 → s.arg0.toNat / 4096 < s.totalBlocks.toNat * 32 →
      ∃ t, exec .pmmFree s = .next t ∧
        t = { s with status := 0#32, res0 := 0#64, res1 := 0#64, bitmap := t.bitmap,
                     usedPages := if s.bitmap.used (s.arg0.toNat / 4096) then s.usedPages - 1#64 else s.usedPages } ∧
        ∀ j, t.bitmap.used j = (s.bitmap.used j && decide (j ≠ s.arg0.toNat / 4096))) ∧
    (s.arg0.toNat / 4096 < 4096 ∨ s.totalBlocks.toNat * 32 ≤ s.arg0.toNat / 4096 →
      exec .pmmFree s = .next { s with status := 5#32, res0 := 0#64, res1 := 0#64, flags := s.flags ||| 8#32 })

/-- R129: `PMM_FREEN`, whole: `ERR_STATE` before `PMM_INIT`; all or nothing on range, each used page of the run counted down once, and a count of 0
is `OK` wherever it points. -/
def Obligations.PmmFreenIsAllOrNothing : Prop :=
  (∀ s : State, s.flag .pmmReady = false →
    exec .pmmFreen s = .next { s with status := 3#32, res0 := 0#64, res1 := 0#64, flags := s.flags ||| 8#32 }) ∧
  ∀ s : State, s.flag .pmmReady = true →
    (s.arg1 = 0#64 → exec .pmmFreen s = .next { s with status := 0#32, res0 := 0#64, res1 := 0#64 }) ∧
    (s.arg1 ≠ 0#64 → 4096 ≤ s.arg0.toNat / 4096 → s.arg0.toNat / 4096 + s.arg1.toNat ≤ s.totalBlocks.toNat * 32 →
      ∃ t, exec .pmmFreen s = .next t ∧
        t = { s with status := 0#32, res0 := 0#64, res1 := 0#64, bitmap := t.bitmap,
                     usedPages := s.usedPages -
                       BitVec.ofNat 64 ((List.range' (s.arg0.toNat / 4096) s.arg1.toNat).countP s.bitmap.used) } ∧
        ∀ j, t.bitmap.used j =
          (s.bitmap.used j && !(decide (s.arg0.toNat / 4096 ≤ j) && decide (j < s.arg0.toNat / 4096 + s.arg1.toNat)))) ∧
    (s.arg1 ≠ 0#64 → s.arg0.toNat / 4096 < 4096 ∨ s.totalBlocks.toNat * 32 < s.arg0.toNat / 4096 + s.arg1.toNat →
      exec .pmmFreen s = .next { s with status := 5#32, res0 := 0#64, res1 := 0#64, flags := s.flags ||| 8#32 })

/-- R100, R129 corner case d: "`PMM_FREE a` has the same effect as `PMM_FREEN a, 1`", but for the `ARG1` the second writes. -/
def Obligations.FreeOneIsFreeARunOfOne : Prop :=
  ∀ (s t : State) (a : Word), transact { instr := .pmmFree, args := [a] } s = .next t →
    transact { instr := .pmmFreen, args := [a, 1#64] } s = .next { t with arg1 := 1#64 }

/-- R131 to R133: the three queries write their byte count to `RES0`, and write nothing but `STATUS`, `RES0`, `RES1`. -/
def Obligations.QueriesAnswerByteCounts : Prop :=
  ∀ s : State,
    exec .pmmTotal s = .next { s with status := 0#32, res0 := s.totalBlocks * 131072#64, res1 := 0#64 } ∧
    exec .pmmUsed s = .next { s with status := 0#32, res0 := s.usedPages * 4096#64, res1 := 0#64 } ∧
    exec .pmmFreemem s = .next { s with status := 0#32, res0 := (s.totalBlocks * 32#64 - s.usedPages) * 4096#64, res1 := 0#64 }

/-- R131 to R133: in every state of the invariant the three queries answer `OK` and the exact byte counts, writing nothing else; "at all
times `PMM_USED + PMM_FREEMEM = PMM_TOTAL`"; before `PMM_INIT` all three are 0. -/
def Obligations.UsedPlusFreeIsTotal : Prop :=
  ∀ s : State, s.Inv →
    ∃ t u v, exec .pmmTotal s = .next t ∧ exec .pmmUsed s = .next u ∧ exec .pmmFreemem s = .next v ∧
      t = { s with status := 0#32, res0 := t.res0, res1 := 0#64 } ∧ u = { s with status := 0#32, res0 := u.res0, res1 := 0#64 } ∧
      v = { s with status := 0#32, res0 := v.res0, res1 := 0#64 } ∧
      t.res0.toNat = s.totalBlocks.toNat * 131072 ∧ u.res0.toNat = s.usedPages.toNat * 4096 ∧
      s.usedPages.toNat ≤ s.totalBlocks.toNat * 32 ∧
      v.res0.toNat = (s.totalBlocks.toNat * 32 - s.usedPages.toNat) * 4096 ∧ u.res0.toNat + v.res0.toNat = t.res0.toNat ∧
      (s.flag .pmmReady = false → t.res0 = 0#64 ∧ u.res0 = 0#64 ∧ v.res0 = 0#64)

/-- R29: the five invariants of the PFA state, after every command once `PMM_READY`. -/
def Obligations.PfaInvariantsHoldAfterEveryCommand : Prop :=
  ∀ (i : Instr) (s t : State), s.Inv → s.cfg.wf = true → exec i s = .next t → t.flag .pmmReady = true →
    (128 ≤ t.totalBlocks.toNat ∧ t.totalBlocks.toNat ≤ t.cfg.maxBlocks) ∧
    (∀ j < 4096, t.bitmap.used j = true) ∧
    (t.usedPages.toNat = (List.range' 0 (t.totalBlocks.toNat * 32)).countP t.bitmap.used ∧ 4096 ≤ t.usedPages.toNat ∧
      t.usedPages.toNat ≤ t.totalBlocks.toNat * 32) ∧
    (s.flag .pmmReady = true → ∀ j, t.totalBlocks.toNat * 32 ≤ j → t.bitmap.used j = s.bitmap.used j) ∧
    (i = .pmmAlloc ∨ i = .pmmAllocn → t.status = 0#32 →
      t.res0.toNat % 4096 = 0 ∧ 0x1000000 ≤ t.res0.toNat ∧ t.res0.toNat / 4096 < t.totalBlocks.toNat * 32)

/-- R60: "The PFA never accesses memory": the eight PFA commands change neither memory nor `TLB`, `ROOT`, `ACTIVE_ROOT`; of the registers
only `STATUS`, `RES0`, `RES1`, `FLAGS` and the PFA's own. -/
def Obligations.PfaCommandsLeaveTheRest : Prop :=
  ∀ (i : Instr) (s t : State),
    i ∈ [Instr.pmmInit, .pmmAlloc, .pmmAllocn, .pmmFree, .pmmFreen, .pmmTotal, .pmmUsed, .pmmFreemem] → exec i s = .next t →
    t = { s with status := t.status, res0 := t.res0, res1 := t.res1, flags := t.flags, totalBlocks := t.totalBlocks,
                 usedPages := t.usedPages, bitmap := t.bitmap } ∧
    ∀ a, t.mem.readByte a = s.mem.readByte a

/-! ## Memory -/

/-- R61: byte `a + k` of an entry holds bits `8k + 7` to `8k`; a store of an entry changes no byte outside its eight. -/
def Obligations.EntriesAreLittleEndian : Prop :=
  (∀ (m : Memory) (a : Word) (k : Nat), k < 8 →
    (m.readWord a).extractLsb' (8 * k) 8 = m.readByte (a + BitVec.ofNat 64 k)) ∧
  ∀ (m : Memory) (a v : Word),
    (∀ k < 8, (m.writeWord a v).readByte (a + BitVec.ofNat 64 k) = v.extractLsb' (8 * k) 8) ∧
    (m.writeWord a v).readWord a = v ∧
    ∀ b, OutsideWord a b → (m.writeWord a v).readByte b = m.readByte b

/-- R61, R79 point 3: the host's own loads and stores of memory, of any width, where memory exists; a store changes only its own bytes,
and a later load of an aligned word sees it. Byte by byte from the address is the model's reading (log entry 6). -/
def Obligations.HostLoadsAndStores : Prop :=
  ∀ (s : State) (a v : Word) (w : Width), s.bytesExist a w.bytes = true →
    (∃ t, hostAccess (.memWrite a w v) s = .next t ∧ t = { s with mem := t.mem } ∧
      (∀ k < w.bytes, t.mem.readByte (a + BitVec.ofNat 64 k) = v.extractLsb' (8 * k) 8) ∧
      ∀ b, w.bytes ≤ (b - a).toNat → t.mem.readByte b = s.mem.readByte b) ∧
    ∃ d : Word, hostAccess (.memRead a w) s = .next { s with hostData := d } ∧
      (∀ k < w.bytes, d.extractLsb' (8 * k) 8 = s.mem.readByte (a + BitVec.ofNat 64 k)) ∧ d.toNat < 2 ^ (8 * w.bytes)

/-! ## The walker and editor -/

/-- R161, R73, R75: `VMM_GETPA`, whole: `ERR_STATE` before `VMM_INIT`; then what the walk from `ROOT` finds: `OK` with the frame and the
offset, or `FAIL` with 0; it writes only `STATUS`, `RES0`, `RES1`. The walk's four entries have memory behind them. -/
def Obligations.VmmGetpaAnswersTheWalk : Prop :=
  (∀ s : State, s.flag .vmmReady = false →
    exec .vmmGetpa s = .next { s with status := 3#32, res0 := 0#64, res1 := 0#64, flags := s.flags ||| 8#32 }) ∧
  ∀ s : State, s.flag .vmmReady = true → s.root.toNat % 4096 = 0 → s.PathBacked s.root s.arg0 →
    (∀ e, leafEntry s.mem s.root s.arg0 = some e →
      exec .vmmGetpa s =
        .next { s with status := 0#32, res0 := (e &&& 0xFFFFFFFFFFFFF000#64) ||| (s.arg0 &&& 0xFFF#64), res1 := 0#64 }) ∧
    (leafEntry s.mem s.root s.arg0 = none →
      exec .vmmGetpa s = .next { s with status := 1#32, res0 := 0#64, res1 := 0#64 })

/-- R70, R66, R68, R69, R73: the walk by its own bits: four reads at the slices 47:39, 38:30, 29:21, 20:12, each entry present, give the
leaf entry; the first entry with bit 0 clear gives none. -/
def Obligations.WalkReadsFourEntries : Prop :=
  ∀ (m : Memory) (root v e3 e2 e1 e0 : Word),
    e3 = m.readWord (root + (v.extractLsb' 39 9).setWidth 64 * 8#64) →
    e2 = m.readWord ((e3 &&& 0xFFFFFFFFFFFFF000#64) + (v.extractLsb' 30 9).setWidth 64 * 8#64) →
    e1 = m.readWord ((e2 &&& 0xFFFFFFFFFFFFF000#64) + (v.extractLsb' 21 9).setWidth 64 * 8#64) →
    e0 = m.readWord ((e1 &&& 0xFFFFFFFFFFFFF000#64) + (v.extractLsb' 12 9).setWidth 64 * 8#64) →
    leafEntry m root v =
      if e3.getLsbD 0 && e2.getLsbD 0 && e1.getLsbD 0 && e0.getLsbD 0 then some e0 else none

/-- R64, R225: a walk whose first entry without memory stands at depth `n` ends `VMM_GETPA`, `VMM_UNMAP`, `VMM_MAP` (from `ROOT`) and a
missing `TLB_XLATE` (from `ACTIVE_ROOT`) with `ERR_BUS`; since every entry before it was present, nothing had been done. A `VMM_MAP` or
`VMM_INIT` whose frame number `m` lacks memory somewhere also ends with `ERR_BUS`, and what was done before stands: the `m` frames before
it are zeroed and linked tables, that frame stays taken and unlinked, the pages a `VMM_INIT` mapped so far stay mapped (512 for each PT
made), their cached pairs are gone and no others. -/
def Obligations.AbsentMemoryEndsTheCommandWithErrBus : Prop :=
  (∀ (s : State) (n : Nat),
    (s.flag .vmmReady = true → s.root.toNat % 4096 = 0 → s.BusErrorAt s.root s.arg0 n →
      ∀ i ∈ [Instr.vmmGetpa, .vmmUnmap, .vmmMap],
        exec i s = .next { s with status := 6#32, res0 := 0#64, res1 := 0#64, flags := s.flags ||| 8#32 }) ∧
    (s.flag .activeValid = true → s.activeRoot.toNat % 4096 = 0 → s.BusErrorAt s.activeRoot s.arg0 n →
      (∀ p ∈ s.tlb, p.1 ≠ s.arg0.extractLsb' 12 36) →
        exec .tlbXlate s = .next { s with status := 6#32, res0 := 0#64, res1 := 0#64, flags := s.flags ||| 8#32 })) ∧
  ∀ (s : State) (m f : Nat), s.Inv → (∀ p ∈ s.freeList.take m, s.FrameBacked p) → s.freeList[m]? = some f → ¬ s.FrameBacked f →
    (∀ (k : Nat) (x : Word), s.flag .vmmReady = true → s.TreeInv → s.PathBacked s.root s.arg0 →
      tableAt s.mem s.root s.arg0 k = some x →
      present (s.mem.readWord (entryAddr x (vidx s.arg0 (levelAt k)))) = false →
      k + m < 3 →
        ∃ t, exec .vmmMap s = .next t ∧
          t = { s with status := 6#32, res0 := 0#64, res1 := 0#64, flags := s.flags ||| 8#32, mem := t.mem, bitmap := t.bitmap,
                       usedPages := s.usedPages + BitVec.ofNat 64 (m + 1) } ∧
          (∀ i, t.bitmap.used i = (s.bitmap.used i || (s.freeList.take (m + 1)).contains i)) ∧
          (∀ j p, j < m → s.freeList[j]? = some p →
            (∃ y, tableAt t.mem t.root s.arg0 (k + j) = some y ∧
              t.mem.readWord (entryAddr y (vidx s.arg0 (levelAt (k + j)))) = BitVec.ofNat 64 (p * 4096) ||| 0x03#64) ∧
            ∀ idx, (idx ≠ vidx s.arg0 (levelAt (k + j + 1)) ∨ j + 1 = m) →
              t.mem.readWord (entryAddr (BitVec.ofNat 64 (p * 4096)) idx) = 0#64) ∧
          tableAt t.mem t.root s.arg0 (k + m + 1) = none ∧
          (∀ v : Word, leafEntry t.mem t.root v = leafEntry s.mem s.root v) ∧
          ∀ b, (m = 0 ∨ OutsideWord (entryAddr x (vidx s.arg0 (levelAt k))) b) →
            (s.freeList.take (m + 1)).contains (pageIndex b) = false → t.mem.readByte b = s.mem.readByte b) ∧
    (s.flag .pmmReady = true → s.flag .vmmReady = false → m < 11 →
      ∃ t, exec .vmmInit s = .next t ∧
        t = { s with status := 6#32, res0 := 0#64, res1 := 0#64, flags := s.flags ||| 8#32, root := t.root, mem := t.mem,
                     bitmap := t.bitmap, usedPages := s.usedPages + BitVec.ofNat 64 (m + 1),
                     tlb := s.tlb.filter fun p => decide (512 * (m - 3) ≤ p.1.toNat) } ∧
        (∀ i, t.bitmap.used i = (s.bitmap.used i || (s.freeList.take (m + 1)).contains i)) ∧
        (m = 0 → t.root = s.root) ∧
        (∀ f0, 0 < m → s.freeList[0]? = some f0 →
          t.root = BitVec.ofNat 64 (f0 * 4096) ∧ t.TreeInv ∧
          (∀ n p, 0 < n → n < 3 → n < m → s.freeList[n]? = some p → tableAt t.mem t.root 0#64 n = some (BitVec.ofNat 64 (p * 4096))) ∧
          (∀ n p, 3 + n < m → s.freeList[3 + n]? = some p →
            tableAt t.mem t.root (BitVec.ofNat 64 (n * 0x200000)) 3 = some (BitVec.ofNat 64 (p * 4096))) ∧
          ∀ v : Word, leafEntry t.mem t.root v =
            if v.extractLsb' 24 24 = 0#24 ∧ (v.extractLsb' 12 12).toNat < 512 * (m - 3) then some ((v &&& 0xFFF000#64) ||| 3#64)
            else none) ∧
        ∀ b, (s.freeList.take (m + 1)).contains (pageIndex b) = false → t.mem.readByte b = s.mem.readByte b)

/-- R159: `VMM_UNMAP`, whole: `ERR_STATE` before `VMM_INIT`; it clears the leaf entry and the page's cached pair where the three tables
exist, and is a no-op where one is absent; `OK` either way; no other byte of memory changes. The entries of the descent have memory
behind them. -/
def Obligations.VmmUnmapClearsOneEntry : Prop :=
  (∀ s : State, s.flag .vmmReady = false →
    exec .vmmUnmap s = .next { s with status := 3#32, res0 := 0#64, res1 := 0#64, flags := s.flags ||| 8#32 }) ∧
  ∀ s : State, s.flag .vmmReady = true → s.root.toNat % 4096 = 0 → s.PathBacked s.root s.arg0 →
    (tableAt s.mem s.root s.arg0 3 = none →
      exec .vmmUnmap s = .next { s with status := 0#32, res0 := 0#64, res1 := 0#64 }) ∧
    ∀ u, tableAt s.mem s.root s.arg0 3 = some u →
      ∃ t, exec .vmmUnmap s = .next t ∧
        t = { s with status := 0#32, res0 := 0#64, res1 := 0#64, mem := t.mem,
                     tlb := s.tlb.filter fun p => p.1 != s.arg0.extractLsb' 12 36 } ∧
        t.mem.readWord (entryAddr u (s.arg0.extractLsb' 12 9)) = 0#64 ∧
        ∀ b, OutsideWord (entryAddr u (s.arg0.extractLsb' 12 9)) b → t.mem.readByte b = s.mem.readByte b

/-- R154, R156: `VMM_MAP` of a page whose three tables exist writes `phys | flags`, all 64 bits of each, into the leaf entry, drops the
page's cached pair, allocates nothing, and changes no other byte of memory; no operand is checked. -/
def Obligations.VmmMapOverwritesTheLeaf : Prop :=
  ∀ (s : State) (u : Word), s.flag .vmmReady = true → s.root.toNat % 4096 = 0 → s.PathBacked s.root s.arg0 →
    tableAt s.mem s.root s.arg0 3 = some u →
      ∃ t, exec .vmmMap s = .next t ∧
        t = { s with status := 0#32, res0 := 0#64, res1 := 0#64, mem := t.mem,
                     tlb := s.tlb.filter fun p => p.1 != s.arg0.extractLsb' 12 36 } ∧
        t.mem.readWord (entryAddr u (s.arg0.extractLsb' 12 9)) = s.arg1 ||| s.arg2 ∧
        ∀ b, OutsideWord (entryAddr u (s.arg0.extractLsb' 12 9)) b → t.mem.readByte b = s.mem.readByte b

/-- R152, R153, R158: `VMM_MAP` of a page whose path ends at depth `k < 3` takes the lowest `3 - k` free frames, one per missing level,
zeroes each, links each with `frame | 0x03`, writes the leaf, and changes nothing else. -/
def Obligations.VmmMapCreatesTheMissingTables : Prop :=
  ∀ (s : State) (k : Nat) (x : Word), s.Inv → s.flag .vmmReady = true → s.TreeInv → s.RangeBacked → k < 3 →
    tableAt s.mem s.root s.arg0 k = some x →
    present (s.mem.readWord (entryAddr x (vidx s.arg0 (levelAt k)))) = false →
    3 - k ≤ s.freePages →
      ∃ t, exec .vmmMap s = .next t ∧
        t = { s with status := 0#32, res0 := 0#64, res1 := 0#64, mem := t.mem, bitmap := t.bitmap,
                     usedPages := s.usedPages + BitVec.ofNat 64 (3 - k),
                     tlb := s.tlb.filter fun p => p.1 != s.arg0.extractLsb' 12 36 } ∧
        (∀ i, t.bitmap.used i = (s.bitmap.used i || (s.freeList.take (3 - k)).contains i)) ∧
        (∀ j p, j < 3 - k → s.freeList[j]? = some p →
          (∃ y, tableAt t.mem t.root s.arg0 (k + j) = some y ∧
            t.mem.readWord (entryAddr y (vidx s.arg0 (levelAt (k + j)))) = BitVec.ofNat 64 (p * 4096) ||| 0x03#64) ∧
          ∀ idx, idx ≠ vidx s.arg0 (levelAt (k + j + 1)) →
            t.mem.readWord (entryAddr (BitVec.ofNat 64 (p * 4096)) idx) = 0#64) ∧
        (∃ u, tableAt t.mem t.root s.arg0 3 = some u ∧
          t.mem.readWord (entryAddr u (s.arg0.extractLsb' 12 9)) = s.arg1 ||| s.arg2) ∧
        ∀ b, OutsideWord (entryAddr x (vidx s.arg0 (levelAt k))) b → (s.freeList.take (3 - k)).contains (pageIndex b) = false →
          t.mem.readByte b = s.mem.readByte b

/-- R155: `VMM_MAP` that runs out of frames answers `FAIL`; the tables it made before stay allocated, zeroed and linked, the leaf is not
written and the cache is not touched; where no frame is free at all, nothing is stored. -/
def Obligations.VmmMapThatRunsOutKeepsItsTables : Prop :=
  ∀ (s : State) (k : Nat) (x : Word), s.Inv → s.flag .vmmReady = true → s.TreeInv → s.RangeBacked → k < 3 →
    tableAt s.mem s.root s.arg0 k = some x →
    present (s.mem.readWord (entryAddr x (vidx s.arg0 (levelAt k)))) = false →
    s.freePages < 3 - k →
      ∃ t, exec .vmmMap s = .next t ∧
        t = { s with status := 1#32, res0 := 0#64, res1 := 0#64, mem := t.mem, bitmap := t.bitmap,
                     usedPages := s.usedPages + BitVec.ofNat 64 s.freePages } ∧
        (∀ i, t.bitmap.used i = (s.bitmap.used i || s.freeList.contains i)) ∧
        (∀ j p, s.freeList[j]? = some p →
          (∃ y, tableAt t.mem t.root s.arg0 (k + j) = some y ∧
            t.mem.readWord (entryAddr y (vidx s.arg0 (levelAt (k + j)))) = BitVec.ofNat 64 (p * 4096) ||| 0x03#64) ∧
          ∀ idx, (idx ≠ vidx s.arg0 (levelAt (k + j + 1)) ∨ j + 1 = s.freePages) →
            t.mem.readWord (entryAddr (BitVec.ofNat 64 (p * 4096)) idx) = 0#64) ∧
        tableAt t.mem t.root s.arg0 3 = none ∧
        (s.freePages = 0 → ∀ b, t.mem.readByte b = s.mem.readByte b) ∧
        ∀ b, OutsideWord (entryAddr x (vidx s.arg0 (levelAt k))) b → s.freeList.contains (pageIndex b) = false →
          t.mem.readByte b = s.mem.readByte b

/-- R77, R60: the bytes the three editing commands may change, whatever they end with: `VMM_UNMAP` the word of the leaf entry its descent
reaches; `VMM_MAP` that word, the words of the absent entries on its path, and the frames it takes; `VMM_INIT` the frames it takes. -/
def Obligations.EditorsStoreOnlyTheirEntriesAndFrames : Prop :=
  (∀ (s t : State) (b : Word), exec .vmmUnmap s = .next t →
    (∀ u s', descend s.arg0 nonLeafLevels s.root s = .ok (some u) s' → OutsideWord (entryAddr u (vidx s.arg0 .pt)) b) →
      t.mem.readByte b = s.mem.readByte b) ∧
  (∀ (s t : State) (b : Word), s.Inv → exec .vmmMap s = .next t →
    (∀ k a, k < 3 → entryOnPath s.mem s.root s.arg0 k = some a → present (s.mem.readWord a) = false → OutsideWord a b) →
    (∀ u s', descendCreating s.arg0 nonLeafLevels s.root s = .ok (some u) s' → OutsideWord (entryAddr u (vidx s.arg0 .pt)) b) →
    t.bitmap.used (pageIndex b) = s.bitmap.used (pageIndex b) →
      t.mem.readByte b = s.mem.readByte b) ∧
  ∀ (s t : State) (b : Word), s.Inv → exec .vmmInit s = .next t →
    t.bitmap.used (pageIndex b) = s.bitmap.used (pageIndex b) → t.mem.readByte b = s.mem.readByte b

/-- R151: `VMM_INIT` with at least eleven free frames, whole: `OK`; `ROOT` is the lowest free frame; the eleven lowest are taken in the
order root, PDPT, PD, eight PTs; virtual pages 0 to 4095 map to themselves with flags 3 and no other page is mapped; the cached pairs of
those pages go; nothing else changes. -/
def Obligations.VmmInitBuildsTheIdentityMap : Prop :=
  ∀ s : State, s.Inv → s.flag .pmmReady = true → s.flag .vmmReady = false → s.RangeBacked → 11 ≤ s.freePages →
    ∃ (t : State) (f : Nat → Nat), (∀ j < 11, s.freeList[j]? = some (f j)) ∧ exec .vmmInit s = .next t ∧
      t = { s with status := 0#32, res0 := t.root, res1 := 0#64, flags := s.flags ||| 2#32, root := BitVec.ofNat 64 (f 0 * 4096),
                   mem := t.mem, bitmap := t.bitmap, usedPages := s.usedPages + 11#64,
                   tlb := s.tlb.filter fun p => decide (4096 ≤ p.1.toNat) } ∧
      (∀ i, t.bitmap.used i = (s.bitmap.used i || (s.freeList.take 11).contains i)) ∧
      t.TreeInv ∧
      (∀ v : Word, v.extractLsb' 24 24 = 0#24 →
        tableAt t.mem t.root v 1 = some (BitVec.ofNat 64 (f 1 * 4096)) ∧
        tableAt t.mem t.root v 2 = some (BitVec.ofNat 64 (f 2 * 4096)) ∧
        tableAt t.mem t.root v 3 = some (BitVec.ofNat 64 (f (3 + (v.extractLsb' 21 3).toNat) * 4096))) ∧
      (∀ v : Word, leafEntry t.mem t.root v =
        if v.extractLsb' 24 24 = 0#24 then some ((v &&& 0xFFF000#64) ||| 3#64) else none) ∧
      ∀ b, (s.freeList.take 11).contains (pageIndex b) = false → t.mem.readByte b = s.mem.readByte b

/-- R151, on `FAIL`: with no free frame nothing changes; with fewer than eleven `ROOT` holds the new root, every frame is taken and linked
in order as far as they go, the pages mapped so far stay mapped (512 for each PT made), exactly their cached pairs are gone (R183), no byte
outside those frames changes, and `VMM_READY` stays 0. -/
def Obligations.VmmInitThatRunsOut : Prop :=
  ∀ s : State, s.Inv → s.flag .pmmReady = true → s.flag .vmmReady = false → s.RangeBacked →
    (s.freePages = 0 → exec .vmmInit s = .next { s with status := 1#32, res0 := 0#64, res1 := 0#64 }) ∧
    (0 < s.freePages → s.freePages < 11 →
      ∃ (t : State) (f0 : Nat), s.freeList[0]? = some f0 ∧ exec .vmmInit s = .next t ∧
        t = { s with status := 1#32, res0 := 0#64, res1 := 0#64, root := BitVec.ofNat 64 (f0 * 4096), mem := t.mem,
                     bitmap := t.bitmap, usedPages := s.usedPages + BitVec.ofNat 64 s.freePages,
                     tlb := s.tlb.filter fun p => decide (512 * (s.freePages - 3) ≤ p.1.toNat) } ∧
        (∀ i, t.bitmap.used i = (s.bitmap.used i || s.freeList.contains i)) ∧
        t.freePages = 0 ∧ t.TreeInv ∧
        (∀ n p, 0 < n → n < 3 → s.freeList[n]? = some p → tableAt t.mem t.root 0#64 n = some (BitVec.ofNat 64 (p * 4096))) ∧
        (∀ n p, s.freeList[3 + n]? = some p →
          tableAt t.mem t.root (BitVec.ofNat 64 (n * 0x200000)) 3 = some (BitVec.ofNat 64 (p * 4096))) ∧
        (∀ v : Word, leafEntry t.mem t.root v =
          if v.extractLsb' 24 24 = 0#24 ∧ (v.extractLsb' 12 12).toNat < 512 * (s.freePages - 3) then
            some ((v &&& 0xFFF000#64) ||| 3#64)
          else none) ∧
        ∀ b, s.freeList.contains (pageIndex b) = false → t.mem.readByte b = s.mem.readByte b)

/-- R163: `VMM_SWITCH`, whole. -/
def Obligations.VmmSwitch : Prop :=
  ∀ s : State,
    (s.arg0.extractLsb' 0 12 = 0#12 →
      exec .vmmSwitch s =
        .next { s with status := 0#32, res0 := 0#64, res1 := 0#64, activeRoot := s.arg0, flags := s.flags ||| 4#32, tlb := [] }) ∧
    (s.arg0.extractLsb' 0 12 ≠ 0#12 →
      exec .vmmSwitch s = .next { s with status := 4#32, res0 := 0#64, res1 := 0#64, flags := s.flags ||| 8#32 })

/-- R70, R71, R102: bits 63 to 48 of a virtual address are used by no command, and bits 11 to 0 by none of those that name a page. -/
def Obligations.UnusedAddressBitsAreIgnored : Prop :=
  ∀ (i : Instr) (s t : State) (a : Word), exec i s = .next t →
    (i ∈ [Instr.vmmMap, .vmmUnmap, .vmmGetpa, .tlbXlate, .tlbInvlpg] ∧ a.extractLsb' 0 48 = s.arg0.extractLsb' 0 48) ∨
      (i ∈ [Instr.vmmMap, .vmmUnmap, .tlbInvlpg] ∧ a.extractLsb' 12 36 = s.arg0.extractLsb' 12 36) →
    exec i { s with arg0 := a } = .next { t with arg0 := a }

/-- R150, R161, R180: the four commands that work on the tree at `ROOT` do not depend on `ACTIVE_ROOT`, and `VMM_GETPA` not on the
cache either; `TLB_XLATE` does not depend on `ROOT` or on the PFA. -/
def Obligations.WhichRootEachCommandUses : Prop :=
  ∀ (s t : State) (r n u : Word) (c : Tlb) (b : Bitmap),
    (∀ i ∈ [Instr.vmmInit, .vmmMap, .vmmUnmap, .vmmGetpa], exec i s = .next t →
      exec i { s with activeRoot := r } = .next { t with activeRoot := r }) ∧
    (exec .vmmGetpa s = .next t → exec .vmmGetpa { s with tlb := c } = .next { t with tlb := c }) ∧
    (exec .tlbXlate s = .next t →
      exec .tlbXlate { s with root := r, totalBlocks := n, usedPages := u, bitmap := b } =
        .next { t with root := r, totalBlocks := n, usedPages := u, bitmap := b })

/-- R39 points 1 and 2, R160: once `VMM_READY`, every command keeps the tree: each table in a used frame of its own, each non-leaf entry 0
or `frame | 0x03`; a free that ends `OK` does so where none of the pages it frees holds a table of the tree, which the host owes it
(R258). -/
def Obligations.CommandsKeepTheTree : Prop :=
  ∀ (i : Instr) (s t : State), s.Inv → s.flag .vmmReady = true → s.TreeInv → exec i s = .next t →
    (t.status = 0#32 → s.SparesTables i) → t.TreeInv

/-- R164, R160: "transitions happen only under `map_page`/`unmap_page`": under every command a table on a path stays where it is, and the
leaf entry of a page changes only under a `VMM_MAP` or `VMM_UNMAP` of that page that ends `OK`. -/
def Obligations.EntriesChangeOnlyUnderMapAndUnmap : Prop :=
  ∀ (i : Instr) (s t : State), s.Inv → s.flag .vmmReady = true → s.TreeInv → exec i s = .next t →
    t.root = s.root ∧
    (∀ v n x, n ≤ 3 → tableAt s.mem s.root v n = some x → tableAt t.mem t.root v n = some x) ∧
    ∀ v : Word, leafEntry t.mem t.root v =
      if t.status = 0#32 ∧ v.extractLsb' 12 36 = s.arg0.extractLsb' 12 36 ∧ (i = .vmmMap ∨ i = .vmmUnmap) then
        if i = .vmmMap ∧ (s.arg1 ||| s.arg2).getLsbD 0 = true then some (s.arg1 ||| s.arg2) else none
      else leafEntry s.mem s.root v

/-- R165: map, then any commands but a map or unmap of the same page, then query: the page's frame and the offset; and unmap, then query:
`FAIL`. The commands between may free frames, but none that holds a table of the tree (R258). -/
def Obligations.MapThenQuery : Prop :=
  (∀ (s t t' : State) (v v' p f : Word) (between : List Command), s.Inv → s.flag .vmmReady = true → s.TreeInv → s.RangeBacked →
    p.extractLsb' 0 12 = 0#12 → f.getLsbD 0 = true → f.extractLsb' 12 52 = 0#52 →
    v'.extractLsb' 12 36 = v.extractLsb' 12 36 →
    transact { instr := .vmmMap, args := [v, p, f] } s = .next t → t.status = 0#32 →
    (∀ c ∈ between, c.wf = true ∧
      (c.instr = .vmmMap ∨ c.instr = .vmmUnmap → ∀ a, c.args.head? = some a → a.extractLsb' 12 36 ≠ v.extractLsb' 12 36)) →
    sparesTables between t → runProgram between t = .next t' →
      ∃ u, transact { instr := .vmmGetpa, args := [v'] } t' = .next u ∧ u.status = 0#32 ∧ u.res0 = p ||| (v' &&& 0xFFF#64)) ∧
  ∀ (s t : State) (v v' : Word), s.Inv → s.flag .vmmReady = true → s.TreeInv → s.RangeBacked →
    v'.extractLsb' 12 36 = v.extractLsb' 12 36 → transact { instr := .vmmUnmap, args := [v] } s = .next t →
      ∃ u, transact { instr := .vmmGetpa, args := [v'] } t = .next u ∧ u.status = 1#32 ∧ u.res0 = 0#64

/-! ## The translation cache -/

/-- R186, a hit: the answer comes from the cached pair and nothing but `STATUS`, `RES0`, `RES1` changes, whatever memory holds. -/
def Obligations.TlbXlateHit : Prop :=
  ∀ (s : State) (e : Word), s.Inv → s.flag .activeValid = true → (s.arg0.extractLsb' 12 36, e) ∈ s.tlb →
    exec .tlbXlate s =
      .next { s with status := 0#32, res0 := (e &&& 0xFFFFFFFFFFFFF000#64) ||| (s.arg0 &&& 0xFFF#64), res1 := e &&& 0xFFF#64 }

/-- R186, R185, a miss: the answer of the walk from `ACTIVE_ROOT`; a page found may be cached and old pairs dropped, as the fill allows,
and a page absent is not cached. `tlbDraws` is the model's own (log entry 7). -/
def Obligations.TlbXlateMiss : Prop :=
  ∀ s : State, s.flag .activeValid = true → s.activeRoot.toNat % 4096 = 0 → s.PathBacked s.activeRoot s.arg0 →
    (∀ p ∈ s.tlb, p.1 ≠ s.arg0.extractLsb' 12 36) →
    (∀ e, leafEntry s.mem s.activeRoot s.arg0 = some e →
      ∃ t, exec .tlbXlate s = .next t ∧
        t = { s with status := 0#32, res0 := (e &&& 0xFFFFFFFFFFFFF000#64) ||| (s.arg0 &&& 0xFFF#64), res1 := e &&& 0xFFF#64,
                     tlb := t.tlb, tlbDraws := s.tlbDraws + 1 } ∧
        (∀ p ∈ t.tlb, p ∈ s.tlb ∨ p = (s.arg0.extractLsb' 12 36, e)) ∧ t.tlb.length ≤ s.cfg.tlbEntries) ∧
    (leafEntry s.mem s.activeRoot s.arg0 = none →
      exec .tlbXlate s = .next { s with status := 1#32, res0 := 0#64, res1 := 0#64 })

/-- R185: what `tlb_fill` leaves is `retain` of the cache and the new pair under the free value of the next draw. Whatever the draw, that
is a set R185 allows: only old pairs and the new one, at most `TLB_ENTRIES`. And no allowed set is shut out: each is what some draw leaves.
The form of the draw (a choice per page, then the first `TLB_ENTRIES`) is the model's (log entry 7). -/
def Obligations.AFillCanLeaveEveryAllowedSet : Prop :=
  (∀ (s : State) (n : Vpn) (e : Word),
    tlbFill n e s = { s with tlb := (s.tlb.add n e).retain (Config.tlbKeeps s.tlbDraws) s.cfg.tlbEntries, tlbDraws := s.tlbDraws + 1 }) ∧
  ∀ (old : Tlb) (n : Vpn) (e : Word) (entries : Nat), (old.map Prod.fst).Pairwise (fun a b => a.toNat < b.toNat) →
    (∀ keeps : Vpn → Bool,
      ((old.add n e).retain keeps entries).length ≤ entries ∧
      ∀ p ∈ (old.add n e).retain keeps entries, p = (n, e) ∨ (p ∈ old ∧ p.1 ≠ n)) ∧
    ∀ kept : Tlb, (kept.map Prod.fst).Pairwise (fun a b => a.toNat < b.toNat) → kept.length ≤ entries →
      (∀ p ∈ kept, p = (n, e) ∨ (p ∈ old ∧ p.1 ≠ n)) →
        ∃ keeps : Vpn → Bool, (old.add n e).retain keeps entries = kept

/-- R187, R183: `TLB_INVLPG`, whole; legal in every state. -/
def Obligations.TlbInvlpg : Prop :=
  ∀ s : State,
    exec .tlbInvlpg s =
      .next { s with status := 0#32, res0 := 0#64, res1 := 0#64, tlb := s.tlb.filter fun p => p.1 != s.arg0.extractLsb' 12 36 }

/-- R190: after `tlb_invalidate(n)` the next `TLB_XLATE` of a page with number `n`, and after `tlb_flush()` the next of any page, answers
what memory holds. -/
def Obligations.AfterInvalidationTranslationWalks : Prop :=
  ∀ (s u : State) (v : Word), s.flag .activeValid = true → s.activeRoot.toNat % 4096 = 0 → s.PathBacked s.activeRoot v →
    (u = tlbInvalidate (v.extractLsb' 12 36) s ∨ u = tlbFlush s) →
      ∃ t, exec .tlbXlate { u with arg0 := v } = .next t ∧
        (∀ e, leafEntry s.mem s.activeRoot v = some e →
          t.status = 0#32 ∧ t.res0 = (e &&& 0xFFFFFFFFFFFFF000#64) ||| (v &&& 0xFFF#64) ∧ t.res1 = e &&& 0xFFF#64) ∧
        (leafEntry s.mem s.activeRoot v = none → t.status = 1#32)

/-- R182: with `TLB_ENTRIES = 0` the cache is always empty: in a state of the invariant it is, and after every command it still is. -/
def Obligations.WithoutStorageTheCacheStaysEmpty : Prop :=
  ∀ (i : Instr) (s t : State), s.Inv → s.cfg.wf = true → s.cfg.tlbEntries = 0 → exec i s = .next t → s.tlb = [] ∧ t.tlb = []

/-- R188: the cache never comes to disagree with memory. Every command keeps: each cached pair is what a walk from `ACTIVE_ROOT` finds,
where `ACTIVE_ROOT = ROOT` or the two trees share no table. That no table of the active tree lies in a frame still free is the host's
part of R188's supposition. -/
def Obligations.CommandsKeepTheCacheCoherent : Prop :=
  ∀ (i : Instr) (s t : State), s.Inv → (s.flag .vmmReady = true → s.TreeInv ∧ s.SameOrApart) → s.ActiveGuarded → s.Coherent →
    exec i s = .next t → t.Coherent

/-- R188: in a coherent state `TLB_XLATE` "returns exactly what a walk would", hit or miss. -/
def Obligations.CoherentTranslationIsTheWalk : Prop :=
  ∀ s : State, s.Inv → s.Coherent → s.flag .activeValid = true → s.PathBacked s.activeRoot s.arg0 →
    ∃ t, exec .tlbXlate s = .next t ∧
      (∀ e, leafEntry s.mem s.activeRoot s.arg0 = some e →
        t.status = 0#32 ∧ t.res0 = (e &&& 0xFFFFFFFFFFFFF000#64) ||| (s.arg0 &&& 0xFFF#64) ∧ t.res1 = e &&& 0xFFF#64) ∧
      (leafEntry s.mem s.activeRoot s.arg0 = none → t.status = 1#32 ∧ t.res0 = 0#64 ∧ t.res1 = 0#64)

/-! ## The whole machine -/

/-- R100: `TLB_FLUSH` empties the cache and changes nothing else but `ARG0` and the results; it has no expansion without
`ACTIVE_VALID`. -/
def Obligations.TlbFlushEmptiesTheCache : Prop :=
  ∀ s : State, s.Inv →
    (s.flag .activeValid = true →
      runPseudo .tlbFlush s = some (.next { s with arg0 := s.activeRoot, status := 0#32, res0 := 0#64, res1 := 0#64, tlb := [] })) ∧
    (s.flag .activeValid = false → runPseudo .tlbFlush s = none)

/-- R253, R100: the boot sequence, after a reset, with memory of at least 129 blocks behind it: `PMM_INIT`, `VMM_INIT`, `VMM_ACTIVATE` all
end well; the root is at `0x1000000`; translation maps the first 16 MiB to themselves with flags 3 and nothing else. -/
def Obligations.BootGivesTheIdentityTranslation : Prop :=
  ∀ (u s : State) (bytes : Word), u.cfg.wf = true → u.mem.wf → hostAccess .reset u = .next s →
    129 ≤ min (bytes.toNat / 131072) s.cfg.maxBlocks →
    (∀ a : Word, a.toNat % 8 = 0 → a.toNat < bytes.toNat → s.memValid a = true) →
    ∃ t, runPseudo (.boot bytes) s = some (.next t) ∧ t.status = 0#32 ∧ t.flags = 7#32 ∧ t.root = 0x1000000#64 ∧
      t.activeRoot = 0x1000000#64 ∧ t.usedPages = 4107#64 ∧
      ∀ v : Word, ∃ w, transact { instr := .tlbXlate, args := [v] } t = .next w ∧
        if v.extractLsb' 24 24 = 0#24 then w.status = 0#32 ∧ w.res0 = v &&& 0xFFFFFF#64 ∧ w.res1 = 3#64
        else w.status = 1#32 ∧ w.res0 = 0#64 ∧ w.res1 = 0#64

/-- The state after reset satisfies the invariant (R24, R25, R29 to R32, R37; that memory then lists nothing is log entry 5). -/
def Obligations.ResetSatisfiesTheInvariant : Prop :=
  State.reset.Inv ∧ State.reset.cfg.wf = true

/-- Every step, from every state of the invariant, keeps it (R24, R25, R29 to R32, R181), and no step changes the parameters (R7). -/
def Obligations.EveryStepKeepsTheInvariant : Prop :=
  ∀ s t : State, s.Inv → s.cfg.wf = true → step s = .next t → t.Inv ∧ t.cfg = s.cfg

/-- R62, R226: from every state of the invariant no step is a fault, and a step is refused only for a host access the model gives no
meaning to. -/
def Obligations.EveryStepIsSafe : Prop :=
  ∀ s : State, s.Inv → Safe (step s) ∧
    ∀ r, step s = .refused r →
      (∃ offset, r = .noSuchRegister offset) ∨ (∃ reg width, r = .wrongRegisterWidth reg width) ∨
        ∃ addr, r = .hostAccessWithoutMemory addr

end Slice0Obligations
end

