-- ==== Sys2Proof/Laws/State.lean ====
section
/-! SUPPORT. What each named update of State does to each field, one lemma each, so that no later proof unfolds a record update. -/

namespace Sys2Proof.Machine

/-! ## `done` -/

@[simp] theorem done_arg0 (st : Status) (r0 r1 : Word) (s : State) : (s.done st r0 r1).arg0 = s.arg0 := rfl
@[simp] theorem done_arg1 (st : Status) (r0 r1 : Word) (s : State) : (s.done st r0 r1).arg1 = s.arg1 := rfl
@[simp] theorem done_arg2 (st : Status) (r0 r1 : Word) (s : State) : (s.done st r0 r1).arg2 = s.arg2 := rfl
@[simp] theorem done_res0 (st : Status) (r0 r1 : Word) (s : State) : (s.done st r0 r1).res0 = r0 := rfl
@[simp] theorem done_res1 (st : Status) (r0 r1 : Word) (s : State) : (s.done st r0 r1).res1 = r1 := rfl
@[simp] theorem done_status (st : Status) (r0 r1 : Word) (s : State) : (s.done st r0 r1).status = st.code := rfl
@[simp] theorem done_flags (st : Status) (r0 r1 : Word) (s : State) : (s.done st r0 r1).flags = st.mark s.flags := rfl
@[simp] theorem done_totalBlocks (st : Status) (r0 r1 : Word) (s : State) : (s.done st r0 r1).totalBlocks = s.totalBlocks := rfl
@[simp] theorem done_usedPages (st : Status) (r0 r1 : Word) (s : State) : (s.done st r0 r1).usedPages = s.usedPages := rfl
@[simp] theorem done_bitmap (st : Status) (r0 r1 : Word) (s : State) : (s.done st r0 r1).bitmap = s.bitmap := rfl
@[simp] theorem done_root (st : Status) (r0 r1 : Word) (s : State) : (s.done st r0 r1).root = s.root := rfl
@[simp] theorem done_activeRoot (st : Status) (r0 r1 : Word) (s : State) : (s.done st r0 r1).activeRoot = s.activeRoot := rfl
@[simp] theorem done_tlb (st : Status) (r0 r1 : Word) (s : State) : (s.done st r0 r1).tlb = s.tlb := rfl
@[simp] theorem done_mem (st : Status) (r0 r1 : Word) (s : State) : (s.done st r0 r1).mem = s.mem := rfl
@[simp] theorem done_cfg (st : Status) (r0 r1 : Word) (s : State) : (s.done st r0 r1).cfg = s.cfg := rfl
@[simp] theorem done_tlbDraws (st : Status) (r0 r1 : Word) (s : State) : (s.done st r0 r1).tlbDraws = s.tlbDraws := rfl
@[simp] theorem done_hostScript (st : Status) (r0 r1 : Word) (s : State) : (s.done st r0 r1).hostScript = s.hostScript := rfl
@[simp] theorem done_hostData (st : Status) (r0 r1 : Word) (s : State) : (s.done st r0 r1).hostData = s.hostData := rfl

/-! ## `raiseFlag` -/

@[simp] theorem raiseFlag_arg0 (b : FlagBit) (s : State) : (s.raiseFlag b).arg0 = s.arg0 := rfl
@[simp] theorem raiseFlag_arg1 (b : FlagBit) (s : State) : (s.raiseFlag b).arg1 = s.arg1 := rfl
@[simp] theorem raiseFlag_arg2 (b : FlagBit) (s : State) : (s.raiseFlag b).arg2 = s.arg2 := rfl
@[simp] theorem raiseFlag_res0 (b : FlagBit) (s : State) : (s.raiseFlag b).res0 = s.res0 := rfl
@[simp] theorem raiseFlag_res1 (b : FlagBit) (s : State) : (s.raiseFlag b).res1 = s.res1 := rfl
@[simp] theorem raiseFlag_status (b : FlagBit) (s : State) : (s.raiseFlag b).status = s.status := rfl
@[simp] theorem raiseFlag_flags (b : FlagBit) (s : State) : (s.raiseFlag b).flags = b.raise s.flags := rfl
@[simp] theorem raiseFlag_totalBlocks (b : FlagBit) (s : State) : (s.raiseFlag b).totalBlocks = s.totalBlocks := rfl
@[simp] theorem raiseFlag_usedPages (b : FlagBit) (s : State) : (s.raiseFlag b).usedPages = s.usedPages := rfl
@[simp] theorem raiseFlag_bitmap (b : FlagBit) (s : State) : (s.raiseFlag b).bitmap = s.bitmap := rfl
@[simp] theorem raiseFlag_root (b : FlagBit) (s : State) : (s.raiseFlag b).root = s.root := rfl
@[simp] theorem raiseFlag_activeRoot (b : FlagBit) (s : State) : (s.raiseFlag b).activeRoot = s.activeRoot := rfl
@[simp] theorem raiseFlag_tlb (b : FlagBit) (s : State) : (s.raiseFlag b).tlb = s.tlb := rfl
@[simp] theorem raiseFlag_mem (b : FlagBit) (s : State) : (s.raiseFlag b).mem = s.mem := rfl
@[simp] theorem raiseFlag_cfg (b : FlagBit) (s : State) : (s.raiseFlag b).cfg = s.cfg := rfl
@[simp] theorem raiseFlag_tlbDraws (b : FlagBit) (s : State) : (s.raiseFlag b).tlbDraws = s.tlbDraws := rfl
@[simp] theorem raiseFlag_hostScript (b : FlagBit) (s : State) : (s.raiseFlag b).hostScript = s.hostScript := rfl
@[simp] theorem raiseFlag_hostData (b : FlagBit) (s : State) : (s.raiseFlag b).hostData = s.hostData := rfl

/-! ## `takePages` -/

@[simp] theorem takePages_arg0 (s : State) (p n : Nat) : (s.takePages p n).arg0 = s.arg0 := rfl
@[simp] theorem takePages_arg1 (s : State) (p n : Nat) : (s.takePages p n).arg1 = s.arg1 := rfl
@[simp] theorem takePages_arg2 (s : State) (p n : Nat) : (s.takePages p n).arg2 = s.arg2 := rfl
@[simp] theorem takePages_res0 (s : State) (p n : Nat) : (s.takePages p n).res0 = s.res0 := rfl
@[simp] theorem takePages_res1 (s : State) (p n : Nat) : (s.takePages p n).res1 = s.res1 := rfl
@[simp] theorem takePages_status (s : State) (p n : Nat) : (s.takePages p n).status = s.status := rfl
@[simp] theorem takePages_flags (s : State) (p n : Nat) : (s.takePages p n).flags = s.flags := rfl
@[simp] theorem takePages_totalBlocks (s : State) (p n : Nat) : (s.takePages p n).totalBlocks = s.totalBlocks := rfl
@[simp] theorem takePages_usedPages (s : State) (p n : Nat) : (s.takePages p n).usedPages = s.usedPages + BitVec.ofNat 64 n := rfl
@[simp] theorem takePages_bitmap (s : State) (p n : Nat) : (s.takePages p n).bitmap = s.bitmap.setPages p n := rfl
@[simp] theorem takePages_root (s : State) (p n : Nat) : (s.takePages p n).root = s.root := rfl
@[simp] theorem takePages_activeRoot (s : State) (p n : Nat) : (s.takePages p n).activeRoot = s.activeRoot := rfl
@[simp] theorem takePages_tlb (s : State) (p n : Nat) : (s.takePages p n).tlb = s.tlb := rfl
@[simp] theorem takePages_mem (s : State) (p n : Nat) : (s.takePages p n).mem = s.mem := rfl
@[simp] theorem takePages_cfg (s : State) (p n : Nat) : (s.takePages p n).cfg = s.cfg := rfl
@[simp] theorem takePages_tlbDraws (s : State) (p n : Nat) : (s.takePages p n).tlbDraws = s.tlbDraws := rfl
@[simp] theorem takePages_hostScript (s : State) (p n : Nat) : (s.takePages p n).hostScript = s.hostScript := rfl
@[simp] theorem takePages_hostData (s : State) (p n : Nat) : (s.takePages p n).hostData = s.hostData := rfl

/-! ## `releasePages` -/

@[simp] theorem releasePages_arg0 (s : State) (p n : Nat) : (s.releasePages p n).arg0 = s.arg0 := rfl
@[simp] theorem releasePages_arg1 (s : State) (p n : Nat) : (s.releasePages p n).arg1 = s.arg1 := rfl
@[simp] theorem releasePages_arg2 (s : State) (p n : Nat) : (s.releasePages p n).arg2 = s.arg2 := rfl
@[simp] theorem releasePages_res0 (s : State) (p n : Nat) : (s.releasePages p n).res0 = s.res0 := rfl
@[simp] theorem releasePages_res1 (s : State) (p n : Nat) : (s.releasePages p n).res1 = s.res1 := rfl
@[simp] theorem releasePages_status (s : State) (p n : Nat) : (s.releasePages p n).status = s.status := rfl
@[simp] theorem releasePages_flags (s : State) (p n : Nat) : (s.releasePages p n).flags = s.flags := rfl
@[simp] theorem releasePages_totalBlocks (s : State) (p n : Nat) : (s.releasePages p n).totalBlocks = s.totalBlocks := rfl
@[simp] theorem releasePages_usedPages (s : State) (p n : Nat) : (s.releasePages p n).usedPages = s.usedPages - BitVec.ofNat 64 (s.bitmap.countUsed p n) := rfl
@[simp] theorem releasePages_bitmap (s : State) (p n : Nat) : (s.releasePages p n).bitmap = s.bitmap.clearPages p n := rfl
@[simp] theorem releasePages_root (s : State) (p n : Nat) : (s.releasePages p n).root = s.root := rfl
@[simp] theorem releasePages_activeRoot (s : State) (p n : Nat) : (s.releasePages p n).activeRoot = s.activeRoot := rfl
@[simp] theorem releasePages_tlb (s : State) (p n : Nat) : (s.releasePages p n).tlb = s.tlb := rfl
@[simp] theorem releasePages_mem (s : State) (p n : Nat) : (s.releasePages p n).mem = s.mem := rfl
@[simp] theorem releasePages_cfg (s : State) (p n : Nat) : (s.releasePages p n).cfg = s.cfg := rfl
@[simp] theorem releasePages_tlbDraws (s : State) (p n : Nat) : (s.releasePages p n).tlbDraws = s.tlbDraws := rfl
@[simp] theorem releasePages_hostScript (s : State) (p n : Nat) : (s.releasePages p n).hostScript = s.hostScript := rfl
@[simp] theorem releasePages_hostData (s : State) (p n : Nat) : (s.releasePages p n).hostData = s.hostData := rfl

/-! ## `initFrames` -/

@[simp] theorem initFrames_arg0 (s : State) (n : Nat) : (s.initFrames n).arg0 = s.arg0 := rfl
@[simp] theorem initFrames_arg1 (s : State) (n : Nat) : (s.initFrames n).arg1 = s.arg1 := rfl
@[simp] theorem initFrames_arg2 (s : State) (n : Nat) : (s.initFrames n).arg2 = s.arg2 := rfl
@[simp] theorem initFrames_res0 (s : State) (n : Nat) : (s.initFrames n).res0 = s.res0 := rfl
@[simp] theorem initFrames_res1 (s : State) (n : Nat) : (s.initFrames n).res1 = s.res1 := rfl
@[simp] theorem initFrames_status (s : State) (n : Nat) : (s.initFrames n).status = s.status := rfl
@[simp] theorem initFrames_flags (s : State) (n : Nat) : (s.initFrames n).flags = FlagBit.pmmReady.raise s.flags := rfl
@[simp] theorem initFrames_totalBlocks (s : State) (n : Nat) : (s.initFrames n).totalBlocks = BitVec.ofNat 64 (min (n / blockBytes) s.cfg.maxBlocks) := rfl
@[simp] theorem initFrames_usedPages (s : State) (n : Nat) : (s.initFrames n).usedPages = BitVec.ofNat 64 reservedPages := rfl
@[simp] theorem initFrames_bitmap (s : State) (n : Nat) : (s.initFrames n).bitmap = Bitmap.forMemory s.cfg.maxBlocks n := rfl
@[simp] theorem initFrames_root (s : State) (n : Nat) : (s.initFrames n).root = s.root := rfl
@[simp] theorem initFrames_activeRoot (s : State) (n : Nat) : (s.initFrames n).activeRoot = s.activeRoot := rfl
@[simp] theorem initFrames_tlb (s : State) (n : Nat) : (s.initFrames n).tlb = s.tlb := rfl
@[simp] theorem initFrames_mem (s : State) (n : Nat) : (s.initFrames n).mem = s.mem := rfl
@[simp] theorem initFrames_cfg (s : State) (n : Nat) : (s.initFrames n).cfg = s.cfg := rfl
@[simp] theorem initFrames_tlbDraws (s : State) (n : Nat) : (s.initFrames n).tlbDraws = s.tlbDraws := rfl
@[simp] theorem initFrames_hostScript (s : State) (n : Nat) : (s.initFrames n).hostScript = s.hostScript := rfl
@[simp] theorem initFrames_hostData (s : State) (n : Nat) : (s.initFrames n).hostData = s.hostData := rfl

/-! ## `storeWord` -/

@[simp] theorem storeWord_arg0 (s : State) (a v : Word) : (s.storeWord a v).arg0 = s.arg0 := rfl
@[simp] theorem storeWord_arg1 (s : State) (a v : Word) : (s.storeWord a v).arg1 = s.arg1 := rfl
@[simp] theorem storeWord_arg2 (s : State) (a v : Word) : (s.storeWord a v).arg2 = s.arg2 := rfl
@[simp] theorem storeWord_res0 (s : State) (a v : Word) : (s.storeWord a v).res0 = s.res0 := rfl
@[simp] theorem storeWord_res1 (s : State) (a v : Word) : (s.storeWord a v).res1 = s.res1 := rfl
@[simp] theorem storeWord_status (s : State) (a v : Word) : (s.storeWord a v).status = s.status := rfl
@[simp] theorem storeWord_flags (s : State) (a v : Word) : (s.storeWord a v).flags = s.flags := rfl
@[simp] theorem storeWord_totalBlocks (s : State) (a v : Word) : (s.storeWord a v).totalBlocks = s.totalBlocks := rfl
@[simp] theorem storeWord_usedPages (s : State) (a v : Word) : (s.storeWord a v).usedPages = s.usedPages := rfl
@[simp] theorem storeWord_bitmap (s : State) (a v : Word) : (s.storeWord a v).bitmap = s.bitmap := rfl
@[simp] theorem storeWord_root (s : State) (a v : Word) : (s.storeWord a v).root = s.root := rfl
@[simp] theorem storeWord_activeRoot (s : State) (a v : Word) : (s.storeWord a v).activeRoot = s.activeRoot := rfl
@[simp] theorem storeWord_tlb (s : State) (a v : Word) : (s.storeWord a v).tlb = s.tlb := rfl
@[simp] theorem storeWord_mem (s : State) (a v : Word) : (s.storeWord a v).mem = s.mem.writeWord a v := rfl
@[simp] theorem storeWord_cfg (s : State) (a v : Word) : (s.storeWord a v).cfg = s.cfg := rfl
@[simp] theorem storeWord_tlbDraws (s : State) (a v : Word) : (s.storeWord a v).tlbDraws = s.tlbDraws := rfl
@[simp] theorem storeWord_hostScript (s : State) (a v : Word) : (s.storeWord a v).hostScript = s.hostScript := rfl
@[simp] theorem storeWord_hostData (s : State) (a v : Word) : (s.storeWord a v).hostData = s.hostData := rfl

/-! ## `tlbInvalidate` -/

@[simp] theorem tlbInvalidate_arg0 (n : Vpn) (s : State) : (tlbInvalidate n s).arg0 = s.arg0 := rfl
@[simp] theorem tlbInvalidate_arg1 (n : Vpn) (s : State) : (tlbInvalidate n s).arg1 = s.arg1 := rfl
@[simp] theorem tlbInvalidate_arg2 (n : Vpn) (s : State) : (tlbInvalidate n s).arg2 = s.arg2 := rfl
@[simp] theorem tlbInvalidate_res0 (n : Vpn) (s : State) : (tlbInvalidate n s).res0 = s.res0 := rfl
@[simp] theorem tlbInvalidate_res1 (n : Vpn) (s : State) : (tlbInvalidate n s).res1 = s.res1 := rfl
@[simp] theorem tlbInvalidate_status (n : Vpn) (s : State) : (tlbInvalidate n s).status = s.status := rfl
@[simp] theorem tlbInvalidate_flags (n : Vpn) (s : State) : (tlbInvalidate n s).flags = s.flags := rfl
@[simp] theorem tlbInvalidate_totalBlocks (n : Vpn) (s : State) : (tlbInvalidate n s).totalBlocks = s.totalBlocks := rfl
@[simp] theorem tlbInvalidate_usedPages (n : Vpn) (s : State) : (tlbInvalidate n s).usedPages = s.usedPages := rfl
@[simp] theorem tlbInvalidate_bitmap (n : Vpn) (s : State) : (tlbInvalidate n s).bitmap = s.bitmap := rfl
@[simp] theorem tlbInvalidate_root (n : Vpn) (s : State) : (tlbInvalidate n s).root = s.root := rfl
@[simp] theorem tlbInvalidate_activeRoot (n : Vpn) (s : State) : (tlbInvalidate n s).activeRoot = s.activeRoot := rfl
@[simp] theorem tlbInvalidate_tlb (n : Vpn) (s : State) : (tlbInvalidate n s).tlb = s.tlb.remove n := rfl
@[simp] theorem tlbInvalidate_mem (n : Vpn) (s : State) : (tlbInvalidate n s).mem = s.mem := rfl
@[simp] theorem tlbInvalidate_cfg (n : Vpn) (s : State) : (tlbInvalidate n s).cfg = s.cfg := rfl
@[simp] theorem tlbInvalidate_tlbDraws (n : Vpn) (s : State) : (tlbInvalidate n s).tlbDraws = s.tlbDraws := rfl
@[simp] theorem tlbInvalidate_hostScript (n : Vpn) (s : State) : (tlbInvalidate n s).hostScript = s.hostScript := rfl
@[simp] theorem tlbInvalidate_hostData (n : Vpn) (s : State) : (tlbInvalidate n s).hostData = s.hostData := rfl

/-! ## `tlbFlush` -/

@[simp] theorem tlbFlush_arg0 (s : State) : (tlbFlush s).arg0 = s.arg0 := rfl
@[simp] theorem tlbFlush_arg1 (s : State) : (tlbFlush s).arg1 = s.arg1 := rfl
@[simp] theorem tlbFlush_arg2 (s : State) : (tlbFlush s).arg2 = s.arg2 := rfl
@[simp] theorem tlbFlush_res0 (s : State) : (tlbFlush s).res0 = s.res0 := rfl
@[simp] theorem tlbFlush_res1 (s : State) : (tlbFlush s).res1 = s.res1 := rfl
@[simp] theorem tlbFlush_status (s : State) : (tlbFlush s).status = s.status := rfl
@[simp] theorem tlbFlush_flags (s : State) : (tlbFlush s).flags = s.flags := rfl
@[simp] theorem tlbFlush_totalBlocks (s : State) : (tlbFlush s).totalBlocks = s.totalBlocks := rfl
@[simp] theorem tlbFlush_usedPages (s : State) : (tlbFlush s).usedPages = s.usedPages := rfl
@[simp] theorem tlbFlush_bitmap (s : State) : (tlbFlush s).bitmap = s.bitmap := rfl
@[simp] theorem tlbFlush_root (s : State) : (tlbFlush s).root = s.root := rfl
@[simp] theorem tlbFlush_activeRoot (s : State) : (tlbFlush s).activeRoot = s.activeRoot := rfl
@[simp] theorem tlbFlush_tlb (s : State) : (tlbFlush s).tlb = [] := rfl
@[simp] theorem tlbFlush_mem (s : State) : (tlbFlush s).mem = s.mem := rfl
@[simp] theorem tlbFlush_cfg (s : State) : (tlbFlush s).cfg = s.cfg := rfl
@[simp] theorem tlbFlush_tlbDraws (s : State) : (tlbFlush s).tlbDraws = s.tlbDraws := rfl
@[simp] theorem tlbFlush_hostScript (s : State) : (tlbFlush s).hostScript = s.hostScript := rfl
@[simp] theorem tlbFlush_hostData (s : State) : (tlbFlush s).hostData = s.hostData := rfl

/-! ## `tlbFill` -/

@[simp] theorem tlbFill_arg0 (n : Vpn) (e : Word) (s : State) : (tlbFill n e s).arg0 = s.arg0 := rfl
@[simp] theorem tlbFill_arg1 (n : Vpn) (e : Word) (s : State) : (tlbFill n e s).arg1 = s.arg1 := rfl
@[simp] theorem tlbFill_arg2 (n : Vpn) (e : Word) (s : State) : (tlbFill n e s).arg2 = s.arg2 := rfl
@[simp] theorem tlbFill_res0 (n : Vpn) (e : Word) (s : State) : (tlbFill n e s).res0 = s.res0 := rfl
@[simp] theorem tlbFill_res1 (n : Vpn) (e : Word) (s : State) : (tlbFill n e s).res1 = s.res1 := rfl
@[simp] theorem tlbFill_status (n : Vpn) (e : Word) (s : State) : (tlbFill n e s).status = s.status := rfl
@[simp] theorem tlbFill_flags (n : Vpn) (e : Word) (s : State) : (tlbFill n e s).flags = s.flags := rfl
@[simp] theorem tlbFill_totalBlocks (n : Vpn) (e : Word) (s : State) : (tlbFill n e s).totalBlocks = s.totalBlocks := rfl
@[simp] theorem tlbFill_usedPages (n : Vpn) (e : Word) (s : State) : (tlbFill n e s).usedPages = s.usedPages := rfl
@[simp] theorem tlbFill_bitmap (n : Vpn) (e : Word) (s : State) : (tlbFill n e s).bitmap = s.bitmap := rfl
@[simp] theorem tlbFill_root (n : Vpn) (e : Word) (s : State) : (tlbFill n e s).root = s.root := rfl
@[simp] theorem tlbFill_activeRoot (n : Vpn) (e : Word) (s : State) : (tlbFill n e s).activeRoot = s.activeRoot := rfl
@[simp] theorem tlbFill_tlb (n : Vpn) (e : Word) (s : State) : (tlbFill n e s).tlb = (s.tlb.add n e).retain (Config.tlbKeeps s.tlbDraws) s.cfg.tlbEntries := rfl
@[simp] theorem tlbFill_mem (n : Vpn) (e : Word) (s : State) : (tlbFill n e s).mem = s.mem := rfl
@[simp] theorem tlbFill_cfg (n : Vpn) (e : Word) (s : State) : (tlbFill n e s).cfg = s.cfg := rfl
@[simp] theorem tlbFill_tlbDraws (n : Vpn) (e : Word) (s : State) : (tlbFill n e s).tlbDraws = s.tlbDraws + 1 := rfl
@[simp] theorem tlbFill_hostScript (n : Vpn) (e : Word) (s : State) : (tlbFill n e s).hostScript = s.hostScript := rfl
@[simp] theorem tlbFill_hostData (n : Vpn) (e : Word) (s : State) : (tlbFill n e s).hostData = s.hostData := rfl

/-! ## `setRoot` -/

@[simp] theorem setRoot_arg0 (s : State) (r : Word) : (s.setRoot r).arg0 = s.arg0 := rfl
@[simp] theorem setRoot_arg1 (s : State) (r : Word) : (s.setRoot r).arg1 = s.arg1 := rfl
@[simp] theorem setRoot_arg2 (s : State) (r : Word) : (s.setRoot r).arg2 = s.arg2 := rfl
@[simp] theorem setRoot_res0 (s : State) (r : Word) : (s.setRoot r).res0 = s.res0 := rfl
@[simp] theorem setRoot_res1 (s : State) (r : Word) : (s.setRoot r).res1 = s.res1 := rfl
@[simp] theorem setRoot_status (s : State) (r : Word) : (s.setRoot r).status = s.status := rfl
@[simp] theorem setRoot_flags (s : State) (r : Word) : (s.setRoot r).flags = s.flags := rfl
@[simp] theorem setRoot_totalBlocks (s : State) (r : Word) : (s.setRoot r).totalBlocks = s.totalBlocks := rfl
@[simp] theorem setRoot_usedPages (s : State) (r : Word) : (s.setRoot r).usedPages = s.usedPages := rfl
@[simp] theorem setRoot_bitmap (s : State) (r : Word) : (s.setRoot r).bitmap = s.bitmap := rfl
@[simp] theorem setRoot_root (s : State) (r : Word) : (s.setRoot r).root = r := rfl
@[simp] theorem setRoot_activeRoot (s : State) (r : Word) : (s.setRoot r).activeRoot = s.activeRoot := rfl
@[simp] theorem setRoot_tlb (s : State) (r : Word) : (s.setRoot r).tlb = s.tlb := rfl
@[simp] theorem setRoot_mem (s : State) (r : Word) : (s.setRoot r).mem = s.mem := rfl
@[simp] theorem setRoot_cfg (s : State) (r : Word) : (s.setRoot r).cfg = s.cfg := rfl
@[simp] theorem setRoot_tlbDraws (s : State) (r : Word) : (s.setRoot r).tlbDraws = s.tlbDraws := rfl
@[simp] theorem setRoot_hostScript (s : State) (r : Word) : (s.setRoot r).hostScript = s.hostScript := rfl
@[simp] theorem setRoot_hostData (s : State) (r : Word) : (s.setRoot r).hostData = s.hostData := rfl

/-! ## `setActiveRoot` -/

@[simp] theorem setActiveRoot_arg0 (s : State) (t : Word) : (s.setActiveRoot t).arg0 = s.arg0 := rfl
@[simp] theorem setActiveRoot_arg1 (s : State) (t : Word) : (s.setActiveRoot t).arg1 = s.arg1 := rfl
@[simp] theorem setActiveRoot_arg2 (s : State) (t : Word) : (s.setActiveRoot t).arg2 = s.arg2 := rfl
@[simp] theorem setActiveRoot_res0 (s : State) (t : Word) : (s.setActiveRoot t).res0 = s.res0 := rfl
@[simp] theorem setActiveRoot_res1 (s : State) (t : Word) : (s.setActiveRoot t).res1 = s.res1 := rfl
@[simp] theorem setActiveRoot_status (s : State) (t : Word) : (s.setActiveRoot t).status = s.status := rfl
@[simp] theorem setActiveRoot_flags (s : State) (t : Word) : (s.setActiveRoot t).flags = s.flags := rfl
@[simp] theorem setActiveRoot_totalBlocks (s : State) (t : Word) : (s.setActiveRoot t).totalBlocks = s.totalBlocks := rfl
@[simp] theorem setActiveRoot_usedPages (s : State) (t : Word) : (s.setActiveRoot t).usedPages = s.usedPages := rfl
@[simp] theorem setActiveRoot_bitmap (s : State) (t : Word) : (s.setActiveRoot t).bitmap = s.bitmap := rfl
@[simp] theorem setActiveRoot_root (s : State) (t : Word) : (s.setActiveRoot t).root = s.root := rfl
@[simp] theorem setActiveRoot_activeRoot (s : State) (t : Word) : (s.setActiveRoot t).activeRoot = t := rfl
@[simp] theorem setActiveRoot_tlb (s : State) (t : Word) : (s.setActiveRoot t).tlb = s.tlb := rfl
@[simp] theorem setActiveRoot_mem (s : State) (t : Word) : (s.setActiveRoot t).mem = s.mem := rfl
@[simp] theorem setActiveRoot_cfg (s : State) (t : Word) : (s.setActiveRoot t).cfg = s.cfg := rfl
@[simp] theorem setActiveRoot_tlbDraws (s : State) (t : Word) : (s.setActiveRoot t).tlbDraws = s.tlbDraws := rfl
@[simp] theorem setActiveRoot_hostScript (s : State) (t : Word) : (s.setActiveRoot t).hostScript = s.hostScript := rfl
@[simp] theorem setActiveRoot_hostData (s : State) (t : Word) : (s.setActiveRoot t).hostData = s.hostData := rfl

/-! ## `withScript` -/

@[simp] theorem withScript_arg0 (s : State) (l : List HostAccess) : (s.withScript l).arg0 = s.arg0 := rfl
@[simp] theorem withScript_arg1 (s : State) (l : List HostAccess) : (s.withScript l).arg1 = s.arg1 := rfl
@[simp] theorem withScript_arg2 (s : State) (l : List HostAccess) : (s.withScript l).arg2 = s.arg2 := rfl
@[simp] theorem withScript_res0 (s : State) (l : List HostAccess) : (s.withScript l).res0 = s.res0 := rfl
@[simp] theorem withScript_res1 (s : State) (l : List HostAccess) : (s.withScript l).res1 = s.res1 := rfl
@[simp] theorem withScript_status (s : State) (l : List HostAccess) : (s.withScript l).status = s.status := rfl
@[simp] theorem withScript_flags (s : State) (l : List HostAccess) : (s.withScript l).flags = s.flags := rfl
@[simp] theorem withScript_totalBlocks (s : State) (l : List HostAccess) : (s.withScript l).totalBlocks = s.totalBlocks := rfl
@[simp] theorem withScript_usedPages (s : State) (l : List HostAccess) : (s.withScript l).usedPages = s.usedPages := rfl
@[simp] theorem withScript_bitmap (s : State) (l : List HostAccess) : (s.withScript l).bitmap = s.bitmap := rfl
@[simp] theorem withScript_root (s : State) (l : List HostAccess) : (s.withScript l).root = s.root := rfl
@[simp] theorem withScript_activeRoot (s : State) (l : List HostAccess) : (s.withScript l).activeRoot = s.activeRoot := rfl
@[simp] theorem withScript_tlb (s : State) (l : List HostAccess) : (s.withScript l).tlb = s.tlb := rfl
@[simp] theorem withScript_mem (s : State) (l : List HostAccess) : (s.withScript l).mem = s.mem := rfl
@[simp] theorem withScript_cfg (s : State) (l : List HostAccess) : (s.withScript l).cfg = s.cfg := rfl
@[simp] theorem withScript_tlbDraws (s : State) (l : List HostAccess) : (s.withScript l).tlbDraws = s.tlbDraws := rfl
@[simp] theorem withScript_hostScript (s : State) (l : List HostAccess) : (s.withScript l).hostScript = l := rfl
@[simp] theorem withScript_hostData (s : State) (l : List HostAccess) : (s.withScript l).hostData = s.hostData := rfl

end Sys2Proof.Machine
end

