-- ==== Sys2Proof/Laws/Bitmap.lean ====
section
/-! SUPPORT. The bitmap page by page: what setting, clearing, counting and scanning do (R28, R120, R122, R124, R129). -/

namespace Sys2Proof.Machine

theorem testBit_pageMask (first count i : Nat) :
    (pageMask first count).testBit i = (decide (first ≤ i) && decide (i < first + count)) := by
  unfold pageMask
  rw [Nat.testBit_shiftLeft, Nat.testBit_two_pow_sub_one]
  by_cases h : first ≤ i
  · simp [h, show i - first < count ↔ i < first + count by omega]
  · simp [h]

@[simp] theorem used_allUsed (i : Nat) : Bitmap.allUsed.used i = true := by
  simp [Bitmap.used, Bitmap.allUsed]

theorem used_setPages (b : Bitmap) (first count i : Nat) :
    (b.setPages first count).used i = (b.used i || (decide (first ≤ i) && decide (i < first + count))) := by
  simp only [Bitmap.used, Bitmap.setPages, Nat.testBit_xor, Nat.testBit_and, testBit_pageMask]
  cases b.freeBits.testBit i <;> simp

theorem used_clearPages (b : Bitmap) (first count i : Nat) :
    (b.clearPages first count).used i = (b.used i && !(decide (first ≤ i) && decide (i < first + count))) := by
  simp only [Bitmap.used, Bitmap.clearPages, Nat.testBit_or, testBit_pageMask]
  cases b.freeBits.testBit i <;> simp

/-- Bit `k` of `BITMAP[w]` is the state of page `32 w + k` (R28). -/
theorem getLsbD_word (b : Bitmap) (w k : Nat) (hk : k < 32) : (b.word w).getLsbD k = b.used (32 * w + k) := by
  rw [Bitmap.word, BitVec.getLsbD_not, BitVec.getLsbD_ofNat, Nat.testBit_shiftRight]
  simp [Bitmap.used, hk]

/-- The pages `PMM_INIT` leaves free (R120). -/
theorem used_forMemory (maxBlocks bytes i : Nat) :
    (Bitmap.forMemory maxBlocks bytes).used i =
      !(decide (4096 ≤ i) && decide (i < min (bytes / 4096) (maxBlocks * 32))) := by
  rw [Bitmap.forMemory, used_clearPages, used_allUsed, Bool.true_and]
  simp only [pageSize, bitsPerWord, reservedPages]
  by_cases h : 4096 ≤ i
  · by_cases h' : i < min (bytes / 4096) (maxBlocks * 32)
    · rw [decide_eq_true h, decide_eq_true h', decide_eq_true (by omega)]
    · rw [decide_eq_true h, decide_eq_false h', decide_eq_false (by omega)]
  · rw [decide_eq_false h, Bool.false_and, Bool.false_and]

/-! ## Counting -/

theorem range'_split (f c n : Nat) (h : f + c ≤ n) :
    List.range' 0 n = List.range' 0 f ++ (List.range' f c ++ List.range' (f + c) (n - (f + c))) := by
  have e1 := List.range'_append_1 (s := f) (m := c) (n := n - (f + c))
  have e2 := List.range'_append_1 (s := 0) (m := f) (n := c + (n - (f + c)))
  simp only [Nat.zero_add] at e2
  rw [e1, e2]
  congr 1
  omega

theorem countP_congr_range' {p q : Nat → Bool} (s n : Nat) (h : ∀ i, s ≤ i → i < s + n → p i = q i) :
    (List.range' s n).countP p = (List.range' s n).countP q := by
  apply List.countP_congr
  intro x hx
  rw [List.mem_range'_1] at hx
  rw [h x hx.1 hx.2]

theorem countUsed_le (b : Bitmap) (s n : Nat) : b.countUsed s n ≤ n := by
  simpa [Bitmap.countUsed] using List.countP_le_length (p := b.used) (l := List.range' s n)

theorem countUsed_all (b : Bitmap) (s n : Nat) (h : ∀ i, s ≤ i → i < s + n → b.used i = true) : b.countUsed s n = n := by
  unfold Bitmap.countUsed
  rw [countP_congr_range' (q := fun _ => true) s n h]
  simp

theorem countUsed_none (b : Bitmap) (s n : Nat) (h : ∀ i, s ≤ i → i < s + n → b.used i = false) : b.countUsed s n = 0 := by
  unfold Bitmap.countUsed
  rw [countP_congr_range' (q := fun _ => false) s n h]
  simp

theorem countUsed_split (b : Bitmap) (f c n : Nat) (h : f + c ≤ n) :
    b.countUsed 0 n = b.countUsed 0 f + (b.countUsed f c + b.countUsed (f + c) (n - (f + c))) := by
  unfold Bitmap.countUsed
  rw [range'_split f c n h, List.countP_append, List.countP_append]

/-- Setting free pages of the range adds them to the count (R27). -/
theorem countUsed_setPages (b : Bitmap) (f c n : Nat) (h : f + c ≤ n) (hfree : ∀ j, f ≤ j → j < f + c → b.used j = false) :
    (b.setPages f c).countUsed 0 n = b.countUsed 0 n + c := by
  rw [countUsed_split _ f c n h, countUsed_split b f c n h, countUsed_none b f c hfree]
  have e1 : (b.setPages f c).countUsed 0 f = b.countUsed 0 f := by
    apply countP_congr_range'
    intro i _ hi
    rw [used_setPages]
    simp [show ¬ f ≤ i by omega]
  have e2 : (b.setPages f c).countUsed f c = c := by
    apply countUsed_all
    intro i h1 h2
    simp [used_setPages, h1, h2]
  have e3 : (b.setPages f c).countUsed (f + c) (n - (f + c)) = b.countUsed (f + c) (n - (f + c)) := by
    apply countP_congr_range'
    intro i hi _
    rw [used_setPages]
    simp [show ¬ i < f + c by omega]
  rw [e1, e2, e3]
  omega

/-- Clearing pages of the range takes those that were used off the count (R27). -/
theorem countUsed_clearPages (b : Bitmap) (f c n : Nat) (h : f + c ≤ n) :
    (b.clearPages f c).countUsed 0 n + b.countUsed f c = b.countUsed 0 n := by
  rw [countUsed_split _ f c n h, countUsed_split b f c n h]
  have e1 : (b.clearPages f c).countUsed 0 f = b.countUsed 0 f := by
    apply countP_congr_range'
    intro i _ hi
    rw [used_clearPages]
    simp [show ¬ f ≤ i by omega]
  have e2 : (b.clearPages f c).countUsed f c = 0 := by
    apply countUsed_none
    intro i h1 h2
    simp [used_clearPages, h1, h2]
  have e3 : (b.clearPages f c).countUsed (f + c) (n - (f + c)) = b.countUsed (f + c) (n - (f + c)) := by
    apply countP_congr_range'
    intro i hi _
    rw [used_clearPages]
    simp [show ¬ i < f + c by omega]
  rw [e1, e2, e3]
  omega

theorem countUsed_one (b : Bitmap) (i : Nat) : b.countUsed i 1 = if b.used i then 1 else 0 := by
  simp [Bitmap.countUsed, List.countP_cons]

/-- What `PMM_INIT` leaves used among the first `n` pages is the reserved region (R27, R120). -/
theorem countUsed_forMemory (maxBlocks bytes n : Nat) (h1 : 4096 ≤ n) (h2 : n ≤ min (bytes / 4096) (maxBlocks * 32)) :
    (Bitmap.forMemory maxBlocks bytes).countUsed 0 n = 4096 := by
  rw [countUsed_split _ 0 4096 n h1]
  have e1 : (Bitmap.forMemory maxBlocks bytes).countUsed 0 4096 = 4096 := by
    apply countUsed_all
    intro i _ hi
    simp [used_forMemory, show ¬ 4096 ≤ i by omega]
  have e2 : (Bitmap.forMemory maxBlocks bytes).countUsed (0 + 4096) (n - (0 + 4096)) = 0 := by
    apply countUsed_none
    intro i hi hi'
    rw [used_forMemory, decide_eq_true (show 4096 ≤ i by omega), decide_eq_true (show i < min (bytes / 4096) (maxBlocks * 32) by omega)]
    rfl
  rw [e1, e2]
  simp [Bitmap.countUsed]

/-! ## Scanning -/

/-- The scan of R122 finds `i` exactly when `i` is the lowest free page of the range. -/
theorem lowestFree_eq_some (s : State) (i : Nat) :
    s.lowestFree = some i ↔ i < s.totalPages ∧ s.bitmap.used i = false ∧ ∀ j < i, s.bitmap.used j = true := by
  unfold State.lowestFree
  rw [List.find?_range'_eq_some]
  simp only [List.mem_range'_1]
  constructor
  · rintro ⟨h1, h2, h3⟩
    refine ⟨by omega, by simpa using h1, fun j hj => by simpa using h3 j (by omega) hj⟩
  · rintro ⟨h1, h2, h3⟩
    refine ⟨by simp [h2], by omega, fun j _ hj => by simp [h3 j hj]⟩

theorem lowestFree_eq_none (s : State) :
    s.lowestFree = none ↔ ∀ j < s.totalPages, s.bitmap.used j = true := by
  unfold State.lowestFree
  rw [List.find?_eq_none]
  simp only [List.mem_range'_1]
  constructor
  · intro h j hj
    simpa using h j (by omega)
  · intro h j hj
    simp [h j (by omega)]

theorem runFree_iff (b : Bitmap) (f c : Nat) : b.runFree f c = true ↔ ∀ j, f ≤ j → j < f + c → b.used j = false := by
  simp only [Bitmap.runFree, List.all_eq_true, List.mem_range'_1]
  constructor
  · intro h j h1 h2
    simpa using h j ⟨h1, h2⟩
  · intro h j hj
    simp [h j hj.1 hj.2]

/-- The scan of R124 finds the lowest run. -/
theorem findRun_eq_some (s : State) (c f : Nat) :
    s.findRun c = some f ↔
      f + c ≤ s.totalPages ∧ s.bitmap.runFree f c = true ∧ ∀ g < f, s.bitmap.runFree g c = false := by
  unfold State.findRun
  rw [List.find?_range'_eq_some]
  simp only [List.mem_range'_1]
  constructor
  · rintro ⟨h1, h2, h3⟩
    exact ⟨by omega, h1, fun g hg => by simpa using h3 g (by omega) hg⟩
  · rintro ⟨h1, h2, h3⟩
    exact ⟨h2, by omega, fun g _ hg => by simp [h3 g hg]⟩

theorem findRun_eq_none (s : State) (c : Nat) :
    s.findRun c = none ↔ ∀ f, f + c ≤ s.totalPages → s.bitmap.runFree f c = false := by
  unfold State.findRun
  rw [List.find?_eq_none]
  simp only [List.mem_range'_1]
  constructor
  · intro h f hf
    simpa using h f (by omega)
  · intro h f hf
    simp [h f (by omega)]

/-- The two things `pfa_alloc_one` can do (R122). -/
theorem pfaAllocOne_cases (s : State) :
    (pfaAllocOne s = (0, s) ∧ ∀ j < s.totalPages, s.bitmap.used j = true) ∨
      ∃ i, pfaAllocOne s = (pageAddr i, s.takePages i 1) ∧ i < s.totalPages ∧ s.bitmap.used i = false ∧
        ∀ j < i, s.bitmap.used j = true := by
  unfold pfaAllocOne
  cases h : s.lowestFree with
  | none => exact .inl ⟨rfl, (lowestFree_eq_none s).mp h⟩
  | some i => exact .inr ⟨i, rfl, (lowestFree_eq_some s i).mp h⟩

theorem pfaAllocOne_of_lowest (s : State) (i : Nat) (h1 : i < s.totalPages) (h2 : s.bitmap.used i = false)
    (h3 : ∀ j < i, s.bitmap.used j = true) : pfaAllocOne s = (pageAddr i, s.takePages i 1) := by
  unfold pfaAllocOne
  rw [(lowestFree_eq_some s i).mpr ⟨h1, h2, h3⟩]

theorem pfaAllocOne_of_full (s : State) (h : ∀ j < s.totalPages, s.bitmap.used j = true) : pfaAllocOne s = (0, s) := by
  unfold pfaAllocOne
  rw [(lowestFree_eq_none s).mpr h]

end Sys2Proof.Machine
end

