-- ==== Sys2Proof/Laws/Memory.lean ====
section
/-! SUPPORT. Lists kept by key, bytes and words of memory: read after write, everything else unchanged, the canonical form kept
(R33, R61, R64). -/

namespace Sys2Proof.Machine

/-! ## Lists kept by key -/

theorem lookup_cons_if {κ β : Type} [DecidableEq κ] (k j : κ) (v : β) (l : List (κ × β)) :
    ((k, v) :: l).lookup j = if j = k then some v else l.lookup j := by
  rw [List.lookup_cons]
  by_cases h : j = k
  · simp [h]
  · rw [if_neg h, beq_eq_false_iff_ne.mpr h]

theorem lookup_insertByKey {κ β : Type} [DecidableEq κ] (key : κ → Nat) (hkey : Function.Injective key) (k : κ) (v : β)
    (l : List (κ × β)) (j : κ) : (insertByKey key k v l).lookup j = if j = k then some v else l.lookup j := by
  induction l with
  | nil => simp only [insertByKey, lookup_cons_if]
  | cons p rest ih =>
    obtain ⟨i, w⟩ := p
    unfold insertByKey
    by_cases h1 : key k < key i
    · rw [if_pos h1, lookup_cons_if]
    · rw [if_neg h1]
      by_cases h2 : key k = key i
      · have hki : k = i := hkey h2
        rw [if_pos h2, lookup_cons_if, lookup_cons_if, hki]
        by_cases h : j = i <;> simp [h]
      · rw [if_neg h2, lookup_cons_if, lookup_cons_if, ih]
        by_cases h : j = i
        · have hik : i ≠ k := fun e => h2 (by rw [e])
          simp [h, hik]
        · simp [h]

theorem mem_insertByKey {κ β : Type} (key : κ → Nat) (k : κ) (v : β) (l : List (κ × β)) (p : κ × β)
    (h : p ∈ insertByKey key k v l) : p = (k, v) ∨ p ∈ l := by
  induction l with
  | nil => simpa [insertByKey] using h
  | cons q rest ih =>
    obtain ⟨i, w⟩ := q
    unfold insertByKey at h
    by_cases h1 : key k < key i
    · rw [if_pos h1] at h
      simpa using h
    · rw [if_neg h1] at h
      by_cases h2 : key k = key i
      · rw [if_pos h2, List.mem_cons] at h
        exact h.imp id fun h => by simp [h]
      · rw [if_neg h2, List.mem_cons] at h
        rcases h with h | h
        · simp [h]
        · exact (ih h).imp id fun h => by simp [h]

theorem sorted_insertByKey {κ β : Type} (key : κ → Nat) (k : κ) (v : β) (l : List (κ × β))
    (h : (l.map Prod.fst).Pairwise fun a b => key a < key b) :
    ((insertByKey key k v l).map Prod.fst).Pairwise fun a b => key a < key b := by
  induction l with
  | nil => simp [insertByKey]
  | cons q rest ih =>
    obtain ⟨i, w⟩ := q
    rw [List.map_cons, List.pairwise_cons] at h
    unfold insertByKey
    by_cases h1 : key k < key i
    · rw [if_pos h1]
      simp only [List.map_cons, List.pairwise_cons, List.mem_cons]
      refine ⟨?_, h.1, h.2⟩
      rintro a (rfl | ha)
      · exact h1
      · exact h1.trans (h.1 a ha)
    · rw [if_neg h1]
      by_cases h2 : key k = key i
      · rw [if_pos h2, List.map_cons, List.pairwise_cons]
        exact ⟨fun a ha => by rw [h2]; exact h.1 a ha, h.2⟩
      · rw [if_neg h2, List.map_cons, List.pairwise_cons]
        refine ⟨fun a ha => ?_, ih h.2⟩
        obtain ⟨p, hp, rfl⟩ := List.mem_map.mp ha
        rcases mem_insertByKey key k v rest p hp with rfl | hp
        · simp only
          omega
        · exact h.1 _ (List.mem_map_of_mem hp)

/-! ## Bytes -/

theorem readByte_writeByte (m : Memory) (a b : Word) (v : Byte) :
    (m.writeByte a v).readByte b = if b = a then v else m.readByte b := by
  unfold Memory.readByte Memory.writeByte
  rw [lookup_insertByKey id Function.injective_id]
  by_cases h : b = a
  · simp [h]
  · have : ¬ b.toNat = a.toNat := fun e => h (BitVec.eq_of_toNat_eq e)
    simp [h, this]

/-- After `n` bytes are written from `a` on, a byte of that stretch is the byte of the value that belongs there, and every other byte
is as before (R61). -/
theorem readByte_writeLE (m : Memory) (a : Word) (n : Nat) (v b : Word) (hn : n ≤ 8) :
    (m.writeLE a n v).readByte b =
      if (b - a).toNat < n then (v >>> (8 * (b - a).toNat)).setWidth 8 else m.readByte b := by
  induction n generalizing m a v with
  | zero => simp [Memory.writeLE]
  | succ n ih =>
    rw [Memory.writeLE, ih _ _ _ (by omega), readByte_writeByte]
    by_cases hb : b = a
    · subst hb
      have : ¬ (b - (b + 1)).toNat < n := by bv_omega
      rw [if_neg this]
      simp
    · have hne : (b - a).toNat = (b - (a + 1)).toNat + 1 := by bv_omega
      rw [if_neg hb, hne]
      by_cases hlt : (b - (a + 1)).toNat < n
      · rw [if_pos hlt, if_pos (by omega), ← BitVec.shiftRight_add]
        congr 2
        omega
      · rw [if_neg hlt, if_neg (by omega)]

/-- A number of `n` bytes is read back from bytes that are its own (R61). -/
theorem readLE_of_bytes (m : Memory) (a : Word) (n : Nat) (v : Word)
    (h : ∀ k < n, m.readByte (a + BitVec.ofNat 64 k) = (v >>> (8 * k)).setWidth 8) :
    m.readLE a n = (v.setWidth (8 * n)).setWidth 64 := by
  induction n generalizing a v with
  | zero =>
    apply BitVec.eq_of_getLsbD_eq
    intro i hi
    simp [Memory.readLE]
  | succ n ih =>
    have h0 := h 0 (by omega)
    have htail := ih (a + 1) (v >>> 8) (fun k hk => by
      have := h (k + 1) (by omega)
      rw [← BitVec.shiftRight_add, show 8 + 8 * k = 8 * (k + 1) by omega, ← this]
      congr 1
      rw [BitVec.add_assoc]
      congr 1
      apply BitVec.eq_of_toNat_eq
      simp [Nat.add_comm])
    rw [Memory.readLE, htail]
    simp only [BitVec.add_zero, Nat.mul_zero, BitVec.ushiftRight_zero] at h0
    rw [h0]
    apply BitVec.eq_of_getLsbD_eq
    intro i hi
    simp only [BitVec.getLsbD_or, BitVec.getLsbD_shiftLeft, BitVec.getLsbD_setWidth, BitVec.getLsbD_ushiftRight]
    by_cases h8 : i < 8
    · simp [h8, hi, show i < 8 * (n + 1) by omega]
    · simp only [h8, hi, show i - 8 < 64 by omega, show 8 + (i - 8) = i by omega, decide_true, decide_false, Bool.true_and,
        Bool.not_false, Bool.false_and, Bool.or_false]
      by_cases h9 : i < 8 * (n + 1)
      · simp [h9, show i - 8 < 8 * n by omega]
      · simp [h9, show ¬ i - 8 < 8 * n by omega]

theorem readLE_congr (m m' : Memory) (a : Word) (n : Nat)
    (h : ∀ k < n, m.readByte (a + BitVec.ofNat 64 k) = m'.readByte (a + BitVec.ofNat 64 k)) : m.readLE a n = m'.readLE a n := by
  induction n generalizing a with
  | zero => rfl
  | succ n ih =>
    rw [Memory.readLE, Memory.readLE, ih (a + 1)]
    · have := h 0 (by omega)
      simp only [BitVec.add_zero] at this
      rw [this]
    · intro k hk
      have := h (k + 1) (by omega)
      rwa [show a + 1 + BitVec.ofNat 64 k = a + BitVec.ofNat 64 (k + 1) by
        rw [BitVec.add_assoc]
        congr 1
        apply BitVec.eq_of_toNat_eq
        simp [Nat.add_comm]]

/-- The bytes of a number read from memory (R61). -/
theorem byte_of_readLE (m : Memory) (a : Word) (n k : Nat) (hn : n ≤ 8) (hk : k < n) :
    (m.readLE a n).extractLsb' (8 * k) 8 = m.readByte (a + BitVec.ofNat 64 k) := by
  induction n generalizing a k with
  | zero => omega
  | succ n ih =>
    rw [Memory.readLE]
    cases k with
    | zero =>
      apply BitVec.eq_of_getLsbD_eq
      intro i hi
      simp [hi, show i < 64 by omega]
    | succ k =>
      have := ih (a + 1) k (by omega) (by omega)
      rw [show a + BitVec.ofNat 64 (k + 1) = a + 1 + BitVec.ofNat 64 k by
        rw [BitVec.add_assoc]; congr 1; apply BitVec.eq_of_toNat_eq; simp [Nat.add_comm], ← this]
      apply BitVec.eq_of_getLsbD_eq
      intro i hi
      simp only [BitVec.getLsbD_extractLsb', hi, decide_true, Bool.true_and, BitVec.getLsbD_or, BitVec.getLsbD_shiftLeft, BitVec.getLsbD_setWidth]
      rw [show 8 * (k + 1) + i - 8 = 8 * k + i by omega]
      simp [show ¬ 8 * (k + 1) + i < 8 by omega, show 8 * (k+1) + i < 64 by omega]
      intro h
      have := BitVec.getLsbD_of_ge (m.readByte a) (8 * (k + 1) + i) (by omega)
      simp_all

theorem readLE_lt (m : Memory) (a : Word) (n : Nat) (hn : n ≤ 8) : (m.readLE a n).toNat < 2 ^ (8 * n) := by
  induction n generalizing a with
  | zero => simp [Memory.readLE]
  | succ n ih =>
    rw [Memory.readLE, BitVec.toNat_or]
    have := ih (a + 1) (by omega)
    apply Nat.or_lt_two_pow
    · rw [BitVec.toNat_shiftLeft, Nat.shiftLeft_eq]
      have h2 : 2 ^ (8 * (n + 1)) = 2 ^ (8 * n) * 2 ^ 8 := by rw [← pow_add]; congr 1
      exact (Nat.mod_le _ _).trans_lt (by rw [h2]; exact Nat.mul_lt_mul_of_pos_right this (by norm_num))
    · have : (m.readByte a).toNat < 2 ^ 8 := (m.readByte a).isLt
      rw [BitVec.toNat_setWidth]
      exact (Nat.mod_le _ _).trans_lt (this.trans_le (Nat.pow_le_pow_right (by norm_num) (by omega)))

theorem shift_byte (v : Word) (k : Nat) : (v >>> (8 * k)).setWidth 8 = v.extractLsb' (8 * k) 8 := by
  apply BitVec.eq_of_getLsbD_eq
  intro i hi
  simp [hi]

/-! ## Words -/

theorem readByte_writeWord (m : Memory) (a v b : Word) :
    (m.writeWord a v).readByte b =
      if (b - a).toNat < 8 then (v >>> (8 * (b - a).toNat)).setWidth 8 else m.readByte b :=
  readByte_writeLE m a 8 v b (by omega)

/-- A word reads back as it was written (R64). -/
theorem readWord_writeWord_same (m : Memory) (a v : Word) : (m.writeWord a v).readWord a = v := by
  have := readLE_of_bytes (m.writeWord a v) a 8 v (fun k hk => by
    rw [readByte_writeWord]
    have : (a + BitVec.ofNat 64 k - a).toNat = k := by bv_omega
    rw [this, if_pos hk])
  rw [Memory.readWord, this]
  simp

/-- Two aligned words at different addresses share no byte (R62, R64). -/
theorem readWord_writeWord_other (m : Memory) (a b v : Word) (ha : a.toNat % 8 = 0) (hb : b.toNat % 8 = 0) (hne : b ≠ a) :
    (m.writeWord a v).readWord b = m.readWord b := by
  apply readLE_congr
  intro k hk
  rw [readByte_writeWord, if_neg]
  bv_omega

/-! ## The canonical form -/

theorem wf_writeByte (m : Memory) (a : Word) (v : Byte) (h : m.wf) : (m.writeByte a v).wf := by
  refine ⟨sorted_insertByKey id a.toNat v m h.1, fun c hc => ?_⟩
  rcases mem_insertByKey id a.toNat v m c hc with rfl | hc
  · exact a.isLt
  · exact h.2 c hc

theorem wf_writeLE (m : Memory) (a : Word) (n : Nat) (v : Word) (h : m.wf) : (m.writeLE a n v).wf := by
  induction n generalizing m a v with
  | zero => exact h
  | succ n ih => exact ih _ _ _ (wf_writeByte m a _ h)

theorem wf_writeWord (m : Memory) (a v : Word) (h : m.wf) : (m.writeWord a v).wf :=
  wf_writeLE m a 8 v h

/-- Reset's memory has the canonical form. -/
theorem wf_reset : State.reset.mem.wf := by
  simp [State.reset, State.blockReset, Memory.wf]

end Sys2Proof.Machine
end

