-- ==== Sys2Proof/Laws/Command.lean ====
section
/-! SUPPORT. How the parts of a command go on and end; what the accesses, the walk and the editing loop can do to the state; one
induction over each loop, and one over all fifteen commands. -/

namespace Sys2Proof.Machine

/-! ## Going on and ending -/

@[simp] theorem andThen_ok {α β : Type} (a : α) (s : State) (k : α → State → CmdResult β) :
    (CmdResult.ok a s).andThen k = k a s := rfl

@[simp] theorem andThen_busError {α β : Type} (s : State) (k : α → State → CmdResult β) :
    (CmdResult.busError s : CmdResult α).andThen k = .busError s := rfl

@[simp] theorem andThen_fault {α β : Type} (f : Fault) (k : α → State → CmdResult β) :
    (CmdResult.fault f : CmdResult α).andThen k = .fault f := rfl

@[simp] theorem conclude_ok {α : Type} (a : α) (s : State) (k : α → State → Result) :
    (CmdResult.ok a s).conclude k = k a s := rfl

@[simp] theorem conclude_busError {α : Type} (s : State) (k : α → State → Result) :
    (CmdResult.busError s : CmdResult α).conclude k = finish .errBus 0 0 s := rfl

@[simp] theorem conclude_fault {α : Type} (f : Fault) (k : α → State → Result) :
    (CmdResult.fault f : CmdResult α).conclude k = .fault f := rfl

theorem andThen_eq_ok {α β : Type} {r : CmdResult α} {k : α → State → CmdResult β} {b : β} {t : State}
    (h : r.andThen k = .ok b t) : ∃ a s, r = .ok a s ∧ k a s = .ok b t := by
  cases r with
  | ok a s => exact ⟨a, s, rfl, h⟩
  | busError s => simp at h
  | fault f => simp at h

theorem andThen_eq_busError {α β : Type} {r : CmdResult α} {k : α → State → CmdResult β} {t : State}
    (h : r.andThen k = .busError t) : r = .busError t ∨ ∃ a s, r = .ok a s ∧ k a s = .busError t := by
  cases r with
  | ok a s => exact .inr ⟨a, s, rfl, h⟩
  | busError s => exact .inl (by injection h with h; rw [h])
  | fault f => cases h

theorem finish_eq_next {st : Status} {r0 r1 : Word} {s t : State} : finish st r0 r1 s = .next t ↔ s.done st r0 r1 = t := by
  simp [finish]

/-- What holds of the state a part of a command leaves, whether it goes on or ends with `ERR_BUS`. -/
def CmdResult.Leaves {α : Type} (r : CmdResult α) (P : State → Prop) : Prop :=
  match r with
  | .ok _ t => P t
  | .busError t => P t
  | .fault _ => True

theorem leaves_andThen {α β : Type} {r : CmdResult α} {k : α → State → CmdResult β} {P : State → Prop} (hr : r.Leaves P)
    (hk : ∀ a t, r = .ok a t → P t → (k a t).Leaves P) : (r.andThen k).Leaves P := by
  cases r with
  | ok a t => exact hk a t rfl hr
  | busError t => exact hr
  | fault f => trivial

/-- That a part of a command meets no fault. -/
def CmdResult.Faultless {α : Type} (r : CmdResult α) : Prop :=
  ∀ f, r ≠ .fault f

theorem faultless_andThen {α β : Type} {r : CmdResult α} {k : α → State → CmdResult β} (hr : r.Faultless)
    (hk : ∀ a t, r = .ok a t → (k a t).Faultless) : (r.andThen k).Faultless := by
  cases r with
  | ok a t => exact hk a t rfl
  | busError t => exact fun f => by simp
  | fault f => exact absurd rfl (hr f)

/-! ## Accesses -/

theorem memRead_of_valid {a : Word} {s : State} (ha : a.toNat % 8 = 0) (hv : s.memValid a = true) :
    memRead a s = .ok (s.mem.readWord a) s := by
  simp [memRead, ha, hv]

theorem memRead_of_absent {a : Word} {s : State} (ha : a.toNat % 8 = 0) (hv : s.memValid a = false) :
    memRead a s = .busError s := by
  simp [memRead, ha, hv]

theorem memRead_eq_ok {a v : Word} {s t : State} (h : memRead a s = .ok v t) :
    a.toNat % 8 = 0 ∧ s.memValid a = true ∧ v = s.mem.readWord a ∧ t = s := by
  unfold memRead at h
  split at h
  · cases h
  · split at h
    · injection h with h1 h2
      exact ⟨by omega, by assumption, h1.symm, h2.symm⟩
    · cases h

theorem memRead_eq_busError {a : Word} {s t : State} (h : memRead a s = .busError t) : t = s := by
  unfold memRead at h
  split at h
  · cases h
  · split at h
    · cases h
    · injection h with h
      exact h.symm

theorem memWrite_of_valid {a v : Word} {s : State} (ha : a.toNat % 8 = 0) (hv : s.memValid a = true) :
    memWrite a v s = .ok () (s.storeWord a v) := by
  simp [memWrite, ha, hv]

theorem memWrite_of_absent {a v : Word} {s : State} (ha : a.toNat % 8 = 0) (hv : s.memValid a = false) :
    memWrite a v s = .busError s := by
  simp [memWrite, ha, hv]

theorem memWrite_eq_ok {a v : Word} {s t : State} (h : memWrite a v s = .ok () t) :
    a.toNat % 8 = 0 ∧ s.memValid a = true ∧ t = s.storeWord a v := by
  unfold memWrite at h
  split at h
  · cases h
  · split at h
    · injection h with h1 h2
      exact ⟨by omega, by assumption, h2.symm⟩
    · cases h

theorem memWrite_eq_busError {a v : Word} {s t : State} (h : memWrite a v s = .busError t) : t = s := by
  unfold memWrite at h
  split at h
  · cases h
  · split at h
    · cases h
    · injection h with h
      exact h.symm

theorem leaves_memRead (a : Word) (s : State) (P : State → Prop) (h : P s) : (memRead a s).Leaves P := by
  unfold memRead
  split
  · trivial
  · split <;> exact h

theorem leaves_memWrite (a v : Word) (s : State) (P : State → Prop) (h : P s) (hs : a.toNat % 8 = 0 → P (s.storeWord a v)) :
    (memWrite a v s).Leaves P := by
  unfold memWrite
  split
  · trivial
  · split
    · exact hs (by omega)
    · exact h

theorem faultless_memRead (a : Word) (s : State) (ha : a.toNat % 8 = 0) : (memRead a s).Faultless := by
  intro f
  unfold memRead
  split
  · omega
  · split <;> simp

theorem faultless_memWrite (a v : Word) (s : State) (ha : a.toNat % 8 = 0) : (memWrite a v s).Faultless := by
  intro f
  unfold memWrite
  split
  · omega
  · split <;> simp

/-! ## Alignment (R62, R74) -/

theorem pageAddr_aligned (i : Nat) : (pageAddr i).toNat % 4096 = 0 := by
  simp only [pageAddr, pageSize, BitVec.toNat_ofNat]
  omega

theorem frame_aligned (e : Word) : (frame e).toNat % 4096 = 0 := by
  have h : (frame e) &&& 4095#64 = 0#64 := by
    unfold frame frameMask
    rw [BitVec.and_assoc]
    simp
  have h2 := congrArg BitVec.toNat h
  rw [BitVec.toNat_and] at h2
  have h3 := Nat.and_two_pow_sub_one_eq_mod (frame e).toNat 12
  simp only [BitVec.toNat_ofNat] at h2
  norm_num at h2 h3
  omega

theorem entryAddr_toNat (t : Word) (idx : BitVec 9) (ht : t.toNat % 4096 = 0) :
    (entryAddr t idx).toNat = t.toNat + 8 * idx.toNat := by
  have h1 := t.isLt
  have h2 := idx.isLt
  unfold entryAddr
  rw [BitVec.toNat_add, BitVec.toNat_mul, BitVec.toNat_setWidth, show (8 : Word).toNat = 8 from rfl]
  omega

theorem entryAddr_aligned (t : Word) (idx : BitVec 9) (ht : t.toNat % 4096 = 0) : (entryAddr t idx).toNat % 8 = 0 := by
  rw [entryAddr_toNat t idx ht]
  omega

/-- Entries of aligned tables meet only if table and index are the same (R74). -/
theorem entryAddr_inj {t u : Word} {i j : BitVec 9} (ht : t.toNat % 4096 = 0) (hu : u.toNat % 4096 = 0)
    (h : entryAddr t i = entryAddr u j) : t = u ∧ i = j := by
  have h' := congrArg BitVec.toNat h
  rw [entryAddr_toNat t i ht, entryAddr_toNat u j hu] at h'
  have := i.isLt
  have := j.isLt
  exact ⟨BitVec.eq_of_toNat_eq (by omega), BitVec.eq_of_toNat_eq (by omega)⟩

theorem pageIndex_entryAddr (t : Word) (idx : BitVec 9) (ht : t.toNat % 4096 = 0) :
    pageIndex (entryAddr t idx) = pageIndex t := by
  have := idx.isLt
  unfold pageIndex pageSize
  rw [entryAddr_toNat t idx ht]
  omega

/-! ## Loops -/

theorem leaves_zeroEntries (P : State → Prop) (hstore : ∀ s a v, P s → a.toNat % 8 = 0 → P (s.storeWord a v)) (p : Word)
    (ks : List Nat) (s : State) (h : P s) : (zeroEntries p ks s).Leaves P := by
  induction ks generalizing s with
  | nil => exact h
  | cons k ks ih =>
    exact leaves_andThen (leaves_memWrite _ _ _ _ h (hstore _ _ _ h)) fun _ t _ ht => ih t ht

theorem faultless_zeroEntries (p : Word) (hp : p.toNat % 8 = 0) (ks : List Nat) (s : State) :
    (zeroEntries p ks s).Faultless := by
  induction ks generalizing s with
  | nil => exact fun f => by simp [zeroEntries]
  | cons k ks ih =>
    refine faultless_andThen (faultless_memWrite _ _ _ ?_) fun _ t _ => ih t
    rw [BitVec.toNat_add, BitVec.toNat_ofNat]
    omega

theorem leaves_descend (virt : Word) (ls : List Level) (t : Word) (s : State) : (descend virt ls t s).Leaves (· = s) := by
  induction ls generalizing t with
  | nil => exact rfl
  | cons l ls ih =>
    refine leaves_andThen (leaves_memRead _ _ _ rfl) fun e u _ hu => ?_
    subst hu
    split
    · exact ih _
    · exact rfl

theorem faultless_descend (virt : Word) (ls : List Level) (t : Word) (s : State) (ht : t.toNat % 4096 = 0) :
    (descend virt ls t s).Faultless := by
  induction ls generalizing t s with
  | nil => exact fun f => by simp [descend]
  | cons l ls ih =>
    refine faultless_andThen (faultless_memRead _ _ (entryAddr_aligned _ _ ht)) fun e u _ => ?_
    split
    · exact ih _ _ (frame_aligned e)
    · exact fun f => by simp

theorem descend_aligned {virt : Word} {ls : List Level} {t u : Word} {s s' : State} (ht : t.toNat % 4096 = 0)
    (h : descend virt ls t s = .ok (some u) s') : u.toNat % 4096 = 0 := by
  induction ls generalizing t s with
  | nil =>
    simp only [descend, CmdResult.ok.injEq, Option.some.injEq] at h
    rw [← h.1]
    exact ht
  | cons l ls ih =>
    obtain ⟨e, s1, _, h2⟩ := andThen_eq_ok h
    split at h2
    · exact ih (frame_aligned e) h2
    · simp at h2

theorem leaves_walk (root virt : Word) (s : State) : (walk root virt s).Leaves (· = s) := by
  refine leaves_andThen (leaves_descend virt _ root s) fun r u _ hu => ?_
  subst hu
  split
  · exact rfl
  · refine leaves_andThen (leaves_memRead _ _ _ rfl) fun e w _ hw => ?_
    exact hw

theorem faultless_walk (root virt : Word) (s : State) (hr : root.toNat % 4096 = 0) : (walk root virt s).Faultless := by
  refine faultless_andThen (faultless_descend virt _ root s hr) fun r u hu => ?_
  split
  · exact fun f => by simp
  · refine faultless_andThen (faultless_memRead _ _ (entryAddr_aligned _ _ (descend_aligned hr hu))) fun e w _ => ?_
    exact fun f => by simp

/-- A walk finds a present entry, at the address the memory has it. -/
theorem walk_found {root virt e a : Word} {s s' : State} (h : walk root virt s = .ok (.found e a) s') :
    present e = true ∧ e = s.mem.readWord a := by
  obtain ⟨r, s1, h1, h2⟩ := andThen_eq_ok h
  have hs : s1 = s := by
    have := leaves_descend virt nonLeafLevels root s
    rw [h1] at this
    exact this
  subst hs
  split at h2
  · simp at h2
  · obtain ⟨e', s2, h3, h4⟩ := andThen_eq_ok h2
    obtain ⟨_, _, h5, _⟩ := memRead_eq_ok h3
    injection h4 with h6 _
    split at h6
    · injection h6 with h7 h8
      subst h7 h8
      exact ⟨by assumption, h5⟩
    · simp at h6

/-! ## One induction over the editing loops

A property that a store, an allocation and an invalidation keep is kept by every part of a map. -/

theorem leaves_installTable (P : State → Prop) (hstore : ∀ s a v, P s → a.toNat % 8 = 0 → P (s.storeWord a v))
    (htake : ∀ s i, P s → i < s.totalPages → s.bitmap.used i = false → (∀ j < i, s.bitmap.used j = true) → P (s.takePages i 1))
    (a : Word) (s : State) (h : P s) : (installTable a s).Leaves P := by
  unfold installTable
  have key : ∀ n u, P u → (if n = 0 then CmdResult.ok (none : Option Word) u
      else (zeroPage n u).andThen fun _ s => (memWrite a (n ||| tableFlags) s).andThen fun _ s => .ok (some n) s).Leaves P := by
    intro n u hu
    split
    · exact hu
    · refine leaves_andThen (leaves_zeroEntries P hstore _ _ _ hu) fun _ v _ hv => ?_
      exact leaves_andThen (leaves_memWrite _ _ _ _ hv (hstore _ _ _ hv)) fun _ w _ hw => hw
  rcases pfaAllocOne_cases s with ⟨h1, _⟩ | ⟨i, h1, h2, h3, h4⟩
  · rw [h1]
    exact key 0 s h
  · rw [h1]
    exact key _ _ (htake s i h h2 h3 h4)

theorem leaves_descendCreating (P : State → Prop) (hstore : ∀ s a v, P s → a.toNat % 8 = 0 → P (s.storeWord a v))
    (htake : ∀ s i, P s → i < s.totalPages → s.bitmap.used i = false → (∀ j < i, s.bitmap.used j = true) → P (s.takePages i 1))
    (virt : Word) (ls : List Level) (t : Word) (s : State) (h : P s) : (descendCreating virt ls t s).Leaves P := by
  induction ls generalizing t s with
  | nil => exact h
  | cons l ls ih =>
    refine leaves_andThen (leaves_memRead _ _ _ h) fun e u _ hu => ?_
    split
    · exact ih _ _ hu
    · refine leaves_andThen (leaves_installTable P hstore htake _ _ hu) fun r v _ hv => ?_
      split
      · exact hv
      · exact ih _ _ hv

theorem leaves_ptwMap (P : State → Prop) (hstore : ∀ s a v, P s → a.toNat % 8 = 0 → P (s.storeWord a v))
    (htake : ∀ s i, P s → i < s.totalPages → s.bitmap.used i = false → (∀ j < i, s.bitmap.used j = true) → P (s.takePages i 1))
    (hinv : ∀ s n, P s → P (tlbInvalidate n s)) (virt phys flags : Word) (s : State) (h : P s) :
    (ptwMap virt phys flags s).Leaves P := by
  refine leaves_andThen (leaves_descendCreating P hstore htake virt _ _ _ h) fun r u _ hu => ?_
  split
  · exact hu
  · exact leaves_andThen (leaves_memWrite _ _ _ _ hu (hstore _ _ _ hu)) fun _ v _ hv => hinv _ _ hv

theorem leaves_identityMap (P : State → Prop) (hstore : ∀ s a v, P s → a.toNat % 8 = 0 → P (s.storeWord a v))
    (htake : ∀ s i, P s → i < s.totalPages → s.bitmap.used i = false → (∀ j < i, s.bitmap.used j = true) → P (s.takePages i 1))
    (hinv : ∀ s n, P s → P (tlbInvalidate n s)) (ks : List Nat) (s : State) (h : P s) :
    (identityMap ks s).Leaves P := by
  induction ks generalizing s with
  | nil => exact h
  | cons k ks ih =>
    refine leaves_andThen (leaves_ptwMap P hstore htake hinv _ _ _ _ h) fun r u _ hu => ?_
    split
    · exact ih u hu
    · exact hu

theorem faultless_installTable (a : Word) (ha : a.toNat % 8 = 0) (s : State) : (installTable a s).Faultless := by
  have key : ∀ (n : Word) (u : State), n.toNat % 4096 = 0 → (if n = 0 then CmdResult.ok (none : Option Word) u
      else (zeroPage n u).andThen fun _ s => (memWrite a (n ||| tableFlags) s).andThen fun _ s => .ok (some n) s).Faultless := by
    intro n u hn
    split
    · exact fun f => by simp
    · refine faultless_andThen (faultless_zeroEntries n (by omega) _ _) fun _ v _ => ?_
      exact faultless_andThen (faultless_memWrite _ _ _ ha) fun _ w _ f => by simp
  unfold installTable
  rcases pfaAllocOne_cases s with ⟨h1, _⟩ | ⟨i, h1, _⟩
  · rw [h1]
    exact key 0 s rfl
  · rw [h1]
    exact key _ _ (pageAddr_aligned i)

theorem installTable_aligned {a n : Word} {s s' : State} (h : installTable a s = .ok (some n) s') : n.toNat % 4096 = 0 := by
  have key : ∀ (n' : Word) (u : State), n'.toNat % 4096 = 0 → (if n' = 0 then CmdResult.ok (none : Option Word) u
      else (zeroPage n' u).andThen fun _ s => (memWrite a (n' ||| tableFlags) s).andThen fun _ s => .ok (some n') s) =
        .ok (some n) s' → n.toNat % 4096 = 0 := by
    intro n' u hn h
    split at h
    · simp at h
    · obtain ⟨_, _, _, h2⟩ := andThen_eq_ok h
      obtain ⟨_, _, _, h3⟩ := andThen_eq_ok h2
      injection h3 with h4 _
      injection h4 with h5
      rw [← h5]
      exact hn
  unfold installTable at h
  rcases pfaAllocOne_cases s with ⟨h1, _⟩ | ⟨i, h1, _⟩
  · rw [h1] at h
    exact key 0 s rfl h
  · rw [h1] at h
    exact key _ _ (pageAddr_aligned i) h

theorem faultless_descendCreating (virt : Word) (ls : List Level) (t : Word) (s : State) (ht : t.toNat % 4096 = 0) :
    (descendCreating virt ls t s).Faultless := by
  induction ls generalizing t s with
  | nil => exact fun f => by simp [descendCreating]
  | cons l ls ih =>
    refine faultless_andThen (faultless_memRead _ _ (entryAddr_aligned _ _ ht)) fun e u _ => ?_
    split
    · exact ih _ _ (frame_aligned e)
    · refine faultless_andThen (faultless_installTable _ (entryAddr_aligned _ _ ht) _) fun r v hv => ?_
      split
      · exact fun f => by simp
      · exact ih _ _ (installTable_aligned hv)

theorem descendCreating_aligned {virt : Word} {ls : List Level} {t u : Word} {s s' : State} (ht : t.toNat % 4096 = 0)
    (h : descendCreating virt ls t s = .ok (some u) s') : u.toNat % 4096 = 0 := by
  induction ls generalizing t s with
  | nil =>
    simp only [descendCreating, CmdResult.ok.injEq, Option.some.injEq] at h
    rw [← h.1]
    exact ht
  | cons l ls ih =>
    obtain ⟨e, s1, _, h2⟩ := andThen_eq_ok h
    split at h2
    · exact ih (frame_aligned e) h2
    · obtain ⟨r, s2, h3, h4⟩ := andThen_eq_ok h2
      split at h4
      · simp at h4
      · exact ih (installTable_aligned h3) h4

theorem faultless_ptwMap (virt phys flags : Word) (s : State) (h : s.root.toNat % 4096 = 0) :
    (ptwMap virt phys flags s).Faultless := by
  refine faultless_andThen (faultless_descendCreating virt _ _ _ h) fun r u hu => ?_
  split
  · exact fun f => by simp
  · exact faultless_andThen (faultless_memWrite _ _ _ (entryAddr_aligned _ _ (descendCreating_aligned h hu))) fun _ v _ f => by simp

theorem ptwMap_root {virt phys flags : Word} {s s' : State} {b : Bool} (h : ptwMap virt phys flags s = .ok b s') :
    s'.root = s.root := by
  have := leaves_ptwMap (fun u => u.root = s.root) (fun _ _ _ h _ => h) (fun _ _ h _ _ _ => h) (fun _ _ h => h) virt phys flags s rfl
  rw [h] at this
  exact this

theorem faultless_identityMap (ks : List Nat) (s : State) (h : s.root.toNat % 4096 = 0) : (identityMap ks s).Faultless := by
  induction ks generalizing s with
  | nil => exact fun f => by simp [identityMap]
  | cons k ks ih =>
    refine faultless_andThen (faultless_ptwMap _ _ _ _ h) fun r u hu => ?_
    split
    · exact ih u (by rw [ptwMap_root hu]; exact h)
    · exact fun f => by simp

end Sys2Proof.Machine
end

