-- ==== Sys2Proof/Laws/Exec.lean ====
section
/-! SUPPORT. One induction over all fifteen commands: a property kept by each thing a command can do is kept by every command. -/

namespace Sys2Proof.Machine

/-- The commands that store to memory (R77). -/
def storing : List Instr := [.vmmInit, .vmmMap, .vmmUnmap]

/-- The commands that take frames (R122, R125). -/
def taking : List Instr := [.pmmAlloc, .pmmAllocn, .vmmInit, .vmmMap]

/-- The commands that release frames (R128, R129). -/
def releasing : List Instr := [.pmmFree, .pmmFreen]

/-- The commands that invalidate a page of the cache (R183). -/
def invalidating : List Instr := [.vmmInit, .vmmMap, .vmmUnmap, .tlbInvlpg]

/-- What a property must be kept by so that the command `i` keeps it: each named update of the state that `i` makes, under what holds
when it makes it. Which command makes which update stands here once. -/
structure Kept (i : Instr) (P : State → Prop) : Prop where
  done : ∀ s st r0 r1, P s → (i ≠ .tlbXlate → r1 = 0) → r1.toNat < 4096 → P (s.done st r0 r1)
  store : i ∈ storing → ∀ s a v, P s → a.toNat % 8 = 0 → P (s.storeWord a v)
  take : i ∈ taking → ∀ s f c, P s → f + c ≤ s.totalPages → (∀ j, f ≤ j → j < f + c → s.bitmap.used j = false) → P (s.takePages f c)
  release : i ∈ releasing → ∀ s f c, P s → s.flag .pmmReady = true → reservedPages ≤ f → f + c ≤ s.totalPages → P (s.releasePages f c)
  init : i = .pmmInit → ∀ s n, P s → s.flag .pmmReady = false → reservedBytes ≤ n → n < 2 ^ 64 → P (s.initFrames n)
  newRoot : i = .vmmInit → ∀ s before i, P s → P before → before.flag .pmmReady = true → i < before.totalPages →
    before.bitmap.used i = false → P (s.setRoot (pageAddr i))
  switch : i = .vmmSwitch → ∀ s t, P s → t.toNat % 4096 = 0 → P (tlbFlush ((s.setActiveRoot t).raiseFlag .activeValid))
  vmmReady : i = .vmmInit → ∀ s, P s → s.flag .pmmReady = true → P (s.raiseFlag .vmmReady)
  invalidate : i ∈ invalidating → ∀ s n, P s → P (tlbInvalidate n s)
  fill : i = .tlbXlate → ∀ s n e, P s → present e = true → s.tlb.find n = none → P (tlbFill n e s)

theorem entryFlags_lt (e : Word) : (entryFlags e).toNat < 4096 := by
  unfold entryFlags
  rw [BitVec.toNat_setWidth]
  have := (e.extractLsb' 0 12).isLt
  omega

theorem voff_eq_zero_iff (v : Word) : voff v = 0 ↔ v.toNat % 4096 = 0 := by
  unfold voff
  rw [← BitVec.toNat_inj, BitVec.toNat_setWidth, BitVec.extractLsb'_toNat, show (0 : Word).toNat = 0 from rfl,
    Nat.shiftRight_zero]
  omega

theorem Kept.takeOne {i : Instr} {P : State → Prop} (k : Kept i P) (hi : i ∈ taking) (s : State) (p : Nat) (h : P s)
    (h1 : p < s.totalPages) (h2 : s.bitmap.used p = false) (_ : ∀ j < p, s.bitmap.used j = true) : P (s.takePages p 1) :=
  k.take hi s p 1 h (by omega) fun j h3 h4 => by rwa [show j = p by omega]

theorem keeps_finish {i : Instr} {P : State → Prop} (k : Kept i P) {st : Status} {r0 r1 : Word} {s t : State} (h : P s)
    (h0 : i ≠ .tlbXlate → r1 = 0) (h1 : r1.toNat < 4096) (hx : finish st r0 r1 s = .next t) : P t := by
  rw [finish_eq_next] at hx
  exact hx ▸ k.done s st r0 r1 h h0 h1

theorem keeps_conclude {α : Type} {i : Instr} {P : State → Prop} (k : Kept i P) {r : CmdResult α} {f : α → State → Result} {t : State}
    (hr : r.Leaves P) (hf : ∀ a s, r = .ok a s → P s → f a s = .next t → P t) (hx : r.conclude f = .next t) : P t := by
  cases r with
  | ok a s => exact hf a s rfl hr hx
  | busError s => exact keeps_finish k hr (fun _ => rfl) (by simp) hx
  | fault f => cases hx

/-- Whatever part of a command a map or a run of maps is, it leaves `FLAGS` as it was. -/
theorem leaves_flags_identityMap (ks : List Nat) (s : State) : (identityMap ks s).Leaves fun u => u.flags = s.flags :=
  leaves_identityMap (fun u => u.flags = s.flags) (fun _ _ _ h _ => h) (fun _ _ h _ _ _ => h) (fun _ _ h => h) ks s rfl

theorem leaves_flags_zeroPage (p : Word) (s : State) : (zeroPage p s).Leaves fun u => u.flags = s.flags :=
  leaves_zeroEntries (fun u => u.flags = s.flags) (fun _ _ _ h _ => h) p _ s rfl

/-- Every command keeps what each of its updates keeps. -/
theorem exec_keeps {i : Instr} {P : State → Prop} (k : Kept i P) {s t : State} (h : P s) (hx : exec i s = .next t) : P t := by
  have z : (0 : Word).toNat < 4096 := by simp
  have e {st r0} {u : State} (hu : P u) (hx : finish st r0 0 u = .next t) : P t := keeps_finish k hu (fun _ => rfl) z hx
  cases i with
  | pmmInit =>
    simp only [exec, execPmmInit] at hx
    split at hx
    · exact e h hx
    · split at hx
      · exact e h hx
      · exact e (k.init rfl s _ h (by simpa using ‹¬ s.flag .pmmReady = true›) (by omega) s.arg0.isLt) hx
  | pmmAlloc =>
    simp only [exec, execPmmAlloc] at hx
    split at hx
    · exact e h hx
    · rcases pfaAllocOne_cases s with ⟨h1, _⟩ | ⟨i, h1, h2, h3, h4⟩
      · rw [h1] at hx
        exact e h hx
      · rw [h1] at hx
        have hu := k.takeOne (by decide) s i h h2 h3 h4
        simp only at hx
        split at hx
        · exact e hu hx
        · exact e hu hx
  | pmmAllocn =>
    simp only [exec, execPmmAllocn] at hx
    split at hx
    · exact e h hx
    · split at hx
      · exact e h hx
      · split at hx
        · exact e h hx
        · rename_i f hf
          obtain ⟨h1, h2, _⟩ := (findRun_eq_some s _ f).mp hf
          exact e (k.take (by decide) s f _ h h1 ((runFree_iff _ _ _).mp h2)) hx
  | pmmFree =>
    simp only [exec, execPmmFree] at hx
    split at hx
    · exact e h hx
    · split at hx
      · exact e h hx
      · exact e (k.release (by decide) s _ _ h (by simpa using ‹¬ (!s.flag .pmmReady) = true›) (by omega) (by omega)) hx
  | pmmFreen =>
    simp only [exec, execPmmFreen] at hx
    split at hx
    · exact e h hx
    · split at hx
      · exact e h hx
      · split at hx
        · exact e h hx
        · exact e (k.release (by decide) s _ _ h (by simpa using ‹¬ (!s.flag .pmmReady) = true›) (by omega) (by omega)) hx
  | pmmTotal => exact e h hx
  | pmmUsed => exact e h hx
  | pmmFreemem => exact e h hx
  | vmmInit =>
    simp only [exec, execVmmInit] at hx
    split at hx
    · exact e h hx
    · split at hx
      · exact e h hx
      · have hr : s.flag .pmmReady = true := by simpa using ‹¬ (!s.flag .pmmReady) = true›
        rcases pfaAllocOne_cases s with ⟨h1, _⟩ | ⟨i, h1, h2, h3, h4⟩
        · rw [h1] at hx
          exact e h hx
        · rw [h1] at hx
          simp only at hx
          have hu := k.takeOne (by decide) s i h h2 h3 h4
          split at hx
          · exact e hu hx
          · refine keeps_conclude k (leaves_zeroEntries P (k.store (by decide)) _ _ _ hu) (fun _ v hv1 hv hx => ?_) hx
            have hroot := k.newRoot rfl v s i hv h hr h2 h3
            refine keeps_conclude k (leaves_identityMap P (k.store (by decide)) (k.takeOne (by decide)) (k.invalidate (by decide)) _ _ hroot) (fun b w hw1 hw hx => ?_) hx
            split at hx
            · refine e (k.vmmReady rfl w hw ?_) hx
              have f1 := leaves_flags_zeroPage (pageAddr i) (s.takePages i 1)
              have f2 := leaves_flags_identityMap (List.range' 0 idmapPages) (v.setRoot (pageAddr i))
              rw [zeroPage, hv1] at f1
              rw [hw1] at f2
              simp only [CmdResult.Leaves, setRoot_flags, takePages_flags] at f1 f2
              simpa [State.flag, f1, f2] using hr
            · exact e hw hx
  | vmmMap =>
    simp only [exec, execVmmMap] at hx
    split at hx
    · exact e h hx
    · refine keeps_conclude k (leaves_ptwMap P (k.store (by decide)) (k.takeOne (by decide)) (k.invalidate (by decide)) _ _ _ _ h) (fun b u _ hu hx => ?_) hx
      split at hx <;> exact e hu hx
  | vmmUnmap =>
    simp only [exec, execVmmUnmap] at hx
    split at hx
    · exact e h hx
    · have hd := leaves_descend s.arg0 nonLeafLevels s.root s
      cases hdd : descend s.arg0 nonLeafLevels s.root s with
      | fault f => rw [hdd] at hx; cases hx
      | busError u =>
        rw [hdd] at hx hd
        exact e (by rw [show u = s from hd]; exact h) hx
      | ok r u =>
        rw [hdd] at hx hd
        obtain rfl : u = s := hd
        simp only [conclude_ok] at hx
        split at hx
        · exact e h hx
        · refine keeps_conclude k (leaves_memWrite _ _ _ _ h (k.store (by decide) _ _ _ h)) (fun _ v _ hv hx => ?_) hx
          exact e (k.invalidate (by decide) _ _ hv) hx
  | vmmGetpa =>
    simp only [exec, execVmmGetpa] at hx
    split at hx
    · exact e h hx
    · have hw := leaves_walk s.root s.arg0 s
      cases hww : walk s.root s.arg0 s with
      | fault f => rw [hww] at hx; cases hx
      | busError u =>
        rw [hww] at hx hw
        exact e (by rw [show u = s from hw]; exact h) hx
      | ok r u =>
        rw [hww] at hx hw
        obtain rfl : u = s := hw
        simp only [conclude_ok] at hx
        split at hx <;> exact e h hx
  | vmmSwitch =>
    simp only [exec, execVmmSwitch] at hx
    split at hx
    · exact e h hx
    · refine e (k.switch rfl s s.arg0 h ?_) hx
      exact (voff_eq_zero_iff _).mp (by simpa using ‹¬ voff s.arg0 ≠ 0›)
  | tlbXlate =>
    simp only [exec, execTlbXlate] at hx
    split at hx
    · exact e h hx
    · split at hx
      · exact keeps_finish k h (fun h => absurd rfl h) (entryFlags_lt _) hx
      · rename_i hnone
        have hw := leaves_walk s.activeRoot s.arg0 s
        cases hww : walk s.activeRoot s.arg0 s with
        | fault f => rw [hww] at hx; cases hx
        | busError u =>
          rw [hww] at hx hw
          exact e (by rw [show u = s from hw]; exact h) hx
        | ok r u =>
          rw [hww] at hx hw
          obtain rfl : u = s := hw
          simp only [conclude_ok] at hx
          split at hx
          · exact e h hx
          · exact keeps_finish k (k.fill rfl _ _ _ h (walk_found hww).1 hnone) (fun h => absurd rfl h) (entryFlags_lt _) hx
  | tlbInvlpg => exact e (k.invalidate (by decide) _ _ h) hx

end Sys2Proof.Machine
end

