-- ==== Sys2Proof/Laws/Checks.lean ====
section
/-! SUPPORT. How each status ends a command, field by field (R221), and that a failing check ends a command at once (R222, R224). -/

namespace Sys2Proof.Machine

theorem finish_ok (r0 r1 : Word) (s : State) :
    finish .ok r0 r1 s = .next { s with status := 0#32, res0 := r0, res1 := r1 } := rfl

theorem finish_fail (r0 r1 : Word) (s : State) :
    finish .fail r0 r1 s = .next { s with status := 1#32, res0 := r0, res1 := r1 } := rfl

theorem finish_errCmd (r0 r1 : Word) (s : State) :
    finish .errCmd r0 r1 s = .next { s with status := 2#32, res0 := r0, res1 := r1, flags := s.flags ||| 8#32 } := rfl

theorem finish_errState (r0 r1 : Word) (s : State) :
    finish .errState r0 r1 s = .next { s with status := 3#32, res0 := r0, res1 := r1, flags := s.flags ||| 8#32 } := rfl

theorem finish_errArg (r0 r1 : Word) (s : State) :
    finish .errArg r0 r1 s = .next { s with status := 4#32, res0 := r0, res1 := r1, flags := s.flags ||| 8#32 } := rfl

theorem finish_errRange (r0 r1 : Word) (s : State) :
    finish .errRange r0 r1 s = .next { s with status := 5#32, res0 := r0, res1 := r1, flags := s.flags ||| 8#32 } := rfl

theorem finish_errBus (r0 r1 : Word) (s : State) :
    finish .errBus r0 r1 s = .next { s with status := 6#32, res0 := r0, res1 := r1, flags := s.flags ||| 8#32 } := rfl

theorem voff_eq_zero_iff_bits (v : Word) : voff v = 0 ↔ v.extractLsb' 0 12 = 0#12 := by
  unfold voff
  rw [← BitVec.toNat_inj, ← BitVec.toNat_inj, BitVec.toNat_setWidth]
  have := (v.extractLsb' 0 12).isLt
  simp only [BitVec.toNat_ofNat, show (0 : Word).toNat = 0 from rfl]
  omega

/-- Readiness is checked first (R222, R224). -/
theorem exec_of_stateError {i : Instr} {s : State} (h : stateError s i) : exec i s = finish .errState 0 0 s := by
  cases i <;> simp only [stateError] at h
  case vmmInit =>
    rcases h with h | h
    · simp [exec, execVmmInit, h]
    · cases hv : s.flag .vmmReady <;> simp [exec, execVmmInit, h, hv]
  all_goals
    simp [exec, execPmmInit, execPmmAlloc, execPmmAllocn, execPmmFree, execPmmFreen, execVmmMap, execVmmUnmap, execVmmGetpa,
      execTlbXlate, h]

/-- Then the operands (R222, R224). -/
theorem exec_of_argError {i : Instr} {s : State} (h : ¬ stateError s i) (h1 : argError s i) :
    exec i s = finish .errArg 0 0 s := by
  cases i <;> simp only [stateError, argError, not_false_eq_true] at h h1
  case pmmInit => simp [exec, execPmmInit, h, h1]
  case pmmAllocn => simp [exec, execPmmAllocn, h, h1]
  case vmmSwitch =>
    have : voff s.arg0 ≠ 0 := fun e => h1 ((voff_eq_zero_iff_bits _).mp e)
    simp only [exec, execVmmSwitch, if_pos this]

/-- Then the page range (R222, R224). -/
theorem exec_of_rangeError {i : Instr} {s : State} (h : ¬ stateError s i) (h1 : rangeError s i) :
    exec i s = finish .errRange 0 0 s := by
  cases i <;> simp only [stateError, rangeError] at h h1
  case pmmFree =>
    have : pageIndex s.arg0 < reservedPages ∨ s.totalPages ≤ pageIndex s.arg0 := h1
    simp only [exec, execPmmFree, this, if_true]
    simp [h]
  case pmmFreen =>
    have h2 : pageIndex s.arg0 < reservedPages ∨ s.totalPages < pageIndex s.arg0 + s.arg1.toNat := h1.2
    have h3 : ¬ s.arg1 = 0 := fun e => by simp [e] at h1
    simp only [exec, execPmmFreen, h2, if_true, h3, if_false]
    simp [h]

end Sys2Proof.Machine
end

