-- ==== Sys2Proof/Laws/Beside.lean ====
section
/-! SUPPORT. What a command does not read (R94, R150): beside other operands, another host and another active root it does the same. -/

namespace Sys2Proof.Machine

/-- Other operands, another host, another active root. -/
structure Beside where
  a0 : Word
  a1 : Word
  a2 : Word
  r : Word
  script : List HostAccess
  d : Word

/-- A state with them. -/
def State.beside (b : Beside) (s : State) : State :=
  { s with arg0 := b.a0, arg1 := b.a1, arg2 := b.a2, activeRoot := b.r, hostScript := b.script, hostData := b.d }

/-- A part of a command that leaves such a state. -/
def CmdResult.beside {α : Type} (b : Beside) : CmdResult α → CmdResult α
  | .ok a s => .ok a (s.beside b)
  | .busError s => .busError (s.beside b)
  | .fault f => .fault f

/-- A step that leaves such a state. -/
def besideResult (b : Beside) : Result → Result
  | .next s => .next (s.beside b)
  | .fault f => .fault f
  | .refused r => .refused r

theorem beside_andThen {α β : Type} (b : Beside) (r : CmdResult α) (k k' : α → State → CmdResult β)
    (hk : ∀ a s, k' a (s.beside b) = (k a s).beside b) : (r.beside b).andThen k' = (r.andThen k).beside b := by
  cases r with
  | ok a s => exact hk a s
  | busError s => rfl
  | fault f => rfl

theorem beside_conclude {α : Type} (b : Beside) (r : CmdResult α) (k k' : α → State → Result)
    (hk : ∀ a s, r = .ok a s → k' a (s.beside b) = besideResult b (k a s)) :
    (r.beside b).conclude k' = besideResult b (r.conclude k) := by
  cases r with
  | ok a s => exact hk a s rfl
  | busError s => rfl
  | fault f => rfl

theorem beside_finish (b : Beside) (st : Status) (r0 r1 : Word) (s : State) :
    finish st r0 r1 (s.beside b) = besideResult b (finish st r0 r1 s) := rfl

theorem beside_memRead (b : Beside) (a : Word) (s : State) : memRead a (s.beside b) = (memRead a s).beside b := by
  unfold memRead
  split
  · rfl
  · rw [show (s.beside b).memValid a = s.memValid a from rfl]
    split <;> rfl

theorem beside_memWrite (b : Beside) (a v : Word) (s : State) : memWrite a v (s.beside b) = (memWrite a v s).beside b := by
  unfold memWrite
  split
  · rfl
  · rw [show (s.beside b).memValid a = s.memValid a from rfl]
    split <;> rfl

theorem beside_pfaAllocOne (b : Beside) (s : State) :
    pfaAllocOne (s.beside b) = ((pfaAllocOne s).1, (pfaAllocOne s).2.beside b) := by
  unfold pfaAllocOne
  rw [show (s.beside b).lowestFree = s.lowestFree from rfl]
  cases s.lowestFree <;> rfl

theorem beside_zeroEntries (b : Beside) (p : Word) (ks : List Nat) (s : State) :
    zeroEntries p ks (s.beside b) = (zeroEntries p ks s).beside b := by
  induction ks generalizing s with
  | nil => rfl
  | cons k ks ih => 
    rw [zeroEntries, zeroEntries, beside_memWrite]
    exact beside_andThen b _ _ _ fun _ s => ih s

theorem beside_descend (b : Beside) (v : Word) (ls : List Level) (t : Word) (s : State) :
    descend v ls t (s.beside b) = (descend v ls t s).beside b := by
  induction ls generalizing t s with
  | nil => rfl
  | cons l ls ih =>
    rw [descend, descend, beside_memRead]
    refine beside_andThen b _ _ _ fun e s => ?_
    split
    · exact ih _ s
    · rfl

theorem beside_walk (b : Beside) (root v : Word) (s : State) : walk root v (s.beside b) = (walk root v s).beside b := by
  rw [walk, walk, beside_descend]
  refine beside_andThen b _ _ _ fun r s => ?_
  split
  · rfl
  · rw [beside_memRead]
    exact beside_andThen b _ _ _ fun e s => rfl

theorem beside_installTable (b : Beside) (a : Word) (s : State) :
    installTable a (s.beside b) = (installTable a s).beside b := by
  unfold installTable
  rw [beside_pfaAllocOne]
  generalize pfaAllocOne s = x
  obtain ⟨n, u⟩ := x
  simp only
  split
  · rfl
  · rw [zeroPage, beside_zeroEntries]
    refine beside_andThen b _ _ _ fun _ s => ?_
    rw [beside_memWrite]
    exact beside_andThen b _ _ _ fun _ s => rfl

theorem beside_descendCreating (b : Beside) (v : Word) (ls : List Level) (t : Word) (s : State) :
    descendCreating v ls t (s.beside b) = (descendCreating v ls t s).beside b := by
  induction ls generalizing t s with
  | nil => rfl
  | cons l ls ih =>
    rw [descendCreating, descendCreating, beside_memRead]
    refine beside_andThen b _ _ _ fun e s => ?_
    split
    · exact ih _ s
    · rw [beside_installTable]
      refine beside_andThen b _ _ _ fun r s => ?_
      split
      · rfl
      · exact ih _ s

theorem beside_ptwMap (b : Beside) (v p f : Word) (s : State) : ptwMap v p f (s.beside b) = (ptwMap v p f s).beside b := by
  rw [ptwMap, ptwMap, show (s.beside b).root = s.root from rfl, beside_descendCreating]
  refine beside_andThen b _ _ _ fun r s => ?_
  split
  · rfl
  · rw [beside_memWrite]
    exact beside_andThen b _ _ _ fun _ s => rfl

theorem beside_identityMap (b : Beside) (ks : List Nat) (s : State) :
    identityMap ks (s.beside b) = (identityMap ks s).beside b := by
  induction ks generalizing s with
  | nil => rfl
  | cons k ks ih =>
    rw [identityMap, identityMap, beside_ptwMap]
    refine beside_andThen b _ _ _ fun m s => ?_
    split
    · exact ih s
    · rfl

/-- A command reads the `ARG` registers of its format, `ACTIVE_ROOT` if it is `TLB_XLATE`, and nothing the model keeps of the host. -/
theorem exec_beside (b : Beside) (i : Instr) (s : State) (h0 : 1 ≤ i.format.arity → b.a0 = s.arg0)
    (h1 : 2 ≤ i.format.arity → b.a1 = s.arg1) (h2 : 3 ≤ i.format.arity → b.a2 = s.arg2)
    (hr : i = .tlbXlate → b.r = s.activeRoot) (hsw : i ≠ .vmmSwitch) :
    exec i (s.beside b) = besideResult b (exec i s) := by
  have hf : ∀ k, (s.beside b).flag k = s.flag k := fun _ => rfl
  have ha0 : (s.beside b).arg0 = b.a0 := rfl
  have ha1 : (s.beside b).arg1 = b.a1 := rfl
  have ha2 : (s.beside b).arg2 = b.a2 := rfl
  cases i <;> simp only [Instr.format, Format.arity, Nat.reduceLeDiff, forall_const, IsEmpty.forall_iff] at h0 h1 h2
  case pmmInit =>
    simp only [exec, execPmmInit, hf, ha0, h0]
    split; rfl
    split <;> rfl
  case pmmAlloc =>
    simp only [exec, execPmmAlloc, hf, beside_pfaAllocOne]
    split; rfl
    split <;> rfl
  case pmmAllocn =>
    simp only [exec, execPmmAllocn, hf, ha0, h0, show ∀ n, (s.beside b).findRun n = s.findRun n from fun _ => rfl]
    split; rfl
    split; rfl
    split <;> rfl
  case pmmFree =>
    simp only [exec, execPmmFree, hf, ha0, h0, show (s.beside b).totalPages = s.totalPages from rfl]
    split; rfl
    split <;> rfl
  case pmmFreen =>
    simp only [exec, execPmmFreen, hf, ha0, h0, ha1, h1, show (s.beside b).totalPages = s.totalPages from rfl]
    split; rfl
    split; rfl
    split <;> rfl
  case pmmTotal => rfl
  case pmmUsed => rfl
  case pmmFreemem => rfl
  case vmmInit =>
    simp only [exec, execVmmInit, hf, beside_pfaAllocOne]
    split; rfl
    split; rfl
    split; rfl
    rw [zeroPage, beside_zeroEntries]
    refine beside_conclude b _ _ _ fun _ u _ => ?_
    rw [show (u.beside b).setRoot (pfaAllocOne s).1 = (u.setRoot (pfaAllocOne s).1).beside b from rfl, beside_identityMap]
    refine beside_conclude b _ _ _ fun m w hw => ?_
    split <;> rfl
  case vmmMap =>
    simp only [exec, execVmmMap, hf, ha0, h0, ha1, h1, ha2, h2, beside_ptwMap]
    split; rfl
    refine beside_conclude b _ _ _ fun m w hw => ?_
    split <;> rfl
  case vmmUnmap =>
    simp only [exec, execVmmUnmap, hf, ha0, h0, show (s.beside b).root = s.root from rfl, beside_descend]
    split; rfl
    refine beside_conclude b _ _ _ fun m w hw => ?_
    have := leaves_descend s.arg0 nonLeafLevels s.root s
    rw [hw] at this
    obtain rfl : w = s := this
    simp only [ha0, h0]
    split; rfl
    rw [beside_memWrite]
    refine beside_conclude b _ _ _ fun m u hu => ?_
    obtain ⟨_, _, rfl⟩ := memWrite_eq_ok hu
    simp only [storeWord_arg0, ← h0]
    rfl
  case vmmGetpa =>
    simp only [exec, execVmmGetpa, hf, ha0, h0, show (s.beside b).root = s.root from rfl, beside_walk]
    split; rfl
    refine beside_conclude b _ _ _ fun m w hw => ?_
    have := leaves_walk s.root s.arg0 s
    rw [hw] at this
    obtain rfl : w = s := this
    simp only [ha0, h0]
    split <;> rfl
  case vmmSwitch => exact absurd rfl hsw
  case tlbXlate =>
    simp only [exec, execTlbXlate, hf, ha0, h0, show (s.beside b).activeRoot = b.r from rfl, hr,
      show (s.beside b).tlb = s.tlb from rfl, beside_walk]
    split; rfl
    split; rfl
    refine beside_conclude b _ _ _ fun m w hw => ?_
    have := leaves_walk s.activeRoot s.arg0 s
    rw [hw] at this
    obtain rfl : w = s := this
    simp only [ha0, h0]
    split <;> rfl
  case tlbInvlpg =>
    simp only [exec, execTlbInvlpg, ha0, h0]
    rfl

end Sys2Proof.Machine
end

