-- ==== Sys2Proof/Laws/Frames.lean ====
section
/-! SUPPORT. The PFA invariant (R29) and the count of free pages under allocation, release and initialisation. -/

namespace Sys2Proof.Machine

theorem totalPages_takePages (s : State) (f c : Nat) : (s.takePages f c).totalPages = s.totalPages := rfl

theorem totalPages_releasePages (s : State) (f c : Nat) : (s.releasePages f c).totalPages = s.totalPages := rfl

theorem totalPages_lt {s : State} (h : s.FrameInv) : s.totalPages * 4096 < 2 ^ 64 := by
  have := h.blocksFit
  unfold State.totalPages bitsPerWord
  omega

theorem totalPages_le {s : State} (h : s.FrameInv) : s.totalPages ≤ s.cfg.maxBlocks * 32 := by
  have := h.blocksHigh
  unfold State.totalPages bitsPerWord
  omega

/-- The address of a page of the range is that page's (R134). -/
theorem pageAddr_toNat {s : State} (h : s.FrameInv) {i : Nat} (hi : i < s.totalPages) : (pageAddr i).toNat = i * 4096 := by
  have := totalPages_lt h
  unfold pageAddr pageSize
  rw [BitVec.toNat_ofNat]
  omega

theorem pageIndex_pageAddr {s : State} (h : s.FrameInv) {i : Nat} (hi : i < s.totalPages) : pageIndex (pageAddr i) = i := by
  rw [pageIndex, pageAddr_toNat h hi]
  simp

/-- A free page of the range lies above the reserved region (R122: "the result is never 0 on success"). -/
theorem reserved_le_of_free {s : State} (h : s.FrameInv) {i : Nat} (hf : s.bitmap.used i = false) : 4096 ≤ i := by
  by_contra hlt
  have := h.reserved i (by simpa using hlt)
  rw [this] at hf
  cases hf

theorem pageAddr_ne_zero {s : State} (h : s.FrameInv) {i : Nat} (hi : i < s.totalPages) (hf : s.bitmap.used i = false) :
    pageAddr i ≠ 0 := by
  intro h0
  have h1 := pageAddr_toNat h hi
  have := reserved_le_of_free h hf
  rw [h0, show (0 : Word).toNat = 0 from rfl] at h1
  omega

/-- An entry of a table in the range lies in the range. -/
theorem entryAddr_lt {t : Word} {n : Nat} (ht : t.toNat % 4096 = 0) (hi : pageIndex t < n) (idx : BitVec 9) :
    (entryAddr t idx).toNat < n * 4096 := by
  have h1 := entryAddr_toNat t idx ht
  have h2 := idx.isLt
  unfold pageIndex pageSize at hi
  omega

/-- Allocation keeps R29. -/
theorem frameInv_takePages {s : State} (h : s.FrameInv) {f c : Nat} (hr : f + c ≤ s.totalPages)
    (hfree : ∀ j, f ≤ j → j < f + c → s.bitmap.used j = false) : (s.takePages f c).FrameInv where
  blocksLow := h.blocksLow
  blocksHigh := h.blocksHigh
  blocksFit := h.blocksFit
  reserved i hi := by rw [takePages_bitmap, used_setPages, h.reserved i hi, Bool.true_or]
  counted := by
    have h1 := h.counted
    have h2 := totalPages_lt h
    have h3 := countUsed_setPages s.bitmap f c s.totalPages hr hfree
    have h4 := countUsed_le (s.bitmap.setPages f c) 0 s.totalPages
    rw [takePages_bitmap, totalPages_takePages, takePages_usedPages, BitVec.toNat_add, BitVec.toNat_ofNat, h1, h3]
    omega
  beyond i hi := by rw [takePages_bitmap, used_setPages, h.beyond i hi, Bool.true_or]

/-- Release keeps R29. -/
theorem frameInv_releasePages {s : State} (h : s.FrameInv) {f c : Nat} (hl : 4096 ≤ f) (hr : f + c ≤ s.totalPages) :
    (s.releasePages f c).FrameInv where
  blocksLow := h.blocksLow
  blocksHigh := h.blocksHigh
  blocksFit := h.blocksFit
  reserved i hi := by
    simp only [reservedPages] at hi
    rw [releasePages_bitmap, used_clearPages, h.reserved i hi, decide_eq_false (show ¬ f ≤ i by omega)]
    rfl
  counted := by
    have h1 := h.counted
    have h2 := totalPages_lt h
    have h3 := countUsed_clearPages s.bitmap f c s.totalPages hr
    have h4 := countUsed_le s.bitmap 0 s.totalPages
    rw [releasePages_bitmap, totalPages_releasePages, releasePages_usedPages, BitVec.toNat_sub, BitVec.toNat_ofNat, h1]
    omega
  beyond i hi := by
    have h1 := totalPages_le h
    simp only [releasePages_cfg, bitsPerWord] at hi
    rw [releasePages_bitmap, used_clearPages, h.beyond i hi, decide_eq_false (show ¬ i < f + c by omega), Bool.and_false]
    rfl

/-- Initialisation establishes R29 (R120). -/
theorem frameInv_initFrames {s : State} {n : Nat} (hm : 128 ≤ s.cfg.maxBlocks) (hl : 0x1000000 ≤ n) (hn : n < 2 ^ 64) :
    (s.initFrames n).FrameInv := by
  have ht : (s.initFrames n).totalBlocks.toNat = min (n / 131072) s.cfg.maxBlocks := by
    rw [initFrames_totalBlocks, BitVec.toNat_ofNat, blockBytes]
    omega
  have hp : (s.initFrames n).totalPages = min (n / 131072) s.cfg.maxBlocks * 32 := by
    rw [State.totalPages, ht, bitsPerWord]
  refine ⟨?_, ?_, ?_, ?_, ?_, ?_⟩
  · rw [ht]; omega
  · rw [ht]; simp
  · rw [ht]; omega
  · intro i hi
    simp only [reservedPages] at hi
    rw [initFrames_bitmap, used_forMemory, decide_eq_false (show ¬ 4096 ≤ i by omega)]
    rfl
  · rw [initFrames_bitmap, hp, countUsed_forMemory _ _ _ (by omega) (by omega), initFrames_usedPages]
    rfl
  · intro i hi
    simp only [initFrames_cfg, bitsPerWord] at hi
    rw [initFrames_bitmap, used_forMemory, decide_eq_false (show ¬ i < min (n / 4096) (s.cfg.maxBlocks * 32) by omega), Bool.and_false]
    rfl

/-! ## Free pages -/

theorem freePages_takePages {s : State} {f c : Nat} (hr : f + c ≤ s.totalPages)
    (hfree : ∀ j, f ≤ j → j < f + c → s.bitmap.used j = false) : (s.takePages f c).freePages = s.freePages - c := by
  unfold State.freePages
  rw [takePages_bitmap, totalPages_takePages, countUsed_setPages _ _ _ _ hr hfree]
  omega

/-- If any page of the range is free, the PFA hands one out: the lowest. -/
theorem exists_lowest_of_freePages {s : State} (h : 0 < s.freePages) :
    ∃ i, i < s.totalPages ∧ s.bitmap.used i = false ∧ ∀ j < i, s.bitmap.used j = true := by
  cases hl : s.lowestFree with
  | some i => exact ⟨i, (lowestFree_eq_some s i).mp hl⟩
  | none =>
    have := countUsed_all s.bitmap 0 s.totalPages fun i _ hi => (lowestFree_eq_none s).mp hl i (by omega)
    unfold State.freePages at h
    omega

theorem freePages_eq_zero {s : State} (h : ∀ j < s.totalPages, s.bitmap.used j = true) : s.freePages = 0 := by
  unfold State.freePages
  rw [countUsed_all s.bitmap 0 s.totalPages fun i _ hi => h i (by omega)]
  omega

end Sys2Proof.Machine
end

