-- ==== Sys2Proof/Laws/Tree.lean ====
section
/-! SUPPORT. The tree at `ROOT` (R39): what a fresh table, a leaf write and a whole map do to the tables and leaf entries on every
path (R73, R152, R164). -/

namespace Sys2Proof.Machine

theorem drop_nonLeafLevels {n : Nat} (h : n < 3) : nonLeafLevels.drop n = levelAt n :: nonLeafLevels.drop (n + 1) := by
  match n, h with
  | 0, _ => rfl
  | 1, _ => rfl
  | 2, _ => rfl

theorem take_nonLeafLevels {n : Nat} (h : n < 3) : nonLeafLevels.take (n + 1) = nonLeafLevels.take n ++ [levelAt n] := by
  match n, h with
  | 0, _ => rfl
  | 1, _ => rfl
  | 2, _ => rfl

theorem tableBelow_append (m : Memory) (v : Word) (l1 l2 : List Level) (t : Word) :
    tableBelow m v (l1 ++ l2) t = (tableBelow m v l1 t).bind (tableBelow m v l2) := by
  induction l1 generalizing t with
  | nil => rfl
  | cons l ls ih =>
    simp only [List.cons_append, tableBelow]
    split
    · exact ih _
    · rfl

@[simp] theorem tableAt_zero (m : Memory) (r v : Word) : tableAt m r v 0 = some r := rfl

/-- One level further down (R73). -/
theorem tableAt_succ (m : Memory) (r v : Word) {n : Nat} (hn : n < 3) :
    tableAt m r v (n + 1) =
      (tableAt m r v n).bind fun t =>
        if present (m.readWord (entryAddr t (vidx v (levelAt n)))) then some (frame (m.readWord (entryAddr t (vidx v (levelAt n)))))
        else none := by
  unfold tableAt
  rw [take_nonLeafLevels hn, tableBelow_append]
  rfl

theorem tableAt_succ_eq_some {m : Memory} {r v x : Word} {n : Nat} (hn : n < 3) (h : tableAt m r v (n + 1) = some x) :
    ∃ t, tableAt m r v n = some t ∧ present (m.readWord (entryAddr t (vidx v (levelAt n)))) = true ∧
      x = frame (m.readWord (entryAddr t (vidx v (levelAt n)))) := by
  rw [tableAt_succ m r v hn] at h
  obtain ⟨t, h1, h2⟩ := Option.bind_eq_some_iff.mp h
  split at h2
  · exact ⟨t, h1, by assumption, (Option.some.inj h2).symm⟩
  · cases h2

theorem tableAt_succ_of {m : Memory} {r v t : Word} {n : Nat} (hn : n < 3) (h : tableAt m r v n = some t)
    (hp : present (m.readWord (entryAddr t (vidx v (levelAt n)))) = true) :
    tableAt m r v (n + 1) = some (frame (m.readWord (entryAddr t (vidx v (levelAt n))))) := by
  rw [tableAt_succ m r v hn, h]
  simp [hp]

/-- A path that reaches depth `k` has a table at every depth above. -/
theorem tableAt_le {m : Memory} {r v x : Word} {n k : Nat} (hnk : n ≤ k) (hk : k ≤ 3) (h : tableAt m r v k = some x) :
    ∃ t, tableAt m r v n = some t := by
  induction k generalizing x with
  | zero => exact ⟨x, by rwa [show n = 0 by omega]⟩
  | succ k ih =>
    by_cases he : n = k + 1
    · exact ⟨x, by rwa [he]⟩
    · obtain ⟨t, h1, _⟩ := tableAt_succ_eq_some (by omega) h
      exact ih (by omega) (by omega) h1

/-- Below the end of a path there is no table. -/
theorem tableAt_none {m : Memory} {r v : Word} {n k : Nat} (hnk : n ≤ k) (hk : k ≤ 3) (h : tableAt m r v n = none) :
    tableAt m r v k = none := by
  cases hx : tableAt m r v k with
  | none => rfl
  | some x =>
    obtain ⟨t, ht⟩ := tableAt_le hnk hk hx
    rw [h] at ht
    cases ht

theorem leafEntry_of_table {m : Memory} {r w x : Word} (h : tableAt m r w 3 = some x) :
    leafEntry m r w =
      if present (m.readWord (entryAddr x (vidx w .pt))) then some (m.readWord (entryAddr x (vidx w .pt))) else none := by
  simp only [leafEntry, h]

theorem leafEntry_of_none {m : Memory} {r w : Word} (h : tableAt m r w 3 = none) : leafEntry m r w = none := by
  simp only [leafEntry, h]

theorem frame_or_flags {n : Word} (hn : n.toNat % 4096 = 0) : frame (n ||| tableFlags) = n ∧ present (n ||| tableFlags) = true := by
  have hbits : ∀ i < 12, n.getLsbD i = false := by
    intro i hi
    have h1 : n.toNat = 2 ^ 12 * (n.toNat / 4096) := by omega
    rw [BitVec.getLsbD, h1, Nat.testBit_two_pow_mul]
    simp [show ¬ 12 ≤ i by omega]
  constructor
  · apply BitVec.eq_of_getLsbD_eq
    intro i hi
    unfold frame
    rw [BitVec.getLsbD_and, BitVec.getLsbD_or]
    by_cases h12 : i < 12
    · rw [hbits i h12]
      have : ∀ i < 12, frameMask.getLsbD i = false := by decide
      rw [this i h12, Bool.and_false]
    · have h1 : ∀ i < 64, 12 ≤ i → frameMask.getLsbD i = true ∧ tableFlags.getLsbD i = false := by decide
      obtain ⟨h2, h3⟩ := h1 i hi (by omega)
      rw [h2, h3]
      simp
  · unfold present
    rw [BitVec.getLsbD_or]
    simp [tableFlags]

theorem not_present_zero : present 0 = false := rfl

/-! ## Pages -/

/-- A page number is its four indices (R71). -/
theorem vpn_eq_iff (v w : Word) : vpn v = vpn w ↔ ∀ l, vidx v l = vidx w l := by
  constructor
  · intro h l
    apply BitVec.eq_of_getLsbD_eq
    intro i hi
    have hl : l.number ≤ 3 := by cases l <;> decide
    have h1 := congrArg (fun x => BitVec.getLsbD x (9 * l.number + i)) h
    simp only [vpn, BitVec.getLsbD_extractLsb', show 9 * l.number + i < 36 by omega, decide_true, Bool.true_and] at h1
    simp only [vidx, BitVec.getLsbD_extractLsb', hi, decide_true, Bool.true_and]
    rw [show 12 + 9 * l.number + i = 12 + (9 * l.number + i) by omega]
    exact h1
  · intro h
    apply BitVec.eq_of_getLsbD_eq
    intro i hi
    have key : ∀ l : Level, 9 * l.number ≤ i → i < 9 * l.number + 9 → (vpn v).getLsbD i = (vpn w).getLsbD i := by
      intro l h1 h2
      have h3 := congrArg (fun x => BitVec.getLsbD x (i - 9 * l.number)) (h l)
      simp only [vidx, BitVec.getLsbD_extractLsb', show i - 9 * l.number < 9 by omega, decide_true, Bool.true_and,
        show 12 + 9 * l.number + (i - 9 * l.number) = 12 + i by omega] at h3
      simpa only [vpn, BitVec.getLsbD_extractLsb', hi, decide_true, Bool.true_and] using h3
    by_cases h1 : i < 9
    · exact key .pt (by simp [Level.number]) (by simp [Level.number]; omega)
    · by_cases h2 : i < 18
      · exact key .pd (by simp [Level.number]; omega) (by simp [Level.number]; omega)
      · by_cases h3 : i < 27
        · exact key .pdpt (by simp [Level.number]; omega) (by simp [Level.number]; omega)
        · exact key .pml4 (by simp [Level.number]; omega) (by simp [Level.number]; omega)

theorem vpn_pageBase (n : Vpn) : vpn (pageBase n) = n := by
  apply BitVec.eq_of_getLsbD_eq
  intro i hi
  simp only [vpn, pageBase, BitVec.getLsbD_extractLsb', hi, decide_true, Bool.true_and, BitVec.getLsbD_shiftLeft,
    BitVec.getLsbD_setWidth]
  simp [show 12 + i < 64 by omega, show 12 + i - 12 = i by omega, show i < 64 by omega]

/-- What is mapped depends on the page number only (R71). -/
theorem leafEntry_congr {m : Memory} {r v w : Word} (h : vpn v = vpn w) : leafEntry m r v = leafEntry m r w := by
  have hv := (vpn_eq_iff v w).mp h
  unfold leafEntry tableAt
  simp only [nonLeafLevels, List.take, tableBelow, hv]

/-! ## Zeroing a page -/

/-- Memory after the listed entries of the table at `p` are zeroed (R72). -/
def zeroed (m : Memory) (p : Word) (ks : List Nat) : Memory :=
  ks.foldl (fun m k => m.writeWord (p + BitVec.ofNat 64 (8 * k)) 0) m

theorem zeroEntries_eq_ok {p : Word} {ks : List Nat} {s t : State} (h : zeroEntries p ks s = .ok () t) :
    t = { s with mem := zeroed s.mem p ks } := by
  induction ks generalizing s with
  | nil =>
    injection h with _ h
    exact h.symm
  | cons k ks ih =>
    obtain ⟨_, s1, h1, h2⟩ := andThen_eq_ok h
    obtain ⟨_, _, h3⟩ := memWrite_eq_ok h1
    rw [ih h2, h3]
    rfl

theorem zeroEntries_of_valid {p : Word} {ks : List Nat} {s : State}
    (h : ∀ k ∈ ks, (p + BitVec.ofNat 64 (8 * k)).toNat % 8 = 0 ∧ s.memValid (p + BitVec.ofNat 64 (8 * k)) = true) :
    zeroEntries p ks s = .ok () { s with mem := zeroed s.mem p ks } := by
  induction ks generalizing s with
  | nil => rfl
  | cons k ks ih =>
    obtain ⟨h1, h2⟩ := h k (by simp)
    rw [zeroEntries, memWrite_of_valid h1 h2, andThen_ok]
    exact ih (s := s.storeWord (p + BitVec.ofNat 64 (8 * k)) 0) fun j hj => h j (by simp [hj])

theorem readWord_zeroed_other (m : Memory) (p : Word) (ks : List Nat) (a : Word) (ha : a.toNat % 8 = 0) (hp : p.toNat % 8 = 0)
    (hne : ∀ k ∈ ks, a ≠ p + BitVec.ofNat 64 (8 * k)) : (zeroed m p ks).readWord a = m.readWord a := by
  induction ks generalizing m with
  | nil => rfl
  | cons k ks ih =>
    rw [zeroed, List.foldl_cons]
    refine (ih _ fun j hj => hne j (by simp [hj])).trans ?_
    refine readWord_writeWord_other _ _ _ _ ?_ ha (hne k (by simp))
    rw [BitVec.toNat_add, BitVec.toNat_ofNat]
    omega

theorem readWord_zeroed_same (m : Memory) (p : Word) (ks : List Nat) (a : Word) (ha : a.toNat % 8 = 0) (hp : p.toNat % 8 = 0)
    (hin : ∃ k ∈ ks, a = p + BitVec.ofNat 64 (8 * k)) : (zeroed m p ks).readWord a = 0 := by
  induction ks generalizing m with
  | nil => obtain ⟨k, hk, _⟩ := hin; cases hk
  | cons k ks ih =>
    rw [zeroed, List.foldl_cons]
    by_cases h : ∃ j ∈ ks, a = p + BitVec.ofNat 64 (8 * j)
    · exact ih _ h
    · refine (readWord_zeroed_other _ p ks a ha hp fun j hj e => h ⟨j, hj, e⟩).trans ?_
      obtain ⟨j, hj, hja⟩ := hin
      rcases List.mem_cons.mp hj with rfl | hj
      · rw [← hja]
        exact readWord_writeWord_same _ _ _
      · exact absurd ⟨j, hj, hja⟩ h

/-- The 512 entries of the table at an aligned `p` (R66, R72). -/
theorem entryAddr_eq_offset (p : Word) (idx : BitVec 9) : entryAddr p idx = p + BitVec.ofNat 64 (8 * idx.toNat) := by
  unfold entryAddr
  congr 1
  apply BitVec.eq_of_toNat_eq
  have := idx.isLt
  rw [BitVec.toNat_mul, BitVec.toNat_setWidth, BitVec.toNat_ofNat, show (8 : Word).toNat = 8 from rfl]
  omega

/-- Memory after the table at `p` is zeroed (R72). -/
@[irreducible] def zeroedPage (m : Memory) (p : Word) : Memory :=
  zeroed m p (List.range' 0 entriesPerTable)

theorem zeroedPage_def (m : Memory) (p : Word) : zeroedPage m p = zeroed m p (List.range' 0 entriesPerTable) := by
  delta zeroedPage
  rfl

theorem zeroPage_eq_ok {p : Word} {s t : State} (h : zeroPage p s = .ok () t) : t = { s with mem := zeroedPage s.mem p } := by
  rw [zeroedPage_def]
  delta zeroPage at h
  exact zeroEntries_eq_ok h

/-- A zeroed page is all absent entries (R72). -/
theorem readWord_zeroPage_same (m : Memory) (p : Word) (hp : p.toNat % 4096 = 0) (idx : BitVec 9) :
    (zeroedPage m p).readWord (entryAddr p idx) = 0 := by
  rw [zeroedPage_def]
  refine readWord_zeroed_same _ _ _ _ (entryAddr_aligned p idx hp) (by omega) ⟨idx.toNat, ?_, entryAddr_eq_offset p idx⟩
  have := idx.isLt
  simp only [entriesPerTable, List.mem_range'_1]
  omega

/-- Zeroing a page leaves every other page's words as they were (R72). -/
theorem readWord_zeroPage_other (m : Memory) (p : Word) (hp : p.toNat % 4096 = 0) (a : Word) (ha : a.toNat % 8 = 0)
    (hne : pageIndex a ≠ pageIndex p) : (zeroedPage m p).readWord a = m.readWord a := by
  rw [zeroedPage_def]
  refine readWord_zeroed_other _ _ _ _ ha (by omega) fun k hk e => hne ?_
  simp only [entriesPerTable, List.mem_range'_1] at hk
  have h1 : a.toNat = p.toNat + 8 * k := by
    have h2 := congrArg BitVec.toNat e
    have := p.isLt
    rw [BitVec.toNat_add, BitVec.toNat_ofNat] at h2
    omega
  unfold pageIndex pageSize
  omega

theorem zeroPage_of_valid {p : Word} {s : State} (hp : p.toNat % 4096 = 0)
    (hv : ∀ idx : BitVec 9, s.memValid (entryAddr p idx) = true) : zeroPage p s = .ok () { s with mem := zeroedPage s.mem p } := by
  rw [zeroedPage_def]
  delta zeroPage
  refine zeroEntries_of_valid fun k hk => ?_
  simp only [entriesPerTable, List.mem_range'_1] at hk
  have h1 := hv (BitVec.ofNat 9 k)
  have h2 := entryAddr_aligned p (BitVec.ofNat 9 k) hp
  rw [entryAddr_eq_offset, BitVec.toNat_ofNat, show k % 2 ^ 9 = k by omega] at h1 h2
  exact ⟨h2, h1⟩

/-! ## Bytes outside what is stored -/

/-- An aligned word lies in one page (R62). -/
theorem outsideWord_of_pageIndex {a b : Word} (ha : a.toNat % 8 = 0) (h : pageIndex b ≠ pageIndex a) : OutsideWord a b := by
  unfold OutsideWord
  unfold pageIndex pageSize at h
  by_contra hlt
  apply h
  have h1 := a.isLt
  have h2 : b.toNat = a.toNat + (b - a).toNat := by bv_omega
  omega

theorem readByte_writeWord_outside (m : Memory) {a b : Word} (v : Word) (h : OutsideWord a b) :
    (m.writeWord a v).readByte b = m.readByte b :=
  (readByte_writeWord _ _ _ _).trans (if_neg (Nat.not_lt.mpr h))

/-- Words whose bytes read the same are the same. -/
theorem readWord_congr {m m' : Memory} {a : Word} (h : ∀ b, (b - a).toNat < 8 → m'.readByte b = m.readByte b) :
    m'.readWord a = m.readWord a :=
  readLE_congr _ _ _ _ fun k hk => h _ (by bv_omega)

theorem pageIndex_of_word {a b : Word} (ha : a.toNat % 8 = 0) (h : (b - a).toNat < 8) : pageIndex b = pageIndex a := by
  by_contra hne
  exact absurd h (Nat.not_lt.mpr (outsideWord_of_pageIndex ha hne))

theorem readByte_zeroed_outside (m : Memory) (p : Word) (ks : List Nat) (b : Word)
    (h : ∀ k ∈ ks, OutsideWord (p + BitVec.ofNat 64 (8 * k)) b) : (zeroed m p ks).readByte b = m.readByte b := by
  induction ks generalizing m with
  | nil => rfl
  | cons k ks ih =>
    rw [zeroed, List.foldl_cons]
    exact (ih _ fun j hj => h j (by simp [hj])).trans (readByte_writeWord_outside _ _ (h k (by simp)))

theorem pageIndex_offset {p : Word} {k : Nat} (hp : p.toNat % 4096 = 0) (hk : k < 512) :
    pageIndex (p + BitVec.ofNat 64 (8 * k)) = pageIndex p ∧ (p + BitVec.ofNat 64 (8 * k)).toNat % 8 = 0 := by
  have := p.isLt
  unfold pageIndex pageSize
  rw [BitVec.toNat_add, BitVec.toNat_ofNat]
  omega

/-- Zeroing entries of a table changes no byte of another page (R72). -/
theorem readByte_zeroed_other (m : Memory) {p : Word} (hp : p.toNat % 4096 = 0) {ks : List Nat} (hks : ∀ k ∈ ks, k < 512) {b : Word}
    (hne : pageIndex b ≠ pageIndex p) : (zeroed m p ks).readByte b = m.readByte b := by
  refine readByte_zeroed_outside _ _ _ _ fun k hk => ?_
  obtain ⟨h1, h2⟩ := pageIndex_offset hp (hks k hk)
  exact outsideWord_of_pageIndex h2 (by rwa [h1])

theorem readByte_zeroPage_other (m : Memory) {p : Word} (hp : p.toNat % 4096 = 0) {b : Word} (hne : pageIndex b ≠ pageIndex p) :
    (zeroedPage m p).readByte b = m.readByte b := by
  rw [zeroedPage_def]
  exact readByte_zeroed_other m hp (fun k hk => by simp only [entriesPerTable, List.mem_range'_1] at hk; omega) hne

/-- Zeroing that meets missing memory has zeroed some of the entries (R72, R225). -/
theorem zeroEntries_eq_busError {p : Word} {ks : List Nat} {s t : State} (h : zeroEntries p ks s = .busError t) :
    ∃ zs, (∀ k ∈ zs, k ∈ ks) ∧ t = { s with mem := zeroed s.mem p zs } := by
  induction ks generalizing s with
  | nil => cases h
  | cons k ks ih =>
    rw [zeroEntries] at h
    cases hw : memWrite (p + BitVec.ofNat 64 (8 * k)) 0 s with
    | fault f => rw [hw] at h; cases h
    | busError u =>
      rw [hw] at h
      injection h with h
      have : u = s := by
        unfold memWrite at hw
        split at hw
        · cases hw
        · split at hw
          · cases hw
          · injection hw with hw; exact hw.symm
      exact ⟨[], by simp, by rw [← h, this]; rfl⟩
    | ok r u =>
      rw [hw] at h
      obtain ⟨_, _, rfl⟩ := memWrite_eq_ok hw
      obtain ⟨zs, h1, h2⟩ := ih h
      exact ⟨k :: zs, fun j hj => by
        rcases List.mem_cons.mp hj with rfl | hj
        · simp
        · simp [h1 j hj], by rw [h2]; rfl⟩

/-- Zeroing aligned entries finds memory at each, or ends with some of them zeroed (R72, R225). -/
theorem zeroEntries_ends {p : Word} {ks : List Nat} {s : State} (hal : ∀ k ∈ ks, (p + BitVec.ofNat 64 (8 * k)).toNat % 8 = 0) :
    (∀ k ∈ ks, s.memValid (p + BitVec.ofNat 64 (8 * k)) = true) ∨
      ∃ zs, (∀ k ∈ zs, k ∈ ks) ∧ zeroEntries p ks s = .busError { s with mem := zeroed s.mem p zs } := by
  induction ks generalizing s with
  | nil => exact .inl fun k hk => by cases hk
  | cons k ks ih =>
    by_cases hv : s.memValid (p + BitVec.ofNat 64 (8 * k)) = true
    · rcases ih (s := s.storeWord (p + BitVec.ofNat 64 (8 * k)) 0) fun j hj => hal j (by simp [hj]) with h | ⟨zs, h1, h2⟩
      · refine .inl fun j hj => ?_
        rcases List.mem_cons.mp hj with rfl | hj
        · exact hv
        · exact h j hj
      · refine .inr ⟨k :: zs, fun j hj => ?_, ?_⟩
        · rcases List.mem_cons.mp hj with rfl | hj
          · simp
          · simp [h1 j hj]
        · rw [zeroEntries, memWrite_of_valid (hal k (by simp)) hv, andThen_ok, h2]
          rfl
    · exact .inr ⟨[], by simp, by
        rw [zeroEntries, memWrite_of_absent (hal k (by simp)) (by simpa using hv), andThen_busError]
        rfl⟩

/-! ## A fresh table -/

/-- The state after the lowest free page `i` has become a zeroed table linked at `a` (R152). -/
def State.withTable (s : State) (i : Nat) (a : Word) : State :=
  { s.takePages i 1 with
    mem := (zeroedPage s.mem (pageAddr i)).writeWord a (pageAddr i ||| tableFlags) }

theorem withTable_mem (s : State) (i : Nat) (a : Word) :
    (s.withTable i a).mem = (zeroedPage s.mem (pageAddr i)).writeWord a (pageAddr i ||| tableFlags) := rfl

@[simp] theorem withTable_root (s : State) (i : Nat) (a : Word) : (s.withTable i a).root = s.root := rfl
@[simp] theorem withTable_activeRoot (s : State) (i : Nat) (a : Word) : (s.withTable i a).activeRoot = s.activeRoot := rfl
@[simp] theorem withTable_tlb (s : State) (i : Nat) (a : Word) : (s.withTable i a).tlb = s.tlb := rfl
@[simp] theorem withTable_cfg (s : State) (i : Nat) (a : Word) : (s.withTable i a).cfg = s.cfg := rfl
@[simp] theorem withTable_bitmap (s : State) (i : Nat) (a : Word) : (s.withTable i a).bitmap = s.bitmap.setPages i 1 := rfl
@[simp] theorem withTable_totalBlocks (s : State) (i : Nat) (a : Word) : (s.withTable i a).totalBlocks = s.totalBlocks := rfl
@[simp] theorem withTable_usedPages (s : State) (i : Nat) (a : Word) :
    (s.withTable i a).usedPages = s.usedPages + BitVec.ofNat 64 1 := rfl

@[simp] theorem withTable_totalPages (s : State) (i : Nat) (a : Word) : (s.withTable i a).totalPages = s.totalPages := by
  simp only [State.totalPages, withTable_totalBlocks]

@[simp] theorem withTable_memValid (s : State) (i : Nat) (a b : Word) : (s.withTable i a).memValid b = s.memValid b := by
  simp only [State.memValid, withTable_cfg]

theorem frameInv_withTable {s : State} (h : s.FrameInv) {i : Nat} (a : Word) (hi : i < s.totalPages)
    (hf : s.bitmap.used i = false) : (s.withTable i a).FrameInv := by
  obtain ⟨h1, h2, h3, h4, h5, h6⟩ := frameInv_takePages h (f := i) (c := 1) (by omega) fun j h1 h2 => by rwa [show j = i by omega]
  simp only [takePages_totalBlocks, takePages_cfg, takePages_bitmap, takePages_usedPages, totalPages_takePages] at h1 h2 h3 h4 h5 h6
  constructor <;>
    simpa only [withTable_totalBlocks, withTable_cfg, withTable_bitmap, withTable_usedPages, withTable_totalPages]

theorem freePages_withTable {s : State} {i : Nat} (a : Word) (hi : i < s.totalPages) (hf : s.bitmap.used i = false) :
    (s.withTable i a).freePages = s.freePages - 1 := by
  have := freePages_takePages (s := s) (f := i) (c := 1) (by omega) fun j h1 h2 => by rwa [show j = i by omega]
  simp only [State.freePages, takePages_bitmap, totalPages_takePages] at this
  simpa only [State.freePages, withTable_bitmap, withTable_totalPages] using this

/-- The two ways `installTable` ends with a result (R152). -/
theorem installTable_eq_ok {a : Word} {s s' : State} {r : Option Word} (hF : s.FrameInv) (h : installTable a s = .ok r s') :
    (r = none ∧ s' = s ∧ ∀ j < s.totalPages, s.bitmap.used j = true) ∨
      ∃ i, i < s.totalPages ∧ s.bitmap.used i = false ∧ (∀ j < i, s.bitmap.used j = true) ∧
        r = some (pageAddr i) ∧ s' = s.withTable i a := by
  unfold installTable at h
  rcases pfaAllocOne_cases s with ⟨h1, h2⟩ | ⟨i, h1, h2, h3, h4⟩
  · rw [h1] at h
    simp only [if_true, CmdResult.ok.injEq] at h
    exact .inl ⟨h.1.symm, h.2.symm, h2⟩
  · rw [h1] at h
    simp only [pageAddr_ne_zero hF h2 h3, if_false] at h
    obtain ⟨_, s1, h5, h6⟩ := andThen_eq_ok h
    obtain ⟨_, s2, h7, h8⟩ := andThen_eq_ok h6
    injection h8 with h9 h10
    obtain ⟨_, _, h11⟩ := memWrite_eq_ok h7
    exact .inr ⟨i, h2, h3, h4, h9.symm, by rw [← h10, h11, zeroPage_eq_ok h5]; rfl⟩

/-- Memory behind the range is memory behind each of its frames. -/
theorem frameBacked_of_range {s : State} (hF : s.FrameInv) (hB : s.RangeBacked) {i : Nat} (hi : i < s.totalPages) : s.FrameBacked i :=
  fun idx => hB _ (entryAddr_aligned _ _ (pageAddr_aligned i))
    (entryAddr_lt (pageAddr_aligned i) (by rwa [pageIndex_pageAddr hF hi]) idx)

theorem frameBacked_congr {s s' : State} (hc : s'.cfg = s.cfg) {i : Nat} (h : s.FrameBacked i) : s'.FrameBacked i := fun idx => by
  simpa only [State.memValid, hc] using h idx

/-- A page with memory behind it is zeroed (R72). -/
theorem zeroPage_of_backed {s : State} {i : Nat} (hB : s.FrameBacked i) :
    zeroPage (pageAddr i) (s.takePages i 1) = .ok () { s.takePages i 1 with mem := zeroedPage s.mem (pageAddr i) } :=
  zeroPage_of_valid (pageAddr_aligned i) hB

/-- With a free page that has memory behind it, `installTable` succeeds. -/
theorem installTable_of_free {a : Word} {s : State} (hF : s.FrameInv) {i : Nat} (hB : s.FrameBacked i) (hi : i < s.totalPages)
    (hf : s.bitmap.used i = false) (hlow : ∀ j < i, s.bitmap.used j = true) (ha : a.toNat % 8 = 0) (hv : s.memValid a = true) :
    installTable a s = .ok (some (pageAddr i)) (s.withTable i a) := by
  have hw : memWrite a (pageAddr i ||| tableFlags) { s.takePages i 1 with mem := zeroedPage s.mem (pageAddr i) } =
      .ok () (s.withTable i a) := memWrite_of_valid ha hv
  unfold installTable
  rw [pfaAllocOne_of_lowest s i hi hf hlow]
  simp only [pageAddr_ne_zero hF hi hf, if_false]
  rw [zeroPage_of_backed hB, andThen_ok, hw, andThen_ok]

section FreshTable

variable {s : State} {i n : Nat} {v t : Word}

/-- The words a fresh table leaves: its own are zero, the link holds it, all others of used pages are as before. -/
theorem readWord_withTable (hF : s.FrameInv) (hi : i < s.totalPages) (hf : s.bitmap.used i = false) (a : Word)
    (ha : a.toNat % 8 = 0) (hau : s.bitmap.used (pageIndex a) = true) :
    (∀ idx, (s.withTable i a).mem.readWord (entryAddr (pageAddr i) idx) = 0) ∧
      (s.withTable i a).mem.readWord a = pageAddr i ||| tableFlags ∧
        ∀ b : Word, b.toNat % 8 = 0 → b ≠ a → s.bitmap.used (pageIndex b) = true →
          (s.withTable i a).mem.readWord b = s.mem.readWord b := by
  have hal := pageAddr_aligned i
  have hpi := pageIndex_pageAddr hF hi
  rw [withTable_mem]
  refine ⟨fun idx => ?_, readWord_writeWord_same _ _ _, fun b hb hba hbu => ?_⟩
  · have hne : entryAddr (pageAddr i) idx ≠ a := by
      intro e
      rw [← e, pageIndex_entryAddr _ _ hal, hpi, hf] at hau
      cases hau
    rw [readWord_writeWord_other _ _ _ _ ha (entryAddr_aligned _ _ hal) hne, readWord_zeroPage_same _ _ hal]
  · rw [readWord_writeWord_other _ _ _ _ ha hb hba, readWord_zeroPage_other _ _ hal _ hb]
    intro e
    rw [e, hpi, hf] at hbu
    cases hbu

variable (hT : s.TreeInv) (hF : s.FrameInv) (hn : n < 3) (ht : tableAt s.mem s.root v n = some t)
  (habs : present (s.mem.readWord (entryAddr t (vidx v (levelAt n)))) = false) (hi : i < s.totalPages)
  (hf : s.bitmap.used i = false)

include hT hF hn ht habs hi hf

/-- Tables once linked stay where they are (R164). -/
theorem tableAt_withTable_old {w x : Word} {k : Nat} (hk : k ≤ 3) (h : tableAt s.mem s.root w k = some x) :
    tableAt (s.withTable i (entryAddr t (vidx v (levelAt n)))).mem s.root w k = some x := by
  obtain ⟨htal, _, _, htu⟩ := hT.backed v n t (by omega) ht
  obtain ⟨_, _, hold⟩ := readWord_withTable hF hi hf (entryAddr t (vidx v (levelAt n))) (entryAddr_aligned _ _ htal)
    (by rwa [pageIndex_entryAddr _ _ htal])
  induction k generalizing x with
  | zero => rwa [tableAt_zero] at h ⊢
  | succ k ih =>
    obtain ⟨y, h1, h2, h3⟩ := tableAt_succ_eq_some (by omega) h
    obtain ⟨hyal, _, _, hyu⟩ := hT.backed w k y (by omega) h1
    have hread := hold (entryAddr y (vidx w (levelAt k))) (entryAddr_aligned _ _ hyal)
      (fun e => by rw [e, habs] at h2; cases h2) (by rwa [pageIndex_entryAddr _ _ hyal])
    have := tableAt_succ_of (by omega) (ih (by omega) h1) (by rw [hread]; exact h2)
    rw [this, hread, h3]

/-- The only table that was not there before is the fresh one, below the entry that links it. -/
theorem tableAt_withTable_cases {w x : Word} {k : Nat} (hk : k ≤ 3)
    (h : tableAt (s.withTable i (entryAddr t (vidx v (levelAt n)))).mem s.root w k = some x) :
    tableAt s.mem s.root w k = some x ∨
      (k = n + 1 ∧ x = pageAddr i ∧ ∀ l ∈ nonLeafLevels.take (n + 1), vidx v l = vidx w l) := by
  obtain ⟨htal, _, _, htu⟩ := hT.backed v n t (by omega) ht
  obtain ⟨hzero, hlink, hold⟩ := readWord_withTable hF hi hf (entryAddr t (vidx v (levelAt n))) (entryAddr_aligned _ _ htal)
    (by rwa [pageIndex_entryAddr _ _ htal])
  induction k generalizing x with
  | zero => exact .inl (by rwa [tableAt_zero] at h ⊢)
  | succ k ih =>
    obtain ⟨y, h1, h2, h3⟩ := tableAt_succ_eq_some (by omega) h
    rcases ih (by omega) h1 with h4 | ⟨_, h4, _⟩
    · obtain ⟨hyal, _, _, hyu⟩ := hT.backed w k y (by omega) h4
      by_cases he : entryAddr y (vidx w (levelAt k)) = entryAddr t (vidx v (levelAt n))
      · obtain ⟨hyt, hidx⟩ := entryAddr_inj hyal htal he
        subst hyt
        obtain ⟨hkn, hpath⟩ := hT.unshared v w n k y (by omega) (by omega) ht h4
        subst hkn
        refine .inr ⟨rfl, ?_, fun l hl => ?_⟩
        · rw [h3, he, hlink]
          exact (frame_or_flags (pageAddr_aligned i)).1
        · rw [take_nonLeafLevels hn, List.mem_append, List.mem_singleton] at hl
          rcases hl with hl | rfl
          · exact hpath l hl
          · exact hidx.symm
      · have hread := hold _ (entryAddr_aligned _ (vidx w (levelAt k)) hyal) he (by rwa [pageIndex_entryAddr _ _ hyal])
        rw [hread] at h2 h3
        exact .inl (by rw [tableAt_succ_of (by omega) h4 h2, h3])
    · rw [h4, hzero, not_present_zero] at h2
      cases h2

/-- The entry now leads to the fresh table. -/
theorem tableAt_withTable_new :
    tableAt (s.withTable i (entryAddr t (vidx v (levelAt n)))).mem s.root v (n + 1) = some (pageAddr i) := by
  obtain ⟨htal, _, _, htu⟩ := hT.backed v n t (by omega) ht
  obtain ⟨_, hlink, _⟩ := readWord_withTable hF hi hf (entryAddr t (vidx v (levelAt n))) (entryAddr_aligned _ _ htal)
    (by rwa [pageIndex_entryAddr _ _ htal])
  obtain ⟨h1, h2⟩ := frame_or_flags (pageAddr_aligned i)
  have := tableAt_succ_of hn (tableAt_withTable_old hT hF hn ht habs hi hf (by omega) ht) (by rw [hlink]; exact h2)
  rw [this, hlink, h1]

/-- No leaf entry changes: the fresh table is empty. -/
theorem leafEntry_withTable (w : Word) :
    leafEntry (s.withTable i (entryAddr t (vidx v (levelAt n)))).mem s.root w = leafEntry s.mem s.root w := by
  obtain ⟨htal, _, _, htu⟩ := hT.backed v n t (by omega) ht
  obtain ⟨hzero, hlink, hold⟩ := readWord_withTable hF hi hf (entryAddr t (vidx v (levelAt n))) (entryAddr_aligned _ _ htal)
    (by rwa [pageIndex_entryAddr _ _ htal])
  cases h : tableAt s.mem s.root w 3 with
  | some x =>
    obtain ⟨hxal, _, _, hxu⟩ := hT.backed w 3 x (by omega) h
    have hread := hold (entryAddr x (vidx w .pt)) (entryAddr_aligned _ _ hxal) (fun e => by
      obtain ⟨hxt, _⟩ := entryAddr_inj hxal htal e
      subst hxt
      have := (hT.unshared w v 3 n x (by omega) (by omega) h ht).1
      omega) (by rwa [pageIndex_entryAddr _ _ hxal])
    rw [leafEntry_of_table h, leafEntry_of_table (tableAt_withTable_old hT hF hn ht habs hi hf (by omega) h), hread]
  | none =>
    rw [leafEntry_of_none h]
    cases h' : tableAt (s.withTable i (entryAddr t (vidx v (levelAt n)))).mem s.root w 3 with
    | none => exact leafEntry_of_none h'
    | some x =>
      rcases tableAt_withTable_cases hT hF hn ht habs hi hf (by omega) h' with h1 | ⟨_, h1, _⟩
      · rw [h] at h1
        cases h1
      · rw [leafEntry_of_table h', h1, hzero, not_present_zero]
        rfl

/-- A fresh table keeps R39. -/
theorem treeInv_withTable : (s.withTable i (entryAddr t (vidx v (levelAt n)))).TreeInv := by
  obtain ⟨htal, _, _, htu⟩ := hT.backed v n t (by omega) ht
  obtain ⟨hzero, hlink, hold⟩ := readWord_withTable hF hi hf (entryAddr t (vidx v (levelAt n))) (entryAddr_aligned _ _ htal)
    (by rwa [pageIndex_entryAddr _ _ htal])
  have hpi := pageIndex_pageAddr hF hi
  have hcases := fun w x k hk h => tableAt_withTable_cases hT hF hn ht habs hi hf (w := w) (x := x) (k := k) hk h
  have hnew : ∀ w k x, k ≤ 3 → tableAt s.mem s.root w k = some x → x ≠ pageAddr i := by
    intro w k x hk h e
    obtain ⟨_, _, _, hu⟩ := hT.backed w k x hk h
    rw [e, hpi, hf] at hu
    cases hu
  refine ⟨fun w k x hk h => ?_, fun w1 w2 k1 k2 x hk1 hk2 h1 h2 => ?_, fun w k x idx hk h => ?_⟩
  all_goals simp only [withTable_root, withTable_totalPages] at *
  · rcases hcases w x k hk h with h | ⟨_, h, _⟩
    · obtain ⟨h1, h2, h3, h4⟩ := hT.backed w k x hk h
      exact ⟨h1, h2, h3, by rw [withTable_bitmap, used_setPages, h4, Bool.true_or]⟩
    · rw [h, hpi]
      refine ⟨pageAddr_aligned i, by simpa using reserved_le_of_free hF hf, hi, ?_⟩
      rw [withTable_bitmap, used_setPages]
      simp
  · rcases hcases w1 x k1 hk1 h1 with h1 | ⟨e1, h1, p1⟩
    · rcases hcases w2 x k2 hk2 h2 with h2 | ⟨_, h2, _⟩
      · exact hT.unshared w1 w2 k1 k2 x hk1 hk2 h1 h2
      · exact absurd h2 (hnew w1 k1 x hk1 h1)
    · rcases hcases w2 x k2 hk2 h2 with h2 | ⟨e2, _, p2⟩
      · exact absurd h1 (hnew w2 k2 x hk2 h2)
      · refine ⟨by omega, fun l hl => ?_⟩
        rw [e1] at hl
        rw [← p1 l hl, ← p2 l hl]
  · rcases hcases w x k (by omega) h with h | ⟨_, h, _⟩
    · obtain ⟨hxal, _, _, hxu⟩ := hT.backed w k x (by omega) h
      by_cases he : entryAddr x idx = entryAddr t (vidx v (levelAt n))
      · rw [he, hlink]
        obtain ⟨h1, h2⟩ := frame_or_flags (pageAddr_aligned i)
        exact .inr ⟨h2, by rw [h1]⟩
      · rw [hold _ (entryAddr_aligned _ _ hxal) he (by rwa [pageIndex_entryAddr _ _ hxal])]
        exact hT.entries w k x idx hk h
    · rw [h]
      exact .inl (hzero idx)

end FreshTable

/-! ## A leaf write -/

section LeafWrite

variable {s : State} {v t : Word} (hT : s.TreeInv) (ht : tableAt s.mem s.root v 3 = some t) (x : Word)

include hT ht

theorem readWord_leafWrite_nonLeaf {w u : Word} {k : Nat} (hk : k < 3) (h : tableAt s.mem s.root w k = some u) (idx : BitVec 9) :
    (s.storeWord (entryAddr t (vidx v .pt)) x).mem.readWord (entryAddr u idx) = s.mem.readWord (entryAddr u idx) := by
  obtain ⟨htal, _⟩ := hT.backed v 3 t (by omega) ht
  obtain ⟨hual, _⟩ := hT.backed w k u (by omega) h
  refine readWord_writeWord_other _ _ _ _ (entryAddr_aligned _ _ htal) (entryAddr_aligned _ _ hual) fun e => ?_
  obtain ⟨hut, _⟩ := entryAddr_inj hual htal e
  subst hut
  have := (hT.unshared w v k 3 u (by omega) (by omega) h ht).1
  omega

/-- A leaf write moves no table (R164). -/
theorem tableAt_leafWrite {w : Word} {k : Nat} (hk : k ≤ 3) :
    tableAt (s.storeWord (entryAddr t (vidx v .pt)) x).mem s.root w k = tableAt s.mem s.root w k := by
  induction k with
  | zero => rfl
  | succ k ih =>
    rw [tableAt_succ _ _ _ (by omega), tableAt_succ _ _ _ (by omega), ih (by omega)]
    cases h : tableAt s.mem s.root w k with
    | none => rfl
    | some u =>
      simp only [Option.bind_some, readWord_leafWrite_nonLeaf hT ht x (show k < 3 by omega) h]

/-- A leaf write keeps R39. -/
theorem treeInv_leafWrite : (s.storeWord (entryAddr t (vidx v .pt)) x).TreeInv := by
  have hat := fun w k (hk : k ≤ 3) => tableAt_leafWrite hT ht x (w := w) hk
  refine ⟨fun w k u hk h => ?_, fun w1 w2 k1 k2 u hk1 hk2 h1 h2 => ?_, fun w k u idx hk h => ?_⟩
  · exact hT.backed w k u hk (by rw [← hat w k hk]; exact h)
  · exact hT.unshared w1 w2 k1 k2 u hk1 hk2 (by rw [← hat w1 k1 hk1]; exact h1) (by rw [← hat w2 k2 hk2]; exact h2)
  · have h' : tableAt s.mem s.root w k = some u := by
      rw [← hat w k (by omega)]
      exact h
    rw [readWord_leafWrite_nonLeaf hT ht x hk h']
    exact hT.entries w k u idx hk h'

/-- A leaf write changes the leaf entry of its own page only (R152, R159). -/
theorem leafEntry_leafWrite (w : Word) :
    leafEntry (s.storeWord (entryAddr t (vidx v .pt)) x).mem s.root w =
      if vpn v = vpn w then (if present x then some x else none) else leafEntry s.mem s.root w := by
  obtain ⟨htal, _⟩ := hT.backed v 3 t (by omega) ht
  have hat := fun w => tableAt_leafWrite hT ht x (w := w) (k := 3) (by omega)
  by_cases hv : vpn v = vpn w
  · rw [if_pos hv, leafEntry_congr hv.symm, leafEntry_of_table ((hat v).trans ht),
      show (s.storeWord (entryAddr t (vidx v .pt)) x).mem.readWord (entryAddr t (vidx v .pt)) = x from
        readWord_writeWord_same _ _ _]
  · rw [if_neg hv]
    cases h : tableAt s.mem s.root w 3 with
    | none => rw [leafEntry_of_none h, leafEntry_of_none ((hat w).trans h)]
    | some u =>
      obtain ⟨hual, _⟩ := hT.backed w 3 u (by omega) h
      have hread : (s.storeWord (entryAddr t (vidx v .pt)) x).mem.readWord (entryAddr u (vidx w .pt)) =
          s.mem.readWord (entryAddr u (vidx w .pt)) := by
        refine readWord_writeWord_other _ _ _ _ (entryAddr_aligned _ _ htal) (entryAddr_aligned _ _ hual) fun e => hv ?_
        obtain ⟨hut, hidx⟩ := entryAddr_inj hual htal e
        subst hut
        have hpath := (hT.unshared v w 3 3 u (by omega) (by omega) ht h).2
        rw [vpn_eq_iff]
        intro l
        cases l
        · exact hidx.symm
        · exact hpath .pd (by decide)
        · exact hpath .pdpt (by decide)
        · exact hpath .pml4 (by decide)
      rw [leafEntry_of_table h, leafEntry_of_table ((hat w).trans h), hread]

end LeafWrite

/-! ## A table not finished -/

/-- The state after the lowest free page `i` has been taken and the entries `zs` of it zeroed, at the first access without memory
(R225). -/
def State.withZeros (s : State) (i : Nat) (zs : List Nat) : State :=
  { s.takePages i 1 with mem := zeroed s.mem (pageAddr i) zs }

theorem used_withZeros (s : State) (i : Nat) (zs : List Nat) (j : Nat) :
    (s.withZeros i zs).bitmap.used j = (s.bitmap.used j || decide (j = i)) := by
  rw [show (s.withZeros i zs).bitmap = s.bitmap.setPages i 1 from rfl, used_setPages]
  congr 1
  rw [Bool.eq_iff_iff]
  simp only [Bool.and_eq_true, decide_eq_true_eq]
  omega

/-- Zeroing a page that has an entry without memory ends there, with some of its entries zeroed (R72, R225). -/
theorem zeroPage_of_absent {s : State} {i : Nat} (h : ¬ s.FrameBacked i) :
    ∃ zs, (∀ k ∈ zs, k < 512) ∧ zeroPage (pageAddr i) (s.takePages i 1) = .busError (s.withZeros i zs) := by
  have hrange : ∀ k ∈ List.range' 0 entriesPerTable, k < 512 := fun k hk => by
    simp only [entriesPerTable, List.mem_range'_1] at hk
    omega
  have hal : ∀ k ∈ List.range' 0 entriesPerTable, (pageAddr i + BitVec.ofNat 64 (8 * k)).toNat % 8 = 0 := fun k hk =>
    (pageIndex_offset (pageAddr_aligned i) (hrange k hk)).2
  delta zeroPage
  rcases zeroEntries_ends (s := s.takePages i 1) hal with hv | ⟨zs, h1, h2⟩
  · refine absurd (fun idx => ?_) h
    rw [entryAddr_eq_offset]
    refine hv idx.toNat ?_
    have := idx.isLt
    simp only [entriesPerTable, List.mem_range'_1]
    omega
  · exact ⟨zs, fun k hk => hrange k (h1 k hk), h2⟩

/-- With a free page that lacks memory somewhere, `installTable` ends there (R152, R225). -/
theorem installTable_of_absent {a : Word} {s : State} (hF : s.FrameInv) {i : Nat} (hB : ¬ s.FrameBacked i) (hi : i < s.totalPages)
    (hf : s.bitmap.used i = false) (hlow : ∀ j < i, s.bitmap.used j = true) :
    ∃ zs, (∀ k ∈ zs, k < 512) ∧ installTable a s = .busError (s.withZeros i zs) := by
  obtain ⟨zs, h1, h2⟩ := zeroPage_of_absent hB
  refine ⟨zs, h1, ?_⟩
  unfold installTable
  rw [pfaAllocOne_of_lowest s i hi hf hlow]
  simp only [pageAddr_ne_zero hF hi hf, if_false, h2, andThen_busError]

/-- What `installTable` leaves when it meets missing memory (R152, R225). -/
theorem installTable_eq_busError {a : Word} {s s' : State} (h : installTable a s = .busError s') :
    ∃ i zs, i < s.totalPages ∧ s.bitmap.used i = false ∧ (∀ j < i, s.bitmap.used j = true) ∧ (∀ k ∈ zs, k < 512) ∧
      s' = s.withZeros i zs := by
  unfold installTable at h
  rcases pfaAllocOne_cases s with ⟨h1, h2⟩ | ⟨i, h1, h2, h3, h4⟩
  · rw [h1] at h
    simp at h
  · rw [h1] at h
    simp only at h
    split at h
    · cases h
    · have hrange : ∀ k ∈ List.range' 0 entriesPerTable, k < 512 := fun k hk => by
        simp only [entriesPerTable, List.mem_range'_1] at hk
        omega
      cases hz : zeroPage (pageAddr i) (s.takePages i 1) with
      | fault f => rw [hz] at h; cases h
      | busError u =>
        rw [hz] at h
        injection h with h
        delta zeroPage at hz
        obtain ⟨zs, h5, h6⟩ := zeroEntries_eq_busError hz
        exact ⟨i, zs, h2, h3, h4, fun k hk => hrange k (h5 k hk), by rw [← h, h6]; rfl⟩
      | ok r u =>
        rw [hz, andThen_ok] at h
        have hu := zeroPage_eq_ok hz
        rw [zeroedPage_def] at hu
        refine ⟨i, _, h2, h3, h4, hrange, ?_⟩
        have : u = s' := by
          unfold memWrite at h
          split at h
          · cases h
          · split at h
            · cases h
            · injection h with h
        rw [← this, hu]
        rfl

section SameWords

variable {s s' : State} (hT : s.TreeInv)
  (hread : ∀ a : Word, a.toNat % 8 = 0 → s.bitmap.used (pageIndex a) = true → s'.mem.readWord a = s.mem.readWord a)

include hT hread

/-- The tree is what the words of used pages say: where they read the same, so do the tables. -/
theorem tableAt_of_readWord {w : Word} {k : Nat} (hk : k ≤ 3) : tableAt s'.mem s.root w k = tableAt s.mem s.root w k := by
  induction k with
  | zero => rfl
  | succ k ih =>
    rw [tableAt_succ _ _ _ (by omega), tableAt_succ _ _ _ (by omega), ih (by omega)]
    cases h : tableAt s.mem s.root w k with
    | none => rfl
    | some u =>
      obtain ⟨hal, _, _, hu⟩ := hT.backed w k u (by omega) h
      simp only [Option.bind_some, hread _ (entryAddr_aligned u (vidx w (levelAt k)) hal) (by rwa [pageIndex_entryAddr _ _ hal])]

theorem leafEntry_of_readWord (w : Word) : leafEntry s'.mem s.root w = leafEntry s.mem s.root w := by
  have hat := tableAt_of_readWord hT hread (w := w) (k := 3) (by omega)
  cases h : tableAt s.mem s.root w 3 with
  | none => rw [leafEntry_of_none h, leafEntry_of_none (hat.trans h)]
  | some u =>
    obtain ⟨hal, _, _, hu⟩ := hT.backed w 3 u (by omega) h
    rw [leafEntry_of_table h, leafEntry_of_table (hat.trans h),
      hread _ (entryAddr_aligned u (vidx w .pt) hal) (by rwa [pageIndex_entryAddr _ _ hal])]

theorem treeInv_of_readWord (hroot : s'.root = s.root) (hblocks : s'.totalBlocks = s.totalBlocks)
    (hused : ∀ i, s.bitmap.used i = true → s'.bitmap.used i = true) : s'.TreeInv := by
  have hat := fun w k (hk : k ≤ 3) => tableAt_of_readWord hT hread (w := w) hk
  have hpages : s'.totalPages = s.totalPages := by simp only [State.totalPages, hblocks]
  refine ⟨fun w k u hk h => ?_, fun w1 w2 k1 k2 u hk1 hk2 h1 h2 => ?_, fun w k u idx hk h => ?_⟩
  · rw [hroot, hat w k hk] at h
    obtain ⟨h1, h2, h3, h4⟩ := hT.backed w k u hk h
    exact ⟨h1, h2, by rwa [hpages], hused _ h4⟩
  · rw [hroot, hat w1 k1 hk1] at h1
    rw [hroot, hat w2 k2 hk2] at h2
    exact hT.unshared w1 w2 k1 k2 u hk1 hk2 h1 h2
  · rw [hroot, hat w k (by omega)] at h
    obtain ⟨hal, _, _, hu⟩ := hT.backed w k u (by omega) h
    rw [hread _ (entryAddr_aligned u idx hal) (by rwa [pageIndex_entryAddr _ _ hal])]
    exact hT.entries w k u idx hk h

end SameWords

end Sys2Proof.Machine
end

