-- ==== Sys2Proof/Laws/Map.lean ====
section
/-! SUPPORT. A whole map on a tree (R152): what it leaves of the tree, the leaf entries, the cache and the PFA. -/

namespace Sys2Proof.Machine

/-- `s'` is `s` after tables were created on the path of a page: the tree has grown, nothing mapped has changed. -/
structure Grew (s s' : State) : Prop where
  tree : s'.TreeInv
  frames : s'.FrameInv
  root : s'.root = s.root
  activeRoot : s'.activeRoot = s.activeRoot
  cfg : s'.cfg = s.cfg
  tlb : s'.tlb = s.tlb
  totalBlocks : s'.totalBlocks = s.totalBlocks
  tables : ∀ w k x, k ≤ 3 → tableAt s.mem s.root w k = some x → tableAt s'.mem s.root w k = some x
  leaves : ∀ w, leafEntry s'.mem s.root w = leafEntry s.mem s.root w
  used : ∀ i, s.bitmap.used i = true → s'.bitmap.used i = true
  inRange : ∀ i, s.totalPages ≤ i → s'.bitmap.used i = s.bitmap.used i
  fresh : ∀ w k x, k ≤ 3 → tableAt s'.mem s.root w k = some x →
    tableAt s.mem s.root w k = some x ∨ s.bitmap.used (pageIndex x) = false
  bytes : ∀ b, s'.bitmap.used (pageIndex b) = s.bitmap.used (pageIndex b) →
    (∀ w k x, k ≤ 3 → tableAt s.mem s.root w k = some x → pageIndex b ≠ pageIndex x) → s'.mem.readByte b = s.mem.readByte b

theorem Grew.refl {s : State} (hT : s.TreeInv) (hF : s.FrameInv) : Grew s s :=
  ⟨hT, hF, rfl, rfl, rfl, rfl, rfl, fun _ _ _ _ h => h, fun _ => rfl, fun _ h => h, fun _ _ => rfl, fun _ _ _ _ h => .inl h,
    fun _ _ _ => rfl⟩

theorem used_between {a b c : Bool} (h1 : a = true → b = true) (h2 : b = true → c = true) (h : c = a) : b = a ∧ c = b := by
  cases a <;> cases b <;> cases c <;> simp_all

theorem Grew.trans {s s' s'' : State} (h : Grew s s') (h' : Grew s' s'') : Grew s s'' where
  tree := h'.tree
  frames := h'.frames
  root := h'.root.trans h.root
  activeRoot := h'.activeRoot.trans h.activeRoot
  cfg := h'.cfg.trans h.cfg
  tlb := h'.tlb.trans h.tlb
  totalBlocks := h'.totalBlocks.trans h.totalBlocks
  tables w k x hk hx := by
    rw [← h.root]
    exact h'.tables w k x hk (by rw [h.root]; exact h.tables w k x hk hx)
  leaves w := by
    rw [← h.leaves w, ← h.root]
    exact h'.leaves w
  used i hi := h'.used i (h.used i hi)
  inRange i hi := (h'.inRange i (by simpa only [State.totalPages, h.totalBlocks] using hi)).trans (h.inRange i hi)
  fresh w k x hk hx := by
    rcases h'.fresh w k x hk (by rwa [h.root]) with h1 | h1
    · rw [h.root] at h1
      exact h.fresh w k x hk h1
    · refine .inr ?_
      by_contra hu
      rw [h.used _ (by simpa using hu)] at h1
      cases h1
  bytes b hb hne := by
    obtain ⟨h1, h2⟩ := used_between (h.used _) (h'.used _) hb
    rw [← h.bytes b h1 hne]
    refine h'.bytes b h2 fun w k x hk hx e => ?_
    rw [h.root] at hx
    rcases h.fresh w k x hk hx with h3 | h3
    · exact hne w k x hk h3 e
    · rw [← h.root] at hx
      have := (h.tree.backed w k x hk hx).2.2.2
      rw [e, h3, this] at h1
      cases h1

theorem totalPages_congr {s s' : State} (h : s'.totalBlocks = s.totalBlocks) : s'.totalPages = s.totalPages := by
  simp only [State.totalPages, h]

theorem rangeBacked_congr {s s' : State} (hc : s'.cfg = s.cfg) (ht : s'.totalBlocks = s.totalBlocks) (h : s.RangeBacked) :
    s'.RangeBacked := by
  intro a h1 h2
  rw [totalPages_congr ht] at h2
  have := h a h1 h2
  simpa only [State.memValid, hc] using this

/-- Memory stands behind every entry of every table of the tree. -/
theorem memValid_entry {s : State} (hT : s.TreeInv) (hB : s.RangeBacked) {v t : Word} {n : Nat} (hn : n ≤ 3)
    (ht : tableAt s.mem s.root v n = some t) (idx : BitVec 9) : s.memValid (entryAddr t idx) = true := by
  obtain ⟨h1, _, h2, _⟩ := hT.backed v n t hn ht
  exact hB _ (entryAddr_aligned _ _ h1) (entryAddr_lt h1 h2 idx)

/-- Memory behind the range is memory behind every path of the tree. -/
theorem pathBacked_tree {s : State} (hT : s.TreeInv) (hB : s.RangeBacked) (v : Word) : s.PathBacked s.root v := by
  intro n a hn h
  rw [entryOnPath] at h
  obtain ⟨t, h1, rfl⟩ := Option.map_eq_some_iff.mp h
  exact memValid_entry hT hB hn h1 _

/-- A walk that gets to depth `n` finds memory behind the entry it reads there. -/
theorem pathBacked_entry {s : State} {r v t : Word} {n : Nat} (hP : s.PathBacked r v) (hn : n ≤ 3)
    (ht : tableAt s.mem r v n = some t) : s.memValid (entryAddr t (vidx v (levelAt n))) = true :=
  hP n _ hn (by rw [entryOnPath, ht, Option.map_some])

theorem grew_withTable {s : State} {i n : Nat} {v t : Word} (hT : s.TreeInv) (hF : s.FrameInv) (hn : n < 3)
    (ht : tableAt s.mem s.root v n = some t) (habs : present (s.mem.readWord (entryAddr t (vidx v (levelAt n)))) = false)
    (hi : i < s.totalPages) (hf : s.bitmap.used i = false) : Grew s (s.withTable i (entryAddr t (vidx v (levelAt n)))) where
  tree := treeInv_withTable hT hF hn ht habs hi hf
  frames := frameInv_withTable hF _ hi hf
  root := withTable_root _ _ _
  activeRoot := withTable_activeRoot _ _ _
  cfg := withTable_cfg _ _ _
  tlb := withTable_tlb _ _ _
  totalBlocks := withTable_totalBlocks _ _ _
  tables _ _ _ hk hx := tableAt_withTable_old hT hF hn ht habs hi hf hk hx
  leaves w := leafEntry_withTable hT hF hn ht habs hi hf w
  used j hj := by rw [withTable_bitmap, used_setPages, hj, Bool.true_or]
  inRange j hj := by
    rw [withTable_bitmap, used_setPages, decide_eq_false (show ¬ j < i + 1 by omega), Bool.and_false, Bool.or_false]
  fresh w k x hk hx := by
    rcases tableAt_withTable_cases hT hF hn ht habs hi hf hk hx with h | ⟨_, h, _⟩
    · exact .inl h
    · exact .inr (by rw [h, pageIndex_pageAddr hF hi, hf])
  bytes b hb hne := by
    obtain ⟨hal, _⟩ := hT.backed v n t (by omega) ht
    rw [withTable_mem, readByte_writeWord_outside, readByte_zeroPage_other _ (pageAddr_aligned i)]
    · rw [pageIndex_pageAddr hF hi]
      intro e
      rw [e, withTable_bitmap, used_setPages, hf] at hb
      simp at hb
    · exact outsideWord_of_pageIndex (entryAddr_aligned _ _ hal)
        (by rw [pageIndex_entryAddr _ _ hal]; exact hne v n t (by omega) ht)

/-- A table not finished changes nothing of the tree (R225). -/
theorem grew_withZeros {s : State} {i : Nat} {zs : List Nat} (hT : s.TreeInv) (hF : s.FrameInv) (hi : i < s.totalPages)
    (hf : s.bitmap.used i = false) (hzs : ∀ k ∈ zs, k < 512) : Grew s (s.withZeros i zs) := by
  have hbyte : ∀ b : Word, pageIndex b ≠ i → (s.withZeros i zs).mem.readByte b = s.mem.readByte b := fun b hb =>
    readByte_zeroed_other _ (pageAddr_aligned i) hzs (by rwa [pageIndex_pageAddr hF hi])
  have hread : ∀ a : Word, a.toNat % 8 = 0 → s.bitmap.used (pageIndex a) = true →
      (s.withZeros i zs).mem.readWord a = s.mem.readWord a := fun a ha hu =>
    readWord_congr fun b hb => hbyte b fun e => by
      rw [← pageIndex_of_word ha hb, e, hf] at hu
      cases hu
  have hused : ∀ j, s.bitmap.used j = true → (s.withZeros i zs).bitmap.used j = true := fun j hj => by
    rw [show (s.withZeros i zs).bitmap = s.bitmap.setPages i 1 from rfl, used_setPages, hj, Bool.true_or]
  have hF' := frameInv_takePages hF (f := i) (c := 1) (by omega) fun j h1 h2 => by rwa [show j = i by omega]
  refine ⟨treeInv_of_readWord hT hread rfl rfl hused, ?_, rfl, rfl, rfl, rfl, rfl, fun w k x hk hx => ?_,
    leafEntry_of_readWord hT hread, hused, fun j hj => ?_, fun w k x hk hx => ?_, fun b hb _ => hbyte b fun e => ?_⟩
  · obtain ⟨h1, h2, h3, h4, h5, h6⟩ := hF'
    exact ⟨h1, h2, h3, h4, h5, h6⟩
  · rwa [tableAt_of_readWord hT hread hk]
  · rw [show (s.withZeros i zs).bitmap = s.bitmap.setPages i 1 from rfl, used_setPages, decide_eq_false (show ¬ j < i + 1 by omega),
      Bool.and_false, Bool.or_false]
  · rw [tableAt_of_readWord hT hread hk] at hx
    exact .inl hx
  · rw [show (s.withZeros i zs).bitmap = s.bitmap.setPages i 1 from rfl, used_setPages, e, hf] at hb
    simp at hb

/-- What the creating descent leaves when it ends with a result (R152, R155). -/
theorem descendCreating_spec {v : Word} {n : Nat} {t : Word} {s s' : State} {r : Option Word} (hT : s.TreeInv) (hF : s.FrameInv)
    (hn : n ≤ 3) (ht : tableAt s.mem s.root v n = some t) (h : descendCreating v (nonLeafLevels.drop n) t s = .ok r s') :
    Grew s s' ∧ (∀ u, r = some u → tableAt s'.mem s'.root v 3 = some u) ∧ (r = none → s'.freePages = 0) := by
  induction hk : 3 - n generalizing n t s with
  | zero =>
    obtain rfl : n = 3 := by omega
    simp only [nonLeafLevels, List.drop, descendCreating, CmdResult.ok.injEq] at h
    obtain ⟨rfl, rfl⟩ := h
    exact ⟨Grew.refl hT hF, fun u hu => by rwa [← Option.some.inj hu], fun h => by cases h⟩
  | succ k ih =>
    have hn3 : n < 3 := by omega
    rw [drop_nonLeafLevels hn3, descendCreating] at h
    obtain ⟨e, s1, h1, h2⟩ := andThen_eq_ok h
    obtain ⟨_, _, he, hs⟩ := memRead_eq_ok h1
    subst hs he
    by_cases hp : present (s1.mem.readWord (entryAddr t (vidx v (levelAt n)))) = true
    · simp only [hp, if_true] at h2
      exact ih hT hF (by omega) (tableAt_succ_of hn3 ht hp) h2 (by omega)
    · simp only [hp, Bool.false_eq_true, if_false] at h2
      obtain ⟨r', s2, h3, h4⟩ := andThen_eq_ok h2
      rcases installTable_eq_ok hF h3 with ⟨rfl, rfl, hfull⟩ | ⟨i, hi, hf, _, rfl, rfl⟩
      · simp only [CmdResult.ok.injEq] at h4
        obtain ⟨rfl, rfl⟩ := h4
        exact ⟨Grew.refl hT hF, fun u hu => (by cases hu), fun _ => freePages_eq_zero hfull⟩
      · have habs : present (s1.mem.readWord (entryAddr t (vidx v (levelAt n)))) = false := by simpa using hp
        have hg := grew_withTable hT hF hn3 ht habs hi hf
        obtain ⟨g, h5, h6⟩ := ih hg.tree hg.frames (by omega)
          (by rw [hg.root]; exact tableAt_withTable_new hT hF hn3 ht habs hi hf) h4 (by omega)
        exact ⟨hg.trans g, h5, h6⟩

/-- What the creating descent leaves when it meets missing memory (R225). -/
theorem descendCreating_busError {v : Word} {n : Nat} {t : Word} {s s' : State} (hT : s.TreeInv) (hF : s.FrameInv)
    (hn : n ≤ 3) (ht : tableAt s.mem s.root v n = some t) (h : descendCreating v (nonLeafLevels.drop n) t s = .busError s') :
    Grew s s' := by
  induction hk : 3 - n generalizing n t s with
  | zero =>
    obtain rfl : n = 3 := by omega
    cases h
  | succ k ih =>
    have hn3 : n < 3 := by omega
    rw [drop_nonLeafLevels hn3, descendCreating] at h
    rcases andThen_eq_busError h with h1 | ⟨e, s1, h1, h2⟩
    · rw [memRead_eq_busError h1]
      exact Grew.refl hT hF
    · obtain ⟨_, _, he, hs⟩ := memRead_eq_ok h1
      subst hs he
      by_cases hp : present (s1.mem.readWord (entryAddr t (vidx v (levelAt n)))) = true
      · simp only [hp, if_true] at h2
        exact ih hT hF (by omega) (tableAt_succ_of hn3 ht hp) h2 (by omega)
      · simp only [hp, Bool.false_eq_true, if_false] at h2
        rcases andThen_eq_busError h2 with h3 | ⟨r, s2, h3, h4⟩
        · obtain ⟨i, zs, hi, hf, _, hzs, rfl⟩ := installTable_eq_busError h3
          exact grew_withZeros hT hF hi hf hzs
        · rcases installTable_eq_ok hF h3 with ⟨rfl, rfl, _⟩ | ⟨i, hi, hf, _, rfl, rfl⟩
          · cases h4
          · have habs : present (s1.mem.readWord (entryAddr t (vidx v (levelAt n)))) = false := by simpa using hp
            have hg := grew_withTable hT hF hn3 ht habs hi hf
            exact hg.trans (ih hg.tree hg.frames (by omega)
              (by rw [hg.root]; exact tableAt_withTable_new hT hF hn3 ht habs hi hf) h4 (by omega))

theorem frameInv_congr {s s' : State} (h : s.FrameInv) (h1 : s'.totalBlocks = s.totalBlocks) (h2 : s'.cfg = s.cfg)
    (h3 : s'.bitmap = s.bitmap) (h4 : s'.usedPages = s.usedPages) : s'.FrameInv := by
  obtain ⟨a1, a2, a3, a4, a5, a6⟩ := h
  constructor
  · rwa [h1]
  · rwa [h1, h2]
  · rwa [h1]
  · rwa [h3]
  · rwa [h4, h3, totalPages_congr h1]
  · rwa [h2, h3]

/-- `s'` is `s` after the leaf entry of a page was written (R152, R154): the tree has grown, the page's leaf entry is `x`, its cached
pair is gone, nothing else that is mapped has changed. -/
structure Mapped (v x : Word) (s s' : State) : Prop where
  tree : s'.TreeInv
  frames : s'.FrameInv
  root : s'.root = s.root
  activeRoot : s'.activeRoot = s.activeRoot
  cfg : s'.cfg = s.cfg
  tlb : s'.tlb = s.tlb.remove (vpn v)
  totalBlocks : s'.totalBlocks = s.totalBlocks
  tables : ∀ w k x, k ≤ 3 → tableAt s.mem s.root w k = some x → tableAt s'.mem s.root w k = some x
  leafTable : ∃ u, tableAt s'.mem s.root v 3 = some u
  leaves : ∀ w, leafEntry s'.mem s.root w =
    if vpn v = vpn w then (if present x then some x else none) else leafEntry s.mem s.root w
  used : ∀ i, s.bitmap.used i = true → s'.bitmap.used i = true
  inRange : ∀ i, s.totalPages ≤ i → s'.bitmap.used i = s.bitmap.used i
  fresh : ∀ w k x, k ≤ 3 → tableAt s'.mem s.root w k = some x →
    tableAt s.mem s.root w k = some x ∨ s.bitmap.used (pageIndex x) = false
  bytes : ∀ b, s'.bitmap.used (pageIndex b) = s.bitmap.used (pageIndex b) →
    (∀ w k x, k ≤ 3 → tableAt s.mem s.root w k = some x → pageIndex b ≠ pageIndex x) → s'.mem.readByte b = s.mem.readByte b

/-- A leaf write after the tables were created. -/
theorem Grew.mapped {s s1 : State} {v u x : Word} (g : Grew s s1) (hu : tableAt s1.mem s1.root v 3 = some u) :
    Mapped v x s (tlbInvalidate (vpn v) (s1.storeWord (entryAddr u (vidx v .pt)) x)) := by
  have hat : ∀ w k, k ≤ 3 → tableAt (s1.storeWord (entryAddr u (vidx v .pt)) x).mem s.root w k =
      tableAt s1.mem s.root w k := fun w k hk => by
    rw [← g.root]
    exact tableAt_leafWrite g.tree hu x hk
  obtain ⟨t1, t2, t3⟩ := treeInv_leafWrite g.tree hu x
  obtain ⟨hual, _, _, huu⟩ := g.tree.backed v 3 u (by omega) hu
  have hu' := hu
  rw [g.root] at hu'
  refine ⟨⟨t1, t2, t3⟩, frameInv_congr g.frames rfl rfl rfl rfl, g.root, g.activeRoot, g.cfg,
    (by simp only [tlbInvalidate_tlb, storeWord_tlb, g.tlb]), g.totalBlocks, fun w k y hk hy => ?_, ⟨u, ?_⟩, fun w => ?_, g.used,
    g.inRange, fun w k y hk hy => ?_, fun b hb hne => ?_⟩
  · rw [tlbInvalidate_mem, hat w k hk]
    exact g.tables w k y hk hy
  · rw [tlbInvalidate_mem, hat v 3 (by omega)]
    exact hu'
  · rw [tlbInvalidate_mem, ← g.leaves w, ← g.root]
    exact leafEntry_leafWrite g.tree hu x w
  · rw [tlbInvalidate_mem, hat w k hk] at hy
    exact g.fresh w k y hk hy
  · rw [tlbInvalidate_mem, storeWord_mem, readByte_writeWord_outside]
    · exact g.bytes b hb hne
    · refine outsideWord_of_pageIndex (entryAddr_aligned _ _ hual) fun e => ?_
      rw [pageIndex_entryAddr _ _ hual] at e
      rcases g.fresh v 3 u (by omega) hu' with h1 | h1
      · exact hne v 3 u (by omega) h1 e
      · rw [tlbInvalidate_bitmap, storeWord_bitmap, e, h1, huu] at hb
        cases hb

/-- What a map leaves, however it ends (R152, R154, R155, R164, R225): mapped, or grown only; after `fail` no page is free. -/
theorem ptwMap_spec {v p f : Word} {s : State} (hT : s.TreeInv) (hF : s.FrameInv) :
    (∀ s', ptwMap v p f s = .ok true s' → Mapped v (p ||| f) s s') ∧
      (∀ s', ptwMap v p f s = .ok false s' → Grew s s' ∧ s'.freePages = 0) ∧
      ∀ s', ptwMap v p f s = .busError s' → Grew s s' := by
  have hspec := fun r s1 h => descendCreating_spec (n := 0) (r := r) (s' := s1) hT hF (by omega) (tableAt_zero s.mem s.root v) h
  refine ⟨fun s' h => ?_, fun s' h => ?_, fun s' h => ?_⟩
  · obtain ⟨r, s1, h1, h2⟩ := andThen_eq_ok h
    obtain ⟨g, hsome, _⟩ := hspec r s1 h1
    cases r with
    | none => cases h2
    | some u =>
      obtain ⟨_, s2, h3, h4⟩ := andThen_eq_ok h2
      obtain ⟨_, _, rfl⟩ := memWrite_eq_ok h3
      injection h4 with _ hs
      exact hs ▸ g.mapped (hsome u rfl)
  · obtain ⟨r, s1, h1, h2⟩ := andThen_eq_ok h
    obtain ⟨g, _, hnone⟩ := hspec r s1 h1
    cases r with
    | none =>
      injection h2 with _ hs
      exact hs ▸ ⟨g, hnone rfl⟩
    | some u =>
      obtain ⟨_, s2, h3, h4⟩ := andThen_eq_ok h2
      injection h4 with hb _
      cases hb
  · rcases andThen_eq_busError h with h1 | ⟨r, s1, h1, h2⟩
    · exact descendCreating_busError (n := 0) hT hF (by omega) (tableAt_zero s.mem s.root v) h1
    · obtain ⟨g, _, _⟩ := hspec r s1 h1
      cases r with
      | none => cases h2
      | some u =>
        rcases andThen_eq_busError h2 with h3 | ⟨_, s2, h3, h4⟩
        · exact memWrite_eq_busError h3 ▸ g
        · cases h4

end Sys2Proof.Machine
end

