-- ==== Sys2Proof/Laws/Creating.lean ====
section
/-! SUPPORT. The creating descent exactly (R152, R155, R158): which frames it takes, in which order, what it links and what it leaves. -/

namespace Sys2Proof.Machine

/-! ## The free pages as a list (R121, R122) -/

theorem mem_freeList {s : State} {p : Nat} : p ∈ s.freeList ↔ p < s.totalPages ∧ s.bitmap.used p = false := by
  simp only [State.freeList, List.mem_filter, List.mem_range'_1, Bool.not_eq_true', Nat.zero_le, Nat.zero_add, true_and]

theorem length_freeList (s : State) : s.freeList.length = s.freePages := by
  have h : (List.range' 0 s.totalPages).length =
      (List.range' 0 s.totalPages).countP s.bitmap.used + (List.range' 0 s.totalPages).countP fun i => !s.bitmap.used i := by
    have := List.length_eq_countP_add_countP s.bitmap.used (l := List.range' 0 s.totalPages)
    simpa using this
  rw [List.length_range'] at h
  rw [State.freeList, ← List.countP_eq_length_filter, State.freePages, Bitmap.countUsed]
  omega

/-- The list names no page twice: a page of it is not among those before it. -/
theorem not_mem_take_freeList {s : State} {m f : Nat} (h : s.freeList[m]? = some f) : f ∉ s.freeList.take m := by
  have hnd : s.freeList.Nodup := (List.nodup_range' ..).filter _
  obtain ⟨hm, e⟩ := List.getElem?_eq_some_iff.mp h
  intro hmem
  obtain ⟨j, hj, e'⟩ := List.mem_take_iff_getElem.mp hmem
  have := hnd.getElem_inj_iff.mp (e'.trans e.symm)
  omega

/-- Taking the lowest free page takes the head off the list (R122). -/
theorem freeList_takePages {s : State} {i : Nat} (hi : i < s.totalPages) (hf : s.bitmap.used i = false)
    (hlow : ∀ j < i, s.bitmap.used j = true) : s.freeList = i :: (s.takePages i 1).freeList := by
  have hsplit := range'_split i 1 s.totalPages (by omega)
  have h1 : ∀ u : State, u.totalPages = s.totalPages → (∀ j < i, u.bitmap.used j = true) → u.freeList =
      ((List.range' i 1).filter fun j => !u.bitmap.used j) ++
        (List.range' (i + 1) (s.totalPages - (i + 1))).filter fun j => !u.bitmap.used j := by
    intro u hu hlow
    have h2 : (List.range' 0 i).filter (fun j => !u.bitmap.used j) = [] := by
      rw [List.filter_eq_nil_iff]
      intro j hj
      rw [List.mem_range'_1] at hj
      simp [hlow j (by omega)]
    rw [State.freeList, hu, hsplit, List.filter_append, List.filter_append, h2, List.nil_append]
  rw [h1 s rfl hlow, h1 (s.takePages i 1) rfl fun j hj => by rw [takePages_bitmap, used_setPages, hlow j hj, Bool.true_or]]
  have h3 : (s.takePages i 1).bitmap.used i = true := by
    rw [takePages_bitmap, used_setPages]
    simp
  simp only [List.range'_one, List.filter_cons, List.filter_nil, hf, h3, Bool.not_false, Bool.not_true, if_true, Bool.false_eq_true,
    if_false, List.nil_append, List.cons_append, List.cons.injEq, true_and]
  refine List.filter_congr fun j hj => ?_
  rw [List.mem_range'_1] at hj
  rw [takePages_bitmap, used_setPages, decide_eq_false (show ¬ j < i + 1 by omega), Bool.and_false, Bool.or_false]

theorem freeList_withTable {s : State} {i : Nat} (a : Word) (hi : i < s.totalPages) (hf : s.bitmap.used i = false)
    (hlow : ∀ j < i, s.bitmap.used j = true) : s.freeList = i :: (s.withTable i a).freeList := by
  have := freeList_takePages hi hf hlow
  simpa only [State.freeList, withTable_totalPages, withTable_bitmap, takePages_bitmap, totalPages_takePages] using this

theorem freeList_eq_nil {s : State} : s.freeList = [] ↔ ∀ j < s.totalPages, s.bitmap.used j = true := by
  rw [List.eq_nil_iff_forall_not_mem]
  simp only [mem_freeList, not_and, Bool.not_eq_false]

theorem freeList_cons {s : State} {i : Nat} {rest : List Nat} (h : s.freeList = i :: rest) :
    i < s.totalPages ∧ s.bitmap.used i = false ∧ (∀ j < i, s.bitmap.used j = true) ∧ rest = (s.takePages i 1).freeList := by
  have hne : ¬ ∀ j < s.totalPages, s.bitmap.used j = true := fun hall => by
    rw [freeList_eq_nil.mpr hall] at h
    cases h
  obtain ⟨k, hk⟩ : ∃ k, s.lowestFree = some k := by
    cases hl : s.lowestFree with
    | none => exact absurd ((lowestFree_eq_none s).mp hl) hne
    | some k => exact ⟨k, rfl⟩
  obtain ⟨h1, h2, h3⟩ := (lowestFree_eq_some s k).mp hk
  rw [freeList_takePages h1 h2 h3] at h
  injection h with h4 h5
  subst h4
  exact ⟨h1, h2, h3, h5.symm⟩

/-! ## The descent -/

/-- `s'` is `s` after `m` tables were created on the path of `v`, from the entry of the table `t` at depth `n` down (R152): the frames
are the lowest free ones in order, each linked with `frame | 0x03` by the one before and all zero but for its own link, and no other
byte of memory has changed. -/
structure Creates (v : Word) (n : Nat) (t : Word) (m : Nat) (s s' : State) : Prop where
  grew : Grew s s'
  rest : s' = { s with mem := s'.mem, bitmap := s'.bitmap, usedPages := s.usedPages + BitVec.ofNat 64 m }
  taken : ∀ i, s'.bitmap.used i = (s.bitmap.used i || (s.freeList.take m).contains i)
  free : s'.freeList = s.freeList.drop m
  table : ∀ j p, j < m → s.freeList[j]? = some p → tableAt s'.mem s.root v (n + j + 1) = some (pageAddr p)
  link : ∀ j p, j < m → s.freeList[j]? = some p →
    ∃ y, tableAt s'.mem s.root v (n + j) = some y ∧
      s'.mem.readWord (entryAddr y (vidx v (levelAt (n + j)))) = pageAddr p ||| tableFlags
  zero : ∀ j p idx, j < m → s.freeList[j]? = some p → idx ≠ vidx v (levelAt (n + j + 1)) ∨ j + 1 = m →
    s'.mem.readWord (entryAddr (pageAddr p) idx) = 0
  bytes : ∀ b, OutsideWord (entryAddr t (vidx v (levelAt n))) b → (s.freeList.take m).contains (pageIndex b) = false →
    s'.mem.readByte b = s.mem.readByte b
  idle : m = 0 → s'.mem = s.mem

theorem creates_none {v : Word} {n : Nat} {t : Word} {s : State} (hT : s.TreeInv) (hF : s.FrameInv) : Creates v n t 0 s s := by
  refine ⟨Grew.refl hT hF, ?_, fun i => ?_, rfl, fun j p h => ?_, fun j p h => ?_, fun j p idx h => ?_, fun _ _ _ => rfl, fun _ => rfl⟩
  · rw [show s.usedPages + BitVec.ofNat 64 0 = s.usedPages from BitVec.add_zero _]
  · rw [List.take_zero, List.contains_nil, Bool.or_false]
  all_goals omega

theorem Creates.first {v t : Word} {n i m : Nat} {s s' : State} (hT : s.TreeInv) (hF : s.FrameInv) (hn : n < 3)
    (ht : tableAt s.mem s.root v n = some t) (habs : present (s.mem.readWord (entryAddr t (vidx v (levelAt n)))) = false)
    (hi : i < s.totalPages) (hf : s.bitmap.used i = false) (hlow : ∀ j < i, s.bitmap.used j = true)
    (h : Creates v (n + 1) (pageAddr i) m (s.withTable i (entryAddr t (vidx v (levelAt n)))) s') :
    Creates v n t (m + 1) s s' := by
  have hlist := freeList_withTable (entryAddr t (vidx v (levelAt n))) hi hf hlow
  have hg := grew_withTable hT hF hn ht habs hi hf
  obtain ⟨htal, _, _, htu⟩ := hT.backed v n t (by omega) ht
  have haal := entryAddr_aligned t (vidx v (levelAt n)) htal
  have hap := pageIndex_entryAddr t (vidx v (levelAt n)) htal
  have hial := pageAddr_aligned i
  have hpi := pageIndex_pageAddr hF hi
  obtain ⟨hzero, hlink, _⟩ := readWord_withTable hF hi hf (entryAddr t (vidx v (levelAt n))) haal (by rwa [hap])
  have hnew := tableAt_withTable_new hT hF hn ht habs hi hf
  have hold := tableAt_withTable_old hT hF hn ht habs hi hf (w := v) (k := n) (by omega) ht
  generalize hu : s.withTable i (entryAddr t (vidx v (levelAt n))) = u at *
  have huroot : u.root = s.root := hg.root
  have huused : ∀ j, u.bitmap.used j = (s.bitmap.used j || decide (j = i)) := by
    intro j
    rw [← hu, withTable_bitmap, used_setPages]
    congr 1
    rw [Bool.eq_iff_iff]
    simp only [Bool.and_eq_true, decide_eq_true_eq]
    omega
  have huusedPages : u.usedPages = s.usedPages + BitVec.ofNat 64 1 := by rw [← hu, withTable_usedPages]
  have hurest : u = { s with mem := u.mem, bitmap := u.bitmap, usedPages := u.usedPages } := by rw [← hu]; rfl
  have hubytes : ∀ b, OutsideWord (entryAddr t (vidx v (levelAt n))) b → pageIndex b ≠ i → u.mem.readByte b = s.mem.readByte b := by
    intro b h1 h2
    rw [← hu, withTable_mem, readByte_writeWord_outside _ _ h1, readByte_zeroPage_other _ hial (by rwa [hpi])]
  -- a page used in `u` is none of those taken later
  have hlater : ∀ p, u.bitmap.used p = true → (u.freeList.take m).contains p = false := by
    intro p hp
    rw [Bool.eq_false_iff, ne_eq, List.contains_iff_mem]
    intro hmem
    have := (mem_freeList.mp (List.mem_of_mem_take hmem)).2
    rw [hp] at this
    cases this
  -- words of such a page outside the entry below keep their value
  have hkeep : ∀ (x : Word) (idx : BitVec 9), x.toNat % 4096 = 0 → u.bitmap.used (pageIndex x) = true →
      (x = pageAddr i → idx ≠ vidx v (levelAt (n + 1)) ∨ m = 0) → s'.mem.readWord (entryAddr x idx) = u.mem.readWord (entryAddr x idx) := by
    intro x idx hx hxu hne
    by_cases hm : m = 0
    · rw [h.idle hm]
    · refine readWord_congr fun b hb => h.bytes b ?_ (hlater _ ?_)
      · by_cases hxi : x = pageAddr i
        · rcases hne hxi with hidx | hm0
          · subst hxi
            unfold OutsideWord
            by_contra hlt
            have h1 := entryAddr_toNat (pageAddr i) idx hial
            have h2 := entryAddr_toNat (pageAddr i) (vidx v (levelAt (n + 1))) hial
            have h3 : idx.toNat ≠ (vidx v (levelAt (n + 1))).toNat := fun e => hidx (BitVec.eq_of_toNat_eq e)
            have h4 := (entryAddr (pageAddr i) idx).isLt
            have h5 := (entryAddr (pageAddr i) (vidx v (levelAt (n + 1)))).isLt
            bv_omega
          · exact absurd hm0 hm
        · refine outsideWord_of_pageIndex (entryAddr_aligned _ _ hial) ?_
          rw [pageIndex_of_word (entryAddr_aligned _ _ hx) hb, pageIndex_entryAddr _ _ hx, pageIndex_entryAddr _ _ hial]
          intro e
          refine hxi (BitVec.eq_of_toNat_eq ?_)
          unfold pageIndex pageSize at e
          omega
      · rwa [pageIndex_of_word (entryAddr_aligned _ _ hx) hb, pageIndex_entryAddr _ _ hx]
  have hiu : u.bitmap.used (pageIndex (pageAddr i)) = true := by rw [hpi, huused]; simp
  have hwlink : s'.mem.readWord (entryAddr t (vidx v (levelAt n))) = pageAddr i ||| tableFlags := by
    rw [hkeep t _ htal (by rw [huused, htu, Bool.true_or]) fun e => ?_, hlink]
    rw [e, hpi, hf] at htu
    cases htu
  have hget : ∀ j p, s.freeList[j]? = some p → (j = 0 ∧ p = i) ∨ ∃ k, j = k + 1 ∧ u.freeList[k]? = some p := by
    intro j p hj
    rw [hlist] at hj
    cases j with
    | zero => exact .inl ⟨rfl, by simpa using hj.symm⟩
    | succ k => exact .inr ⟨k, rfl, by simpa using hj⟩
  refine ⟨hg.trans h.grew, ?_, fun j => ?_, ?_, fun j p hj hp => ?_, fun j p hj hp => ?_, fun j p idx hj hp hz => ?_, fun b hb1 hb2 => ?_,
    fun h => by omega⟩
  · have h1 := h.rest
    rw [hurest, huusedPages] at h1
    rw [h1]
    simp only [State.mk.injEq, true_and, and_true]
    rw [BitVec.add_assoc]
    congr 1
    apply BitVec.eq_of_toNat_eq
    simp [Nat.add_comm]
  · rw [h.taken, huused, hlist, List.take_succ_cons, List.contains_cons, Bool.or_assoc]
    congr 2
  · rw [h.free, hlist, List.drop_succ_cons]
  · rcases hget j p hp with ⟨rfl, rfl⟩ | ⟨k, rfl, hk⟩
    · rw [← huroot]
      exact h.grew.tables v (n + 1) _ (by omega) (by rw [huroot]; exact hnew)
    · rw [← huroot, show n + (k + 1) + 1 = n + 1 + k + 1 by omega]
      exact h.table k p (by omega) hk
  · rcases hget j p hp with ⟨rfl, rfl⟩ | ⟨k, rfl, hk⟩
    · refine ⟨t, ?_, hwlink⟩
      rw [← huroot]
      exact h.grew.tables v n t (by omega) (by rw [huroot]; exact hold)
    · rw [← huroot, show n + (k + 1) = n + 1 + k by omega]
      exact h.link k p (by omega) hk
  · rcases hget j p hp with ⟨rfl, rfl⟩ | ⟨k, rfl, hk⟩
    · rw [hkeep _ idx hial hiu fun _ => ?_, hzero]
      rcases hz with hz | hz
      · exact .inl hz
      · exact .inr (by omega)
    · refine h.zero k p idx (by omega) hk ?_
      rcases hz with hz | hz
      · exact .inl (by rwa [show n + 1 + k + 1 = n + (k + 1) + 1 by omega])
      · exact .inr (by omega)
  · rw [hlist, List.take_succ_cons, List.contains_cons, Bool.or_eq_false_iff, beq_eq_false_iff_ne] at hb2
    rw [h.bytes b (outsideWord_of_pageIndex (entryAddr_aligned _ _ hial) (by rw [pageIndex_entryAddr _ _ hial, hpi]; exact hb2.1)) hb2.2,
      hubytes b hb1 hb2.1]

/-- One absent entry with memory behind it: with no free page the descent ends; with one it goes on below the fresh table, or ends at
the page's first entry without memory (R152, R225). -/
theorem descendCreating_absent {v t : Word} {n : Nat} {s : State} (hT : s.TreeInv) (hF : s.FrameInv) (hn : n < 3)
    (ht : tableAt s.mem s.root v n = some t) (habs : present (s.mem.readWord (entryAddr t (vidx v (levelAt n)))) = false)
    (hv : s.memValid (entryAddr t (vidx v (levelAt n))) = true) :
    (s.freeList = [] → descendCreating v (nonLeafLevels.drop n) t s = .ok none s) ∧
      ∀ i, i < s.totalPages → s.bitmap.used i = false → (∀ j < i, s.bitmap.used j = true) →
        (s.FrameBacked i → descendCreating v (nonLeafLevels.drop n) t s =
          descendCreating v (nonLeafLevels.drop (n + 1)) (pageAddr i) (s.withTable i (entryAddr t (vidx v (levelAt n))))) ∧
        (¬ s.FrameBacked i → ∃ zs, (∀ k ∈ zs, k < 512) ∧
          descendCreating v (nonLeafLevels.drop n) t s = .busError (s.withZeros i zs)) := by
  have haal := entryAddr_aligned t (vidx v (levelAt n)) (hT.backed v n t (by omega) ht).1
  rw [drop_nonLeafLevels hn, descendCreating, memRead_of_valid haal hv, andThen_ok]
  simp only [habs, Bool.false_eq_true, if_false]
  refine ⟨fun h => ?_, fun i hi hf hlow => ⟨fun hB => ?_, fun hB => ?_⟩⟩
  · rw [installTable, pfaAllocOne_of_full s (freeList_eq_nil.mp h)]
    simp only [if_true, andThen_ok]
  · rw [installTable_of_free hF hB hi hf hlow haal hv, andThen_ok]
  · obtain ⟨zs, h1, h2⟩ := installTable_of_absent (a := entryAddr t (vidx v (levelAt n))) hF hB hi hf hlow
    exact ⟨zs, h1, by rw [h2, andThen_busError]⟩

/-- `descendCreating_absent` on the list of free pages. -/
theorem descendCreating_first {v t : Word} {n f : Nat} {s : State} (hT : s.TreeInv) (hF : s.FrameInv) (hn : n < 3)
    (ht : tableAt s.mem s.root v n = some t) (habs : present (s.mem.readWord (entryAddr t (vidx v (levelAt n)))) = false)
    (hv : s.memValid (entryAddr t (vidx v (levelAt n))) = true) (hf : s.freeList[0]? = some f) (hB : ¬ s.FrameBacked f) :
    ∃ zs, (∀ k ∈ zs, k < 512) ∧ descendCreating v (nonLeafLevels.drop n) t s = .busError (s.withZeros f zs) := by
  cases hl : s.freeList with
  | nil => rw [hl] at hf; cases hf
  | cons i rest =>
    rw [hl, List.getElem?_cons_zero] at hf
    injection hf with hf
    subst hf
    obtain ⟨hi, hu, hlow, _⟩ := freeList_cons hl
    exact ((descendCreating_absent hT hF hn ht habs hv).2 i hi hu hlow).2 hB

/-- The creating descent over its first `m` tables, when the frames they take have memory behind them: it stands at the last one, or,
with none made, at the table `t` it came from (R152). -/
theorem descendCreating_run {v t : Word} {n m : Nat} {s : State} (hT : s.TreeInv) (hF : s.FrameInv) (hnm : n + m ≤ 3)
    (ht : tableAt s.mem s.root v n = some t)
    (habs : n < 3 → present (s.mem.readWord (entryAddr t (vidx v (levelAt n)))) = false)
    (hv : s.memValid (entryAddr t (vidx v (levelAt n))) = true) (hm : m ≤ s.freePages)
    (hB : ∀ p ∈ s.freeList.take m, s.FrameBacked p) :
    ∃ s' y, Creates v n t m s s' ∧ tableAt s'.mem s'.root v (n + m) = some y ∧
      (n + m < 3 → present (s'.mem.readWord (entryAddr y (vidx v (levelAt (n + m))))) = false) ∧
      s'.memValid (entryAddr y (vidx v (levelAt (n + m)))) = true ∧
      descendCreating v (nonLeafLevels.drop n) t s = descendCreating v (nonLeafLevels.drop (n + m)) y s' := by
  induction m generalizing n t s with
  | zero => exact ⟨s, t, creates_none hT hF, ht, habs, hv, rfl⟩
  | succ m ih =>
    have hn : n < 3 := by omega
    cases hl : s.freeList with
    | nil =>
      have := length_freeList s
      rw [hl, List.length_nil] at this
      omega
    | cons i rest =>
      obtain ⟨hi, hf, hlow, hrest⟩ := freeList_cons hl
      have htal := (hT.backed v n t (by omega) ht).1
      have hg := grew_withTable hT hF hn ht (habs hn) hi hf
      have hnew := tableAt_withTable_new hT hF hn ht (habs hn) hi hf
      rw [← hg.root] at hnew
      obtain ⟨hzero, _, _⟩ := readWord_withTable hF hi hf (entryAddr t (vidx v (levelAt n))) (entryAddr_aligned _ _ htal)
        (by rw [pageIndex_entryAddr _ _ htal]; exact (hT.backed v n t (by omega) ht).2.2.2)
      have hfree := freePages_withTable (s := s) (entryAddr t (vidx v (levelAt n))) hi hf
      have hlist := freeList_withTable (entryAddr t (vidx v (levelAt n))) hi hf hlow
      have hBi : s.FrameBacked i := hB i (by rw [hl]; simp)
      obtain ⟨s', y, h1, h2, h3, h4, h5⟩ := ih hg.tree hg.frames (by omega) hnew (fun _ => by rw [hzero]; rfl)
        (frameBacked_congr hg.cfg hBi _) (by omega) fun p hp => frameBacked_congr hg.cfg (hB p (by
          rw [hlist, List.take_succ_cons]
          exact List.mem_cons_of_mem _ hp))
      rw [show n + 1 + m = n + (m + 1) by omega] at h2 h3 h4 h5
      refine ⟨s', y, Creates.first hT hF hn ht (habs hn) hi hf hlow h1, h2, h3, h4, ?_⟩
      rw [((descendCreating_absent hT hF hn ht (habs hn) hv).2 i hi hf hlow).1 hBi, h5]

/-- Where the tables exist the descent only reads (R152, R154). -/
theorem descendCreating_skip {v x : Word} {k : Nat} {s : State} (hT : s.TreeInv) (hP : s.PathBacked s.root v) (hk : k ≤ 3)
    (hx : tableAt s.mem s.root v k = some x) :
    descendCreating v nonLeafLevels s.root s = descendCreating v (nonLeafLevels.drop k) x s := by
  induction k generalizing x with
  | zero =>
    injection hx with hx
    rw [hx, List.drop_zero]
  | succ k ih =>
    obtain ⟨t, h1, h2, h3⟩ := tableAt_succ_eq_some (by omega) hx
    rw [ih (by omega) h1, drop_nonLeafLevels (by omega), descendCreating,
      memRead_of_valid (entryAddr_aligned _ _ (hT.backed v k t (by omega) h1).1) (pathBacked_entry hP (by omega) h1), andThen_ok]
    simp only [h2, if_true, h3]

/-- A path on which fewer tables were created than it lacks ends below the last of them (R155). -/
theorem Creates.ends {v t : Word} {n m : Nat} {s s' : State} (h : Creates v n t m s s') (hm : n + m < 3)
    (hlen : m ≤ s.freeList.length) (ht : tableAt s.mem s.root v n = some t)
    (habs : present (s.mem.readWord (entryAddr t (vidx v (levelAt n)))) = false) : tableAt s'.mem s.root v (n + m + 1) = none := by
  obtain ⟨y, hy, hyabs⟩ : ∃ y, tableAt s'.mem s.root v (n + m) = some y ∧
      present (s'.mem.readWord (entryAddr y (vidx v (levelAt (n + m))))) = false := by
    cases m with
    | zero => exact ⟨t, by rw [h.idle rfl]; exact ht, by rw [h.idle rfl]; exact habs⟩
    | succ m =>
      obtain ⟨p, hp⟩ : ∃ p, s.freeList[m]? = some p := ⟨_, List.getElem?_eq_getElem (by omega)⟩
      exact ⟨_, h.table m p (by omega) hp, by rw [h.zero m p _ (by omega) hp (.inr rfl)]; rfl⟩
  rw [tableAt_succ _ _ _ hm, hy, Option.bind_some, hyabs]
  rfl

/-- The tables of the grown tree: the old ones, and the new ones on the path of `v` (R164). -/
theorem Creates.only {v t : Word} {n m : Nat} {s s' : State} (h : Creates v n t m s s') (hn : n + m ≤ 3) {w x : Word}
    {k : Nat} (hk : k ≤ 3) (hx : tableAt s'.mem s.root w k = some x) :
    tableAt s.mem s.root w k = some x ∨ (0 < m ∧ n < k ∧ k ≤ n + m ∧ ∀ l ∈ nonLeafLevels.take k, vidx w l = vidx v l) := by
  rcases h.grew.fresh w k x hk hx with h1 | h1
  · exact .inl h1
  · rw [← h.grew.root] at hx
    obtain ⟨hal, _, hlt, hu⟩ := h.grew.tree.backed w k x hk hx
    simp only [pageSize] at hal
    rw [h.taken, h1, Bool.false_or, List.contains_iff_mem, List.mem_take_iff_getElem] at hu
    obtain ⟨j, hj, hp⟩ := hu
    have hget : s.freeList[j]? = some (pageIndex x) := by rw [← hp]; exact List.getElem?_eq_getElem (by omega)
    have hpage : x = pageAddr (pageIndex x) := by
      apply BitVec.eq_of_toNat_eq
      rw [pageAddr_toNat h.grew.frames hlt]
      unfold pageIndex pageSize
      omega
    have ht := h.table j _ (by omega) hget
    rw [← hpage, ← h.grew.root] at ht
    obtain ⟨e, hpath⟩ := h.grew.tree.unshared w v k (n + j + 1) x hk (by omega) hx ht
    exact .inr ⟨by omega, by omega, by omega, hpath⟩

/-! ## A map exactly -/

/-- A map whose leaf table exists (R154). -/
theorem ptwMap_present {v p f x : Word} {s : State} (hT : s.TreeInv) (hP : s.PathBacked s.root v)
    (hx : tableAt s.mem s.root v 3 = some x) :
    ptwMap v p f s = .ok true (tlbInvalidate (vpn v) (s.storeWord (entryAddr x (vidx v .pt)) (p ||| f))) := by
  have hal := (hT.backed v 3 x (by omega) hx).1
  have hd : descendCreating v nonLeafLevels s.root s = .ok (some x) s := descendCreating_skip hT hP (by omega) hx
  rw [ptwMap, hd, andThen_ok]
  simp only [memWrite_of_valid (entryAddr_aligned _ _ hal)
    (show s.memValid (entryAddr x (vidx v .pt)) = true from pathBacked_entry (n := 3) hP (by omega) hx), andThen_ok]

section MapAbsent

variable {v p f t : Word} {n : Nat} {s : State} (hT : s.TreeInv) (hF : s.FrameInv) (hP : s.PathBacked s.root v) (hn : n < 3)
  (ht : tableAt s.mem s.root v n = some t) (habs : present (s.mem.readWord (entryAddr t (vidx v (levelAt n)))) = false)

include hT hF hP hn ht habs

/-- A map whose path ends at depth `n`, with the frames it lacks (R152). -/
theorem ptwMap_creates (hfree : 3 - n ≤ s.freePages) (hB : ∀ p ∈ s.freeList.take (3 - n), s.FrameBacked p) :
    ∃ s' i, Creates v n t (3 - n) s s' ∧ s.freeList[2 - n]? = some i ∧ tableAt s'.mem s'.root v 3 = some (pageAddr i) ∧
      ptwMap v p f s = .ok true (tlbInvalidate (vpn v) (s'.storeWord (entryAddr (pageAddr i) (vidx v .pt)) (p ||| f))) := by
  obtain ⟨s', y, hc, hy, _, hv, hd⟩ := descendCreating_run hT hF (m := 3 - n) (by omega) ht (fun _ => habs)
    (pathBacked_entry hP (by omega) ht) hfree hB
  rw [← descendCreating_skip hT hP (by omega) ht] at hd
  rw [show n + (3 - n) = 3 by omega] at hy hv hd
  have hlen := length_freeList s
  obtain ⟨i, hi⟩ : ∃ i, s.freeList[2 - n]? = some i := ⟨_, List.getElem?_eq_getElem (by omega)⟩
  have hu := hc.table (2 - n) i (by omega) hi
  rw [show n + (2 - n) + 1 = 3 by omega, ← hc.grew.root, hy] at hu
  injection hu with hu
  subst hu
  refine ⟨s', i, hc, hi, hy, ?_⟩
  rw [ptwMap, hd]
  simp only [nonLeafLevels, List.drop, descendCreating, andThen_ok,
    memWrite_of_valid (entryAddr_aligned _ _ (pageAddr_aligned i)) (show s'.memValid (entryAddr _ (vidx v .pt)) = true from hv)]

/-- A map whose path ends at depth `n`, without the frames it lacks (R155). -/
theorem ptwMap_fails (hfree : s.freePages < 3 - n) (hB : ∀ p ∈ s.freeList, s.FrameBacked p) :
    ∃ s', Creates v n t s.freePages s s' ∧ ptwMap v p f s = .ok false s' := by
  obtain ⟨s', y, hc, hy, hyabs, hv, hd⟩ := descendCreating_run hT hF (m := s.freePages) (by omega) ht (fun _ => habs)
    (pathBacked_entry hP (by omega) ht) (le_refl _) fun p hp => hB p (List.mem_of_mem_take hp)
  have hnil : s'.freeList = [] := by
    rw [hc.free, ← length_freeList, List.drop_length]
  rw [← descendCreating_skip hT hP (by omega) ht,
    (descendCreating_absent hc.grew.tree hc.grew.frames (by omega) hy (hyabs (by omega)) hv).1 hnil] at hd
  exact ⟨s', hc, by rw [ptwMap, hd, andThen_ok]⟩

/-- A map whose path ends at depth `n` and whose frame number `m` lacks memory: the frames before it are linked tables, it stays taken
(R225). -/
theorem ptwMap_absent {m g : Nat} (hm : m < 3 - n) (hB : ∀ p ∈ s.freeList.take m, s.FrameBacked p) (hg : s.freeList[m]? = some g)
    (hgB : ¬ s.FrameBacked g) :
    ∃ s' zs, Creates v n t m s s' ∧ (∀ k ∈ zs, k < 512) ∧ ptwMap v p f s = .busError (s'.withZeros g zs) := by
  have hlen := length_freeList s
  have hlt := (List.getElem?_eq_some_iff.mp hg).1
  obtain ⟨s', y, hc, hy, hyabs, hv, hd⟩ := descendCreating_run hT hF (m := m) (by omega) ht (fun _ => habs)
    (pathBacked_entry hP (by omega) ht) (by omega) hB
  have hg' : s'.freeList[0]? = some g := by rw [hc.free, List.getElem?_drop, Nat.add_zero, hg]
  obtain ⟨zs, hzs, hz⟩ := descendCreating_first hc.grew.tree hc.grew.frames (by omega) hy (hyabs (by omega)) hv hg'
    fun h => hgB (frameBacked_congr hc.grew.cfg.symm h)
  rw [← descendCreating_skip hT hP (by omega) ht, hz] at hd
  exact ⟨s', zs, hc, hzs, by rw [ptwMap, hd, andThen_busError]⟩

end MapAbsent

end Sys2Proof.Machine
end

