-- ==== Sys2Proof/Laws/Decoding.lean ====
section
/-! SUPPORT. The command word both ways (R92, R93, R96, R97) and the register table (R36). -/

namespace Sys2Proof

theorem decode_encode (i : Instr) : decode (encode i) = .ok i := by
  cases i <;> decide

theorem ofOpcode_opcode (i : Instr) : Instr.ofOpcode i.opcode = some i := by
  cases i <;> decide

theorem ofOpcode_eq_some {op : BitVec 8} {i : Instr} (h : Instr.ofOpcode op = some i) : i.opcode = op := by
  simpa using List.find?_some h

theorem mem_all (i : Instr) : i ∈ Instr.all := by
  cases i <;> decide

theorem ofOpcode_eq_none {op : BitVec 8} : Instr.ofOpcode op = none ↔ ∀ i : Instr, op ≠ i.opcode := by
  simp only [Instr.ofOpcode, List.find?_eq_none, beq_iff_eq]
  exact ⟨fun h i e => h i (mem_all i) e.symm, fun h i _ e => h i e.symm⟩

/-- A word is its upper 24 bits and its `op` field (R92). -/
theorem word_eq_append (w : Word32) : w = (w.extractLsb' 8 24 ++ w.extractLsb' 0 8 : BitVec 32) := by
  apply BitVec.eq_of_getLsbD_eq
  intro i hi
  simp only [BitVec.getLsbD_append, BitVec.getLsbD_extractLsb']
  by_cases h : i < 8
  · simp [h]
  · simp [h, show i - 8 < 24 by omega, show 8 + (i - 8) = i by omega]

/-- What the decoder accepts is the command's own word (R97). -/
theorem decode_eq_ok {w : Word32} {i : Instr} (h : decode w = .ok i) : w = encode i := by
  unfold decode at h
  split at h
  · cases h
  · rename_i h0
    split at h
    · rename_i j hj
      injection h with h
      subst h
      rw [word_eq_append w, not_not.mp h0, ← ofOpcode_eq_some hj]
      rfl
    · cases h

theorem atOffset_offset (r : Reg) : Reg.atOffset r.offset = some r := by
  cases r <;> decide

theorem atOffset_eq_some {offset : Nat} {r : Reg} (h : Reg.atOffset offset = some r) : offset = r.offset := by
  have h1 : r.offset = offset := by simpa using List.find?_some h
  exact h1.symm

end Sys2Proof
end

