-- ==== Sys2Proof/Laws/IdentityMap.lean ====
section
/-! SUPPORT. The way of a `VMM_INIT` (R151): the fresh root, what a run of maps under it leaves, and the identity map exactly: the frames it
takes in order, where its tables lie, what it maps, and how it ends when the frames run out. -/

namespace Sys2Proof.Machine

/-! ## The fresh root -/

/-- The state after the lowest free page `i` has become the zeroed root (R151). -/
def State.withRoot (s : State) (i : Nat) : State :=
  { s.takePages i 1 with mem := zeroedPage s.mem (pageAddr i), root := pageAddr i }

/-- `u` is on the way of a `VMM_INIT` that began at `s`: the tree at the new root lies in frames taken since, only those frames have
been stored to, and only invalidations have touched the cache (R151). -/
structure Since (s u : State) : Prop where
  tree : u.TreeInv
  frames : u.FrameInv
  activeRoot : u.activeRoot = s.activeRoot
  cfg : u.cfg = s.cfg
  totalBlocks : u.totalBlocks = s.totalBlocks
  tlb : ∀ p ∈ u.tlb, p ∈ s.tlb
  used : ∀ i, s.bitmap.used i = true → u.bitmap.used i = true
  inRange : ∀ i, s.totalPages ≤ i → u.bitmap.used i = s.bitmap.used i
  fresh : ∀ w k x, k ≤ 3 → tableAt u.mem u.root w k = some x → s.bitmap.used (pageIndex x) = false
  bytes : ∀ b, u.bitmap.used (pageIndex b) = s.bitmap.used (pageIndex b) → u.mem.readByte b = s.mem.readByte b

theorem Since.grew {s u v : State} (h : Since s u) (g : Grew u v) : Since s v where
  tree := g.tree
  frames := g.frames
  activeRoot := g.activeRoot.trans h.activeRoot
  cfg := g.cfg.trans h.cfg
  totalBlocks := g.totalBlocks.trans h.totalBlocks
  tlb := by rw [g.tlb]; exact h.tlb
  used i hi := g.used i (h.used i hi)
  inRange i hi := (g.inRange i (by simpa only [State.totalPages, h.totalBlocks] using hi)).trans (h.inRange i hi)
  fresh w k x hk hx := by
    rw [g.root] at hx
    rcases g.fresh w k x hk hx with h1 | h1
    · exact h.fresh w k x hk h1
    · by_contra hu
      rw [h.used _ (by simpa using hu)] at h1
      cases h1
  bytes b hb := by
    obtain ⟨h1, h2⟩ := used_between (h.used _) (g.used _) hb
    rw [← h.bytes b h1]
    refine g.bytes b h2 fun w k x hk hx e => ?_
    have h3 := h.fresh w k x hk hx
    have h4 := (h.tree.backed w k x hk hx).2.2.2
    rw [e, h3, h4] at h1
    cases h1

theorem Since.mapped {s u t : State} {v x : Word} (h : Since s u) (g : Mapped v x u t) : Since s t where
  tree := g.tree
  frames := g.frames
  activeRoot := g.activeRoot.trans h.activeRoot
  cfg := g.cfg.trans h.cfg
  totalBlocks := g.totalBlocks.trans h.totalBlocks
  tlb p hp := h.tlb p (List.mem_of_mem_filter (by rwa [g.tlb] at hp))
  used i hi := g.used i (h.used i hi)
  inRange i hi := (g.inRange i (by simpa only [State.totalPages, h.totalBlocks] using hi)).trans (h.inRange i hi)
  fresh w k x hk hx := by
    rw [g.root] at hx
    rcases g.fresh w k x hk hx with h1 | h1
    · exact h.fresh w k x hk h1
    · by_contra hu
      rw [h.used _ (by simpa using hu)] at h1
      cases h1
  bytes b hb := by
    obtain ⟨h1, h2⟩ := used_between (h.used _) (g.used _) hb
    rw [← h.bytes b h1]
    refine g.bytes b h2 fun w k x hk hx e => ?_
    have h3 := h.fresh w k x hk hx
    have h4 := (h.tree.backed w k x hk hx).2.2.2
    rw [e, h3, h4] at h1
    cases h1

/-- Under the fresh root nothing is mapped and no table linked. -/
theorem tableAt_withRoot {s : State} {i : Nat} {w : Word} {k : Nat} (hk : k ≤ 3) :
    tableAt (s.withRoot i).mem (pageAddr i) w k = if k = 0 then some (pageAddr i) else none := by
  cases k with
  | zero => rfl
  | succ k =>
    induction k with
    | zero =>
      have : (s.withRoot i).mem.readWord (entryAddr (pageAddr i) (vidx w (levelAt 0))) = 0 :=
        readWord_zeroPage_same _ _ (pageAddr_aligned i) _
      rw [tableAt_succ _ _ _ (by omega), tableAt_zero, Option.bind_some, this]
      rfl
    | succ k ih =>
      rw [tableAt_succ _ _ _ (by omega), ih (by omega)]
      rfl

theorem since_withRoot {s : State} {i : Nat} (hF : s.FrameInv) (hi : i < s.totalPages) (hf : s.bitmap.used i = false) :
    Since s (s.withRoot i) := by
  have hb : (s.withRoot i).bitmap = s.bitmap.setPages i 1 := rfl
  have hpi := pageIndex_pageAddr hF hi
  have honly : ∀ w k x, k ≤ 3 → tableAt (s.withRoot i).mem (s.withRoot i).root w k = some x → k = 0 ∧ x = pageAddr i := by
    intro w k x hk hx
    have := tableAt_withRoot (s := s) (i := i) (w := w) hk
    by_cases h0 : k = 0
    · subst h0
      exact ⟨rfl, (Option.some.inj hx).symm⟩
    · rw [if_neg h0] at this
      exact absurd (hx.symm.trans this) (by simp)
  refine ⟨⟨fun w k x hk hx => ?_, fun v w n k x hn hk hv hw => ?_, fun w k x idx hk hx => ?_⟩, ?_, rfl, rfl, rfl, fun p hp => hp,
    fun j hj => ?_, fun j hj => ?_, fun w k x hk hx => ?_, fun b hbb => ?_⟩
  · obtain ⟨_, rfl⟩ := honly w k x hk hx
    rw [hpi]
    refine ⟨pageAddr_aligned i, by simpa using reserved_le_of_free hF hf, hi, ?_⟩
    rw [hb, used_setPages]
    simp
  · obtain ⟨rfl, _⟩ := honly v n x hn hv
    obtain ⟨rfl, _⟩ := honly w k x hk hw
    exact ⟨rfl, fun l hl => by cases hl⟩
  · obtain ⟨_, rfl⟩ := honly w k x (by omega) hx
    exact .inl (readWord_zeroPage_same _ _ (pageAddr_aligned i) _)
  · obtain ⟨h1, h2, h3, h4, h5, h6⟩ := frameInv_takePages hF (f := i) (c := 1) (by omega) fun j h1 h2 => by rwa [show j = i by omega]
    exact ⟨h1, h2, h3, h4, h5, h6⟩
  · rw [hb, used_setPages, hj, Bool.true_or]
  · rw [hb, used_setPages, decide_eq_false (show ¬ j < i + 1 by omega), Bool.and_false, Bool.or_false]
  · obtain ⟨_, rfl⟩ := honly w k x hk hx
    rw [hpi, hf]
  · refine readByte_zeroPage_other _ (pageAddr_aligned i) ?_
    rw [hpi]
    intro e
    rw [e, hb, used_setPages, hf] at hbb
    simp at hbb

/-- Whatever the run of maps does, it is on the way of the `VMM_INIT` (R151). -/
theorem leaves_since {s u : State} (h : Since s u) (ks : List Nat) : (identityMap ks u).Leaves (Since s) := by
  induction ks generalizing u with
  | nil => exact h
  | cons k ks ih =>
    obtain ⟨h1, h2, h3⟩ := ptwMap_spec (v := pageAddr k) (p := pageAddr k) (f := tableFlags) h.tree h.frames
    rw [identityMap]
    cases hm : ptwMap (pageAddr k) (pageAddr k) tableFlags u with
    | fault f => trivial
    | busError t => exact h.grew (h3 t hm)
    | ok b t =>
      rw [andThen_ok]
      cases b with
      | true => exact ih (h.mapped (h1 t hm))
      | false => exact h.grew (h2 t hm).1

/-! ## The indices of an identity page -/

theorem vidx_toNat (v : Word) (l : Level) : (vidx v l).toNat = v.toNat / 2 ^ (12 + 9 * l.number) % 512 := by
  rw [vidx, BitVec.extractLsb'_toNat, Nat.shiftRight_eq_div_pow]

theorem vpn_toNat (v : Word) : (vpn v).toNat = v.toNat / 4096 % 2 ^ 36 := by
  rw [vpn, BitVec.extractLsb'_toNat, Nat.shiftRight_eq_div_pow]

theorem vpn_pageAddr {k : Nat} (hk : k < 4096) : (vpn (pageAddr k)).toNat = k := by
  rw [vpn_toNat, pageAddr, pageSize, BitVec.toNat_ofNat]
  omega

theorem vidx_pageAddr {k : Nat} (hk : k < 4096) :
    (vidx (pageAddr k) .pml4).toNat = 0 ∧ (vidx (pageAddr k) .pdpt).toNat = 0 ∧ (vidx (pageAddr k) .pd).toNat = k / 512 := by
  simp only [vidx_toNat, Level.number, pageAddr, pageSize, BitVec.toNat_ofNat]
  omega

/-- The first 4096 pages are those of the first 16 MiB (R70). -/
theorem vpn_lt_iff (v : Word) : (vpn v).toNat < 4096 ↔ v.extractLsb' 24 24 = 0#24 := by
  rw [← BitVec.toNat_inj, BitVec.extractLsb'_toNat, vpn_toNat, Nat.shiftRight_eq_div_pow]
  simp
  omega

/-- There the page number is bits 23 to 12, and the place of its leaf table bits 23 to 21 (R70). -/
theorem vpn_bits {v : Word} (h : v.extractLsb' 24 24 = 0#24) :
    (vpn v).toNat = (v.extractLsb' 12 12).toNat ∧ (v.extractLsb' 21 3).toNat = (vpn v).toNat / 512 := by
  have h1 := (vpn_lt_iff v).mpr h
  rw [BitVec.extractLsb'_toNat, BitVec.extractLsb'_toNat, Nat.shiftRight_eq_div_pow, Nat.shiftRight_eq_div_pow]
  rw [vpn_toNat] at h1 ⊢
  omega

/-- The path down to depth `n` depends on the indices it takes. -/
theorem tableAt_congr {m : Memory} {r v w : Word} {n : Nat} (h : ∀ l ∈ nonLeafLevels.take n, vidx v l = vidx w l) :
    tableAt m r v n = tableAt m r w n := by
  unfold tableAt
  generalize nonLeafLevels.take n = ls at h
  induction ls generalizing r with
  | nil => rfl
  | cons l ls ih =>
    simp only [tableBelow, h l (by simp)]
    split
    · exact ih fun l' hl' => h l' (by simp [hl'])
    · rfl

theorem same_leaf_table {v w : Word} : (∀ l ∈ nonLeafLevels.take 3, vidx v l = vidx w l) ↔ (vpn v).toNat / 512 = (vpn w).toNat / 512 := by
  have h := vidx_toNat v
  have h' := vidx_toNat w
  have hi : ∀ l, vidx v l = vidx w l ↔ (vidx v l).toNat = (vidx w l).toNat := fun l => BitVec.toNat_inj.symm
  simp only [nonLeafLevels, List.take, List.mem_cons, List.not_mem_nil, or_false, forall_eq_or_imp, forall_eq, hi, h, h', Level.number,
    vpn_toNat]
  omega

theorem same_upper_tables {j k : Nat} (hj : j < 4096) (hk : k < 4096) {n : Nat} (hn : n ≤ 2) :
    ∀ l ∈ nonLeafLevels.take n, vidx (pageAddr j) l = vidx (pageAddr k) l := by
  obtain ⟨h1, h2, _⟩ := vidx_pageAddr hj
  obtain ⟨h3, h4, _⟩ := vidx_pageAddr hk
  intro l hl
  have : l = .pml4 ∨ l = .pdpt := by
    have := (List.take_subset_take_left nonLeafLevels hn) hl
    simpa [nonLeafLevels] using this
  rcases this with rfl | rfl
  · exact BitVec.eq_of_toNat_eq (h1.trans h3.symm)
  · exact BitVec.eq_of_toNat_eq (h2.trans h4.symm)

/-! ## The run of maps -/

/-- How many tables the first `k` identity pages take, the root counted (R151). -/
def tablesFor (k : Nat) : Nat :=
  if k = 0 then 1 else 3 + (k + 511) / 512

/-- `u` is the state of a `VMM_INIT` that began at `s` once the first `k` pages are mapped (R151). -/
structure IdMapped (s : State) (k : Nat) (u : State) : Prop where
  since : Since s u
  enough : tablesFor k ≤ s.freePages
  root : s.freeList[0]?.map pageAddr = some u.root
  rest : u = { s with root := u.root, mem := u.mem, bitmap := u.bitmap, usedPages := s.usedPages + BitVec.ofNat 64 (tablesFor k),
                      tlb := s.tlb.filter fun p => decide (k ≤ p.1.toNat) }
  taken : ∀ i, u.bitmap.used i = (s.bitmap.used i || (s.freeList.take (tablesFor k)).contains i)
  free : u.freeList = s.freeList.drop (tablesFor k)
  upper : 0 < k → ∀ n, n = 1 ∨ n = 2 → ∃ p, s.freeList[n]? = some p ∧ tableAt u.mem u.root (pageAddr 0) n = some (pageAddr p)
  leafTable : ∀ j < k, ∃ p, s.freeList[3 + j / 512]? = some p ∧ tableAt u.mem u.root (pageAddr j) 3 = some (pageAddr p)
  only : ∀ w x, tableAt u.mem u.root w 3 = some x → (vpn w).toNat / 512 < (k + 511) / 512
  bare : k = 0 → ∀ w, tableAt u.mem u.root w 1 = none
  leaves : ∀ w, leafEntry u.mem u.root w = if (vpn w).toNat < k then some (pageAddr (vpn w).toNat ||| tableFlags) else none

theorem idMapped_zero {s : State} {i : Nat} (hF : s.FrameInv) (hi : i < s.totalPages) (hf : s.bitmap.used i = false)
    (hlow : ∀ j < i, s.bitmap.used j = true) : IdMapped s 0 (s.withRoot i) := by
  have hlist := freeList_takePages hi hf hlow
  have hlen := length_freeList s
  rw [hlist] at hlen
  simp only [List.length_cons] at hlen
  have ht : tablesFor 0 = 1 := rfl
  refine ⟨since_withRoot hF hi hf, by rw [ht]; omega, by rw [hlist]; rfl, ?_, fun j => ?_, ?_, by omega, by omega, fun w x hx => ?_,
    fun _ w => tableAt_withRoot (by omega), fun w => ?_⟩
  · rw [ht]
    simp only [State.withRoot, State.takePages, Nat.zero_le, decide_true, List.filter_true]
  · rw [ht, hlist, List.take_succ_cons, List.take_zero]
    show (s.bitmap.setPages i 1).used j = _
    rw [used_setPages, List.contains_cons, List.contains_nil, Bool.or_false]
    congr 1
    rw [Bool.eq_iff_iff]
    simp only [Bool.and_eq_true, decide_eq_true_eq, beq_iff_eq]
    omega
  · rw [ht, hlist, List.drop_succ_cons, List.drop_zero]
    rfl
  · rw [show (s.withRoot i).root = pageAddr i from rfl, tableAt_withRoot (by omega)] at hx
    cases hx
  · rw [show (s.withRoot i).root = pageAddr i from rfl, leafEntry_of_none (tableAt_withRoot (by omega))]
    simp

/-- A leaf write for the page `k`, the tables it needs in place, takes the run one page on. -/
theorem IdMapped.step {s u u1 : State} {k n m : Nat} {t x : Word} (h : IdMapped s k u) (hk : k < 4096)
    (hc : Creates (pageAddr k) n t m u u1) (hm : tablesFor k + m = tablesFor (k + 1)) (hnm : n + m ≤ 3) (h3 : 0 < m → n + m = 3)
    (hn : n = if k = 0 then 0 else 2) (hle : m ≤ u.freePages)
    (hx : tableAt u1.mem u1.root (pageAddr k) 3 = some x) :
    IdMapped s (k + 1) (tlbInvalidate (vpn (pageAddr k)) (u1.storeWord (entryAddr x (vidx (pageAddr k) .pt)) (pageAddr k ||| tableFlags))) := by
  have hg := hc.grew.mapped (x := pageAddr k ||| tableFlags) hx
  have hlenu := length_freeList u
  have hlens := length_freeList s
  have hat : ∀ w j, j ≤ 3 → tableAt (u1.storeWord (entryAddr x (vidx (pageAddr k) .pt)) (pageAddr k ||| tableFlags)).mem u.root w j =
      tableAt u1.mem u.root w j := fun w j hj => by
    rw [← hc.grew.root]
    exact tableAt_leafWrite hc.grew.tree hx _ hj
  have hget : ∀ j, u.freeList[j]? = s.freeList[tablesFor k + j]? := fun j => by rw [h.free, List.getElem?_drop]
  have hroot : (tlbInvalidate (vpn (pageAddr k)) (u1.storeWord (entryAddr x (vidx (pageAddr k) .pt)) (pageAddr k ||| tableFlags))).root = u.root :=
    hc.grew.root
  refine ⟨h.since.mapped hg, ?_, by rw [hroot]; exact h.root, ?_, fun i => ?_, ?_, ?_, ?_, ?_, by omega, ?_⟩
  · have := h.enough
    rw [h.free, List.length_drop] at hlenu
    omega
  · have h1 := hc.rest
    have h2 := h.rest
    have h4 : u1.tlb = s.tlb.filter fun p => decide (k ≤ p.1.toNat) := hc.grew.tlb.trans (congrArg State.tlb h2)
    have e : ∀ (M : Memory) (T : Tlb), ({ u1 with mem := M, tlb := T } : State) =
        { s with root := u.root, mem := M, bitmap := u1.bitmap, usedPages := s.usedPages + BitVec.ofNat 64 (tablesFor (k + 1)), tlb := T } := by
      intro M T
      rw [h1, h2]
      simp only [State.mk.injEq, true_and, and_true]
      rw [← hm, BitVec.add_assoc]
      congr 1
      apply BitVec.eq_of_toNat_eq
      simp
    refine (e _ _).trans ?_
    rw [hroot, show (u1.storeWord (entryAddr x (vidx (pageAddr k) .pt)) (pageAddr k ||| tableFlags)).tlb = u1.tlb from rfl, h4]
    have h5 : Tlb.remove (s.tlb.filter fun p => decide (k ≤ p.1.toNat)) (vpn (pageAddr k)) =
        s.tlb.filter fun p => decide (k + 1 ≤ p.1.toNat) := by
      rw [Tlb.remove, List.filter_filter]
      refine List.filter_congr fun p _ => ?_
      have hkk := vpn_pageAddr hk
      rw [Bool.eq_iff_iff]
      simp only [Bool.and_eq_true, bne_iff_ne, ne_eq, decide_eq_true_eq, ← BitVec.toNat_inj, hkk]
      omega
    rw [h5]
    rfl
  · rw [tlbInvalidate_bitmap, storeWord_bitmap, hc.taken, h.taken, ← hm, h.free, List.take_add, Bool.or_assoc]
    congr 1
    rw [Bool.eq_iff_iff]
    simp only [Bool.or_eq_true, List.contains_iff_mem, List.mem_append]
  · show u1.freeList = _
    rw [hc.free, h.free, List.drop_drop, hm]
  · intro _ j hj
    rw [hroot, tlbInvalidate_mem, hat _ j (by omega)]
    by_cases hk0 : k = 0
    · subst hk0
      have hm3 : m = 3 := by
        have : 1 + m = 4 := hm
        omega
      subst hm3
      simp only [if_true] at hn
      subst hn
      obtain ⟨p, hp⟩ : ∃ p, u.freeList[j - 1]? = some p := ⟨_, List.getElem?_eq_getElem (by omega)⟩
      have := hc.table (j - 1) p (by omega) hp
      rw [show 0 + (j - 1) + 1 = j by omega] at this
      refine ⟨p, ?_, this⟩
      rw [hget, show tablesFor 0 = 1 from rfl] at hp
      rw [← hp, show 1 + (j - 1) = j by omega]
    · obtain ⟨p, hp, ht⟩ := h.upper (by omega) j hj
      exact ⟨p, hp, hc.grew.tables _ j _ (by omega) ht⟩
  · intro j hj
    rw [hroot, tlbInvalidate_mem, hat _ 3 (by omega)]
    by_cases hjk : j < k
    · obtain ⟨p, hp, ht⟩ := h.leafTable j hjk
      exact ⟨p, hp, hc.grew.tables _ 3 _ (by omega) ht⟩
    · obtain rfl : j = k := by omega
      by_cases hm0 : m = 0
      · subst hm0
        have hk0 : j ≠ 0 ∧ (j - 1) / 512 = j / 512 := by
          unfold tablesFor at hm
          split at hm <;> simp at hm <;> omega
        obtain ⟨p, hp, ht⟩ := h.leafTable (j - 1) (by omega)
        refine ⟨p, by rw [← hk0.2]; exact hp, ?_⟩
        have hsame := same_leaf_table (v := pageAddr j) (w := pageAddr (j - 1))
        rw [vpn_pageAddr hk, vpn_pageAddr (by omega)] at hsame
        rw [tableAt_congr (hsame.mpr hk0.2.symm)]
        exact hc.grew.tables _ 3 _ (by omega) ht
      · obtain ⟨p, hp⟩ : ∃ p, u.freeList[m - 1]? = some p := ⟨_, List.getElem?_eq_getElem (by omega)⟩
        have := hc.table (m - 1) p (by omega) hp
        have hnm3 := h3 (by omega)
        rw [show n + (m - 1) + 1 = 3 by omega] at this
        refine ⟨p, ?_, this⟩
        rw [← hp, hget]
        congr 1
        unfold tablesFor at hm ⊢
        split at hm <;> split <;> simp at hm <;> omega
  · intro w y hy
    rw [hroot, tlbInvalidate_mem, hat _ 3 (by omega)] at hy
    rcases hc.only hnm (by omega) hy with h4 | ⟨_, _, _, h4⟩
    · have := h.only w y h4
      omega
    · have := same_leaf_table.mp h4
      rw [vpn_pageAddr hk] at this
      omega
  · intro w
    rw [hroot, hg.leaves w, h.leaves w]
    have hkk := vpn_pageAddr hk
    have hp : present (pageAddr k ||| tableFlags) = true := (frame_or_flags (pageAddr_aligned k)).2
    by_cases hv : vpn (pageAddr k) = vpn w
    · rw [if_pos hv, if_pos hp, ← hv, hkk, if_pos (by omega)]
    · have : (vpn w).toNat ≠ k := fun e => hv (BitVec.eq_of_toNat_eq (hkk.trans e.symm))
      rw [if_neg hv]
      by_cases hlt : (vpn w).toNat < k
      · rw [if_pos hlt, if_pos (by omega)]
      · rw [if_neg hlt, if_neg (by omega)]

/-- Every table of the tree on the way lies in one of the frames taken so far (R151). -/
theorem IdMapped.tables {s u : State} {k : Nat} (h : IdMapped s k u) {w x : Word} {n : Nat} (hn : n ≤ 3)
    (hx : tableAt u.mem u.root w n = some x) : ∃ p ∈ s.freeList.take (tablesFor k), x = pageAddr p := by
  obtain ⟨hal, _, hlt, hu⟩ := h.since.tree.backed w n x hn hx
  simp only [pageSize] at hal
  rw [h.taken, h.since.fresh w n x hn hx, Bool.false_or, List.contains_iff_mem] at hu
  refine ⟨_, hu, BitVec.eq_of_toNat_eq ?_⟩
  rw [pageAddr_toNat h.since.frames hlt]
  unfold pageIndex pageSize
  omega

theorem IdMapped.pathBacked {s u : State} {k : Nat} (h : IdMapped s k u) (hB : ∀ p ∈ s.freeList.take (tablesFor k), s.FrameBacked p)
    (v : Word) : u.PathBacked u.root v := by
  intro n a hn ha
  rw [entryOnPath] at ha
  obtain ⟨x, hx, rfl⟩ := Option.map_eq_some_iff.mp ha
  obtain ⟨p, hp, rfl⟩ := h.tables hn hx
  exact frameBacked_congr h.since.cfg (hB p hp) _

/-- The state of a `VMM_INIT` that began at `s` and stopped once `m` frames had become tables (R151, R225): linked one below the other,
and with the pages of the leaf tables made mapped. -/
structure IdStopped (s : State) (m : Nat) (t : State) : Prop where
  since : Since s t
  root : s.freeList[0]?.map pageAddr = some t.root
  rest : t = { s with root := t.root, mem := t.mem, bitmap := t.bitmap, usedPages := s.usedPages + BitVec.ofNat 64 m,
                      tlb := s.tlb.filter fun p => decide (512 * (m - 3) ≤ p.1.toNat) }
  taken : ∀ i, t.bitmap.used i = (s.bitmap.used i || (s.freeList.take m).contains i)
  free : t.freeList = s.freeList.drop m
  upper : ∀ n p, 0 < n → n < m → n ≤ 2 → s.freeList[n]? = some p → tableAt t.mem t.root (pageAddr 0) n = some (pageAddr p)
  leafTable : ∀ j < 512 * (m - 3), ∃ p, s.freeList[3 + j / 512]? = some p ∧ tableAt t.mem t.root (pageAddr j) 3 = some (pageAddr p)
  leaves : ∀ w, leafEntry t.mem t.root w =
    if (vpn w).toNat < 512 * (m - 3) then some (pageAddr (vpn w).toNat ||| tableFlags) else none

/-- The map of the page `k` that makes fewer tables than it lacks stops the run. -/
theorem IdMapped.stop {s u u1 : State} {k n m r : Nat} {t : Word} (h : IdMapped s k u) (hc : Creates (pageAddr k) n t r u u1)
    (hmod : k % 512 = 0) (hn : n = if k = 0 then 0 else 2) (hr : r < 3 - n) (hm : tablesFor k + r = m) :
    IdStopped s m u1 := by
  have hkm : k = 512 * (m - 3) := by
    unfold tablesFor at hm
    split at hn <;> simp_all <;> omega
  have hget : ∀ j, u.freeList[j]? = s.freeList[tablesFor k + j]? := fun j => by rw [h.free, List.getElem?_drop]
  refine ⟨h.since.grew hc.grew, by rw [hc.grew.root]; exact h.root, ?_, fun i => ?_, ?_, fun j p hj0 hj hj2 hp => ?_, ?_, fun w => ?_⟩
  · have h1 := hc.rest
    have h2 := h.rest
    have e : ({ u1 with mem := u1.mem } : State) =
        { s with root := u.root, mem := u1.mem, bitmap := u1.bitmap, usedPages := s.usedPages + BitVec.ofNat 64 m,
                 tlb := s.tlb.filter fun p => decide (512 * (m - 3) ≤ p.1.toNat) } := by
      rw [← hkm]
      rw [h2] at h1
      rw [h1]
      simp only [State.mk.injEq, true_and, and_true]
      rw [BitVec.add_assoc, ← BitVec.ofNat_add, hm]
    rw [hc.grew.root]
    exact e
  · rw [hc.taken, h.taken, ← hm, h.free, List.take_add, Bool.or_assoc]
    congr 1
    rw [Bool.eq_iff_iff]
    simp only [Bool.or_eq_true, List.contains_iff_mem, List.mem_append]
  · rw [hc.free, h.free, List.drop_drop, hm]
  · rw [hc.grew.root]
    by_cases hk0 : k = 0
    · subst hk0
      simp only [if_true] at hn
      subst hn
      have ht0 : tablesFor 0 = 1 := rfl
      have := hc.table (j - 1) p (by omega) (by rw [hget, ht0, show 1 + (j - 1) = j by omega, hp])
      rwa [show 0 + (j - 1) + 1 = j by omega] at this
    · obtain ⟨q, hq, ht⟩ := h.upper (by omega) j (by omega)
      rw [hp] at hq
      injection hq with hq
      subst hq
      exact hc.grew.tables _ j _ (by omega) ht
  · intro j hj
    rw [← hkm] at hj
    obtain ⟨p, hp, ht⟩ := h.leafTable j hj
    exact ⟨p, hp, by rw [hc.grew.root]; exact hc.grew.tables _ 3 _ (by omega) ht⟩
  · rw [hc.grew.root, hc.grew.leaves w, h.leaves w, ← hkm]

/-- Where the next page lacks a table, its path ends at the root or above the leaf table. -/
theorem IdMapped.path {s u : State} {k : Nat} (h : IdMapped s k u) (hk : k < 4096) (hmod : k % 512 = 0) :
    ∃ t, tableAt u.mem u.root (pageAddr k) (if k = 0 then 0 else 2) = some t ∧
      present (u.mem.readWord (entryAddr t (vidx (pageAddr k) (levelAt (if k = 0 then 0 else 2))))) = false := by
  by_cases hk0 : k = 0
  · simp only [hk0, if_true]
    refine ⟨u.root, rfl, ?_⟩
    by_contra hp
    have := tableAt_succ_of (by omega) (tableAt_zero u.mem u.root (pageAddr 0)) (by simpa using hp)
    rw [h.bare hk0] at this
    cases this
  · simp only [hk0, if_false]
    obtain ⟨p, _, ht⟩ := h.upper (by omega) 2 (.inr rfl)
    rw [tableAt_congr (same_upper_tables (by omega) hk (le_refl 2))] at ht
    refine ⟨_, ht, ?_⟩
    by_contra hp
    have := h.only _ _ (tableAt_succ_of (by omega) ht (by simpa using hp))
    rw [vpn_pageAddr hk] at this
    omega

/-- How the run of maps of a `VMM_INIT` ends when `m` of its frames have memory behind them (R151, R225): with eleven every page is
mapped; with fewer the run stops, at the last frame there is or at the first without memory. -/
structure IdEnds (s : State) (m : Nat) (r : CmdResult Bool) : Prop where
  done : m = 11 → ∃ t, r = .ok true t ∧ IdMapped s 4096 t
  fails : m < 11 → s.freePages = m → ∃ t, r = .ok false t ∧ IdStopped s m t
  absent : m < 11 → ∀ g, s.freeList[m]? = some g → ¬ s.FrameBacked g →
    ∃ t zs, IdStopped s m t ∧ (∀ k ∈ zs, k < 512) ∧ r = .busError (t.withZeros g zs)

/-- The run of maps of a `VMM_INIT`, from the page `k` on. -/
theorem identityMap_ends {s u : State} {k m : Nat} (hm : m ≤ 11) (hle : m ≤ s.freePages) (hB : ∀ p ∈ s.freeList.take m, s.FrameBacked p)
    (h : IdMapped s k u) (hkm : tablesFor k ≤ m) (hk : k ≤ 4096) : IdEnds s m (identityMap (List.range' k (4096 - k)) u) := by
  induction hd : 4096 - k generalizing k u with
  | zero =>
    obtain rfl : k = 4096 := by omega
    rw [show tablesFor 4096 = 11 from rfl] at hkm
    exact ⟨fun _ => ⟨u, rfl, h⟩, fun hlt => by omega, fun hlt => by omega⟩
  | succ d ih =>
    have hk' : k < 4096 := by omega
    have hT := h.since.tree
    have hF := h.since.frames
    have hP := h.pathBacked (fun p hp => hB p (List.take_subset_take_left _ hkm hp)) (pageAddr k)
    have hlenu := length_freeList u
    have hlens := length_freeList s
    rw [h.free, List.length_drop] at hlenu
    have hget : ∀ j, u.freeList[j]? = s.freeList[tablesFor k + j]? := fun j => by rw [h.free, List.getElem?_drop]
    have hBu : ∀ j, tablesFor k + j ≤ m → ∀ p ∈ u.freeList.take j, u.FrameBacked p := fun j hj p hp => by
      refine frameBacked_congr h.since.cfg (hB p (List.take_subset_take_left _ hj ?_))
      rw [List.take_add, List.mem_append, ← h.free]
      exact .inr hp
    have hnext : ∀ t, ptwMap (pageAddr k) (pageAddr k) tableFlags u = .ok true t → IdMapped s (k + 1) t → tablesFor (k + 1) ≤ m →
        IdEnds s m (identityMap (List.range' k (d + 1)) u) := by
      intro t ht hmap hle'
      rw [List.range'_succ, identityMap, ht, andThen_ok]
      exact ih hmap hle' (by omega) (by omega)
    by_cases hmod : k % 512 = 0
    · obtain ⟨t, ht, habs⟩ := h.path hk' hmod
      have hn : (if k = 0 then 0 else 2) < 3 := by split <;> omega
      have htab : tablesFor k + (3 - (if k = 0 then 0 else 2)) = tablesFor (k + 1) := by
        unfold tablesFor
        split <;> simp <;> omega
      by_cases hfree : tablesFor (k + 1) ≤ m
      · obtain ⟨u1, i, hc, _, hx, hmap⟩ := ptwMap_creates (p := pageAddr k) (f := tableFlags) hT hF hP hn ht habs (by omega)
          (hBu _ (by omega))
        exact hnext _ hmap (h.step hk' hc htab (by omega) (by omega) rfl (by omega) hx) hfree
      · obtain ⟨r, hr⟩ : ∃ r, tablesFor k + r = m := ⟨m - tablesFor k, by omega⟩
        refine ⟨fun h11 => ?_, fun _ hfull => ?_, fun _ g hg hgB => ?_⟩
        · exfalso
          apply hfree
          unfold tablesFor
          simp
          omega
        · obtain rfl : r = u.freePages := by omega
          obtain ⟨u1, hc, hmap⟩ := ptwMap_fails (p := pageAddr k) (f := tableFlags) hT hF hP hn ht habs (by omega) (by
            have := hBu u.freePages (by omega)
            rwa [← length_freeList, List.take_length] at this)
          exact ⟨u1, by rw [List.range'_succ, identityMap, hmap, andThen_ok]; rfl, h.stop hc hmod rfl (by omega) hr⟩
        · obtain ⟨u1, zs, hc, hzs, hmap⟩ := ptwMap_absent (p := pageAddr k) (f := tableFlags) hT hF hP hn ht habs (m := r) (by omega)
            (hBu r (by omega)) (by rw [hget, hr, hg]) fun hh => hgB (frameBacked_congr h.since.cfg.symm hh)
          exact ⟨u1, zs, h.stop hc hmod rfl (by omega) hr, hzs, by rw [List.range'_succ, identityMap, hmap, andThen_busError]⟩
    · have hk0 : k ≠ 0 := by
        intro e
        subst e
        exact hmod rfl
      obtain ⟨p, _, ht⟩ := h.leafTable (k - 1) (by omega)
      have hsame := same_leaf_table (v := pageAddr (k - 1)) (w := pageAddr k)
      rw [vpn_pageAddr hk', vpn_pageAddr (by omega)] at hsame
      rw [tableAt_congr (hsame.mpr (by omega))] at ht
      have htab : tablesFor k + 0 = tablesFor (k + 1) := by
        unfold tablesFor
        simp [hk0]
        omega
      refine hnext _ (ptwMap_present hT hP ht) (h.step hk' (creates_none (n := 2) (t := u.root) hT hF) htab (by omega) (by omega) ?_
        (by omega) ht) (by omega)
      rw [if_neg hk0]

end Sys2Proof.Machine
end

