-- ==== Sys2Proof/Laws/TlbCache.lean ====
section
/-! SUPPORT. The translation cache: what removal, addition and retention leave (R183 to R185), and the link between the walk as the block
makes it and the leaf entry memory holds (R73). -/

namespace Sys2Proof.Machine

theorem mem_remove {t : Tlb} {n : Vpn} {p : Vpn × Word} : p ∈ t.remove n ↔ p ∈ t ∧ p.1 ≠ n := by
  simp [Tlb.remove, List.mem_filter]

/-- After an invalidation the page has no pair (R183, R190). -/
theorem find_remove_same (t : Tlb) (n : Vpn) : (t.remove n).find n = none := by
  unfold Tlb.find
  rw [List.lookup_eq_none_iff]
  intro p hp
  have := (mem_remove.mp hp).2
  simpa using fun e => this e.symm

/-- No other pair is removed (R183). -/
theorem find_remove_other (t : Tlb) (n k : Vpn) (h : k ≠ n) : (t.remove n).find k = t.find k := by
  unfold Tlb.find Tlb.remove
  induction t with
  | nil => rfl
  | cons p rest ih =>
    obtain ⟨j, e⟩ := p
    by_cases hj : j = n
    · have : ((j, e).1 != n) = false := by simp [hj]
      have hk : k ≠ j := by rw [hj]; exact h
      rw [List.filter_cons, this, lookup_cons_if, if_neg hk]
      simpa using ih
    · have : ((j, e).1 != n) = true := by simpa using hj
      rw [List.filter_cons, this]
      simp only [if_true, lookup_cons_if, ih]

theorem mem_of_find {t : Tlb} {n : Vpn} {e : Word} (h : t.find n = some e) : (n, e) ∈ t := by
  unfold Tlb.find at h
  induction t with
  | nil => cases h
  | cons p rest ih =>
    obtain ⟨j, w⟩ := p
    rw [lookup_cons_if] at h
    split at h
    · injection h with h
      subst h
      simp [*]
    · exact List.mem_cons_of_mem _ (ih h)

theorem find_eq_none_iff {t : Tlb} {n : Vpn} : t.find n = none ↔ ∀ p ∈ t, p.1 ≠ n := by
  unfold Tlb.find
  rw [List.lookup_eq_none_iff]
  simp only [bne_iff_ne, ne_eq]
  exact ⟨fun h p hp e => h p hp e.symm, fun h p hp e => h p hp e.symm⟩

/-- The cache with a pair added holds that pair and the old ones of other pages (R185). -/
theorem mem_add {t : Tlb} {n : Vpn} {e : Word} (hs : (t.map Prod.fst).Pairwise fun a b => a.toNat < b.toNat) (p : Vpn × Word) :
    p ∈ t.add n e ↔ p = (n, e) ∨ (p ∈ t ∧ p.1 ≠ n) := by
  unfold Tlb.add
  induction t with
  | nil => simp [insertByKey]
  | cons q rest ih =>
    rw [List.map_cons, List.pairwise_cons] at hs
    have ih := ih hs.2
    have hrest : ∀ p ∈ rest, q.1.toNat < p.1.toNat := fun p hp => hs.1 p.1 (List.mem_map_of_mem hp)
    unfold insertByKey
    split
    · rename_i hlt
      have : ∀ r ∈ q :: rest, r.1 ≠ n := by
        intro r hr e; rcases List.mem_cons.mp hr with rfl | hr
        · rw [e] at hlt; exact lt_irrefl _ hlt
        · have := hrest r hr; rw [e] at this; omega
      rw [List.mem_cons]
      exact ⟨fun h => h.imp id fun h => ⟨h, this p h⟩, fun h => h.imp id And.left⟩
    · split
      · rename_i hq
        have : ∀ r ∈ rest, r.1 ≠ n := by
          intro r hr e; have := hrest r hr; rw [e] at this; omega
        rw [List.mem_cons, List.mem_cons]
        constructor
        · rintro (h | h)
          · exact .inl h
          · exact .inr ⟨.inr h, this p h⟩
        · rintro (h | ⟨rfl | h, h2⟩)
          · exact .inl h
          · exact absurd (BitVec.eq_of_toNat_eq hq.symm) h2
          · exact .inr h
      · rename_i hq1 hq2
        rw [List.mem_cons, ih, List.mem_cons]
        constructor
        · rintro (rfl | h | h)
          · exact .inr ⟨.inl rfl, fun e => hq2 (by rw [e])⟩
          · exact .inl h
          · exact .inr ⟨.inr h.1, h.2⟩
        · rintro (h | ⟨h | h, h2⟩)
          · exact .inr (.inl h)
          · exact .inl h
          · exact .inr (.inr ⟨h, h2⟩)

/-- A fill keeps no pair but old ones and the new one (R185). -/
theorem mem_retain_add {t : Tlb} {n : Vpn} {e : Word} {keeps : Vpn → Bool} {entries : Nat} {p : Vpn × Word}
    (h : p ∈ (t.add n e).retain keeps entries) : p = (n, e) ∨ p ∈ t := by
  have h1 := List.mem_of_mem_take h
  exact mem_insertByKey _ _ _ _ _ (List.mem_filter.mp h1).1

/-- A fill keeps at most `TLB_ENTRIES` pairs (R185). -/
theorem length_retain_le (t : Tlb) (keeps : Vpn → Bool) (entries : Nat) : (t.retain keeps entries).length ≤ entries := by
  unfold Tlb.retain
  rw [List.length_take]
  omega

theorem sorted_remove {t : Tlb} (n : Vpn) (h : (t.map Prod.fst).Pairwise fun a b => a.toNat < b.toNat) :
    ((t.remove n).map Prod.fst).Pairwise fun a b => a.toNat < b.toNat :=
  h.sublist (List.filter_sublist.map _)

theorem sorted_retain_add {t : Tlb} (n : Vpn) (e : Word) (keeps : Vpn → Bool) (entries : Nat)
    (h : (t.map Prod.fst).Pairwise fun a b => a.toNat < b.toNat) :
    (((t.add n e).retain keeps entries).map Prod.fst).Pairwise fun a b => a.toNat < b.toNat :=
  (sorted_insertByKey BitVec.toNat n e t h).sublist (((List.take_sublist _ _).trans List.filter_sublist).map _)

theorem length_remove_le (t : Tlb) (n : Vpn) : (t.remove n).length ≤ t.length :=
  List.length_filter_le _ _

/-! ## Walk and leaf entry -/

/-- The descent, when memory stands behind each entry it reads, is the path memory holds (R73). -/
theorem descend_of_valid {v : Word} {ls : List Level} {t : Word} {s : State} (ht : t.toNat % 4096 = 0)
    (hv : ∀ n u l, tableBelow s.mem v (ls.take n) t = some u → ls[n]? = some l → s.memValid (entryAddr u (vidx v l)) = true) :
    descend v ls t s = .ok (tableBelow s.mem v ls t) s := by
  induction ls generalizing t with
  | nil => rfl
  | cons l ls ih =>
    have h0 := hv 0 t l rfl rfl
    rw [descend, memRead_of_valid (entryAddr_aligned _ _ ht) h0, andThen_ok, tableBelow]
    by_cases hp : present (s.mem.readWord (entryAddr t (vidx v l))) = true
    · simp only [hp, if_true]
      refine ih (frame_aligned _) fun n u l' h1 h2 => hv (n + 1) u l' ?_ (by simpa using h2)
      rw [List.take_succ_cons, tableBelow, if_pos hp]
      exact h1
    · simp only [hp, Bool.false_eq_true, if_false]

/-- The walk, when memory stands behind each entry it reads, finds the leaf entry memory holds (R73). -/
theorem walk_of_valid {root v : Word} {s : State} (hr : root.toNat % 4096 = 0)
    (hv : ∀ n u l, tableAt s.mem root v n = some u → (nonLeafLevels ++ [.pt])[n]? = some l →
      s.memValid (entryAddr u (vidx v l)) = true) :
    ∃ w, walk root v s = .ok w s ∧
      match w with
      | .absent => leafEntry s.mem root v = none
      | .found e _ => leafEntry s.mem root v = some e := by
  have hd := descend_of_valid (ls := nonLeafLevels) (v := v) (s := s) hr fun n u l h1 h2 => by
    refine hv n u l h1 ?_
    have hn : n < nonLeafLevels.length := (List.getElem?_eq_some_iff.mp h2).1
    rw [List.getElem?_append_left hn]
    exact h2
  have h3 : tableAt s.mem root v 3 = tableBelow s.mem v nonLeafLevels root := rfl
  rw [walk, hd, andThen_ok]
  cases ht : tableBelow s.mem v nonLeafLevels root with
  | none => exact ⟨.absent, rfl, by simp only [leafEntry, h3, ht]⟩
  | some t =>
    have hal := descend_aligned (u := t) (s' := s) hr (by rw [hd, ht])
    have hval := hv 3 t .pt (h3.trans ht) rfl
    simp only
    rw [memRead_of_valid (entryAddr_aligned _ _ hal) hval, andThen_ok]
    refine ⟨_, rfl, ?_⟩
    by_cases hp : present (s.mem.readWord (entryAddr t (vidx v .pt))) = true
    · simp only [hp, if_true, leafEntry, h3, ht]
    · simp only [hp, Bool.false_eq_true, if_false, leafEntry, h3, ht]

/-- A descent that ends with a result has reached what memory holds at the end of the path (R73). -/
theorem descend_table {root v t : Word} {s s' : State} {n : Nat} {r : Option Word} (hn : n ≤ 3)
    (ht : tableAt s.mem root v n = some t) (h : descend v (nonLeafLevels.drop n) t s = .ok r s') :
    s' = s ∧ tableAt s.mem root v 3 = r := by
  induction hk : 3 - n generalizing n t with
  | zero =>
    obtain rfl : n = 3 := by omega
    simp only [nonLeafLevels, List.drop, descend, CmdResult.ok.injEq] at h
    exact ⟨h.2.symm, ht.trans h.1⟩
  | succ k ih =>
    have hn3 : n < 3 := by omega
    rw [drop_nonLeafLevels hn3, descend] at h
    obtain ⟨e, s1, h1, h2⟩ := andThen_eq_ok h
    obtain ⟨_, _, rfl, rfl⟩ := memRead_eq_ok h1
    split at h2
    · exact ih (by omega) (tableAt_succ_of hn3 ht (by assumption)) h2 (by omega)
    · injection h2 with h3 h4
      refine ⟨h4.symm, h3 ▸ ?_⟩
      by_contra hne
      obtain ⟨x, hx⟩ := Option.ne_none_iff_exists'.mp hne
      obtain ⟨y, hy⟩ := tableAt_le (show n + 1 ≤ 3 by omega) (by omega) hx
      obtain ⟨t', a1, a2, _⟩ := tableAt_succ_eq_some hn3 hy
      rw [ht] at a1
      injection a1 with a1
      rw [← a1] at a2
      exact absurd a2 (by assumption)

/-- What a walk answers is what memory holds (R73). -/
theorem walk_leaf {root v : Word} {s s' : State} {w : Walk} (h : walk root v s = .ok w s') :
    s' = s ∧ (w = .absent → leafEntry s.mem root v = none) ∧ ∀ e a, w = .found e a → leafEntry s.mem root v = some e := by
  obtain ⟨r, s1, h1, h2⟩ := andThen_eq_ok h
  obtain ⟨rfl, hr⟩ := descend_table (n := 0) (by omega) (tableAt_zero s.mem root v) h1
  cases r with
  | none =>
    injection h2 with h3 h4
    subst h3
    exact ⟨h4.symm, fun _ => leafEntry_of_none hr, fun e a h => by cases h⟩
  | some t =>
    obtain ⟨e, s2, h3, h4⟩ := andThen_eq_ok h2
    obtain ⟨_, _, rfl, rfl⟩ := memRead_eq_ok h3
    injection h4 with h5 h6
    subst h5
    have hleaf := leafEntry_of_table hr
    by_cases hp : present (s2.mem.readWord (entryAddr t (vidx v .pt))) = true
    · rw [if_pos hp] at hleaf
      rw [if_pos hp]
      refine ⟨h6.symm, fun h => Walk.noConfusion h, fun e a h => ?_⟩
      injection h with h
      rw [hleaf, h]
    · rw [if_neg hp] at hleaf
      rw [if_neg hp]
      exact ⟨h6.symm, fun _ => hleaf, fun e a h => Walk.noConfusion h⟩

/-! ## The answers bit by bit -/

theorem voff_eq (v : Word) : voff v = v &&& 0xFFF#64 := by
  apply BitVec.eq_of_getLsbD_eq
  intro i hi
  have h : ∀ i < 64, (0xFFF#64).getLsbD i = decide (i < 12) := by decide
  rw [voff, BitVec.getLsbD_setWidth, BitVec.getLsbD_extractLsb', BitVec.getLsbD_and, h i hi]
  simp [hi, Bool.and_comm]

/-- `frame | voff`, by its masks (R75). -/
theorem translate_eq (e v : Word) : translate e v = (e &&& 0xFFFFFFFFFFFFF000#64) ||| (v &&& 0xFFF#64) := by
  simp only [Machine.translate, voff_eq, frame, frameMask]
  rfl

theorem entryFlags_eq (e : Word) : entryFlags e = e &&& 0xFFF#64 :=
  voff_eq e

/-- The levels of a walk by depth (R73). -/
theorem levels_get {n : Nat} {l : Level} (h : (nonLeafLevels ++ [Level.pt])[n]? = some l) : n ≤ 3 ∧ l = levelAt n := by
  match n, h with
  | 0, h | 1, h | 2, h | 3, h =>
    simp [nonLeafLevels] at h
    exact ⟨by omega, h.symm⟩
  | n + 4, h => simp [nonLeafLevels] at h

/-- The walk along a backed path (R73). -/
theorem walk_backed {root v : Word} {s : State} (hr : root.toNat % 4096 = 0) (hb : s.PathBacked root v) :
    ∃ w, walk root v s = .ok w s ∧
      match w with
      | .absent => leafEntry s.mem root v = none
      | .found e _ => leafEntry s.mem root v = some e := by
  refine walk_of_valid hr fun n u l h1 h2 => ?_
  obtain ⟨h3, rfl⟩ := levels_get h2
  exact hb n _ h3 (by rw [entryOnPath, h1]; rfl)

/-- The descent along a backed path (R73). -/
theorem descend_backed {root v : Word} {s : State} (hr : root.toNat % 4096 = 0) (hb : s.PathBacked root v) :
    descend v nonLeafLevels root s = .ok (tableAt s.mem root v 3) s := by
  rw [show tableAt s.mem root v 3 = tableBelow s.mem v nonLeafLevels root from rfl]
  refine descend_of_valid hr fun n u l h1 h2 => ?_
  have hn : n < nonLeafLevels.length := (List.getElem?_eq_some_iff.mp h2).1
  obtain ⟨h3, rfl⟩ := levels_get (n := n) (l := l) (by rw [List.getElem?_append_left hn]; exact h2)
  exact hb n _ h3 (by rw [entryOnPath, tableAt, h1]; rfl)

/-- In a cache in order a pair is found under its page. -/
theorem find_of_mem {t : Tlb} {n : Vpn} {e : Word} (hs : (t.map Prod.fst).Pairwise fun a b => a.toNat < b.toNat)
    (h : (n, e) ∈ t) : t.find n = some e := by
  unfold Tlb.find
  induction t with
  | nil => cases h
  | cons p rest ih =>
    obtain ⟨j, w⟩ := p
    rw [List.map_cons, List.pairwise_cons] at hs
    rw [lookup_cons_if]
    rcases List.mem_cons.mp h with h | h
    · injection h with h1 h2
      subst h1 h2
      simp
    · have := hs.1 n (List.mem_map_of_mem h)
      rw [if_neg (fun e => by subst e; exact lt_irrefl _ this)]
      exact ih hs.2 h

end Sys2Proof.Machine
end

