-- ==== Sys2Proof/Laws/Editors.lean ====
section
/-! SUPPORT. The three editing commands: how each ends, what it leaves, and when a tree and its leaf entries read the same (R77, R151,
R153, R159). -/

namespace Sys2Proof.Machine

/-! ## Trees that read the same -/

/-- R39 over the same memory, root and range, with no frame that holds a table released. -/
theorem treeInv_of_tables {s s' : State} (hT : s.TreeInv) (hm : s'.mem = s.mem) (hroot : s'.root = s.root)
    (hb : s'.totalBlocks = s.totalBlocks)
    (hu : ∀ v n x, n ≤ 3 → tableAt s.mem s.root v n = some x → s'.bitmap.used (pageIndex x) = true) : s'.TreeInv := by
  obtain ⟨h1, h2, h3⟩ := hT
  constructor
  · intro v n x hn hx
    rw [hm, hroot] at hx
    obtain ⟨a, b, c, _⟩ := h1 v n x hn hx
    exact ⟨a, b, by rwa [totalPages_congr hb], hu v n x hn hx⟩
  · rw [hm, hroot]
    exact h2
  · rw [hm, hroot]
    exact h3

/-- R39 over the same memory, root and range, with no page released. -/
theorem treeInv_congr {s s' : State} (hT : s.TreeInv) (hm : s'.mem = s.mem) (hroot : s'.root = s.root)
    (hb : s'.totalBlocks = s.totalBlocks) (hu : ∀ i, s.bitmap.used i = true → s'.bitmap.used i = true) : s'.TreeInv :=
  treeInv_of_tables hT hm hroot hb fun v n x hn hx => hu _ (hT.backed v n x hn hx).2.2.2

/-- Below an aligned root every table is aligned (R66). -/
theorem tableAt_aligned {m : Memory} {r w x : Word} {k : Nat} (hr : r.toNat % 4096 = 0) (hk : k ≤ 3)
    (h : tableAt m r w k = some x) : x.toNat % 4096 = 0 := by
  cases k with
  | zero =>
    injection h with h
    exact h ▸ hr
  | succ k =>
    obtain ⟨t, _, _, h3⟩ := tableAt_succ_eq_some (by omega) h
    rw [h3]
    exact frame_aligned _

/-- Two aligned tables in one page are one table. -/
theorem aligned_eq_of_page {x y : Word} (hx : x.toNat % 4096 = 0) (hy : y.toNat % 4096 = 0) (h : pageIndex x = pageIndex y) :
    x = y := by
  unfold pageIndex pageSize at h
  exact BitVec.eq_of_toNat_eq (by omega)

/-- The path of a walk is what the words of its own tables say. -/
theorem tableAt_words {m m' : Memory} {r w : Word} {k : Nat} (hk : k ≤ 3)
    (h : ∀ w n x idx, n ≤ 3 → tableAt m r w n = some x → m'.readWord (entryAddr x idx) = m.readWord (entryAddr x idx)) :
    tableAt m' r w k = tableAt m r w k := by
  induction k with
  | zero => rfl
  | succ k ih =>
    rw [tableAt_succ _ _ _ (by omega), tableAt_succ _ _ _ (by omega), ih (by omega)]
    cases hh : tableAt m r w k with
    | none => rfl
    | some u =>
      simp only [Option.bind_some, h w k u _ (by omega) hh]

theorem leafEntry_words {m m' : Memory} {r : Word} (w : Word)
    (h : ∀ w n x idx, n ≤ 3 → tableAt m r w n = some x → m'.readWord (entryAddr x idx) = m.readWord (entryAddr x idx)) :
    leafEntry m' r w = leafEntry m r w := by
  have hat := tableAt_words (w := w) (k := 3) (by omega) h
  cases hh : tableAt m r w 3 with
  | none => rw [leafEntry_of_none hh, leafEntry_of_none (hat.trans hh)]
  | some u => rw [leafEntry_of_table hh, leafEntry_of_table (hat.trans hh), h w 3 u _ (by omega) hh]

/-! ## `VMM_MAP` and `VMM_UNMAP` -/

/-- Where nothing is absent the creating descent is the plain one (R152, R154). -/
theorem descendCreating_present {v : Word} {ls : List Level} {t u : Word} {s : State}
    (h : descend v ls t s = .ok (some u) s) : descendCreating v ls t s = .ok (some u) s := by
  induction ls generalizing t with
  | nil => exact h
  | cons l ls ih =>
    rw [descend] at h
    rw [descendCreating]
    obtain ⟨e, s1, h1, h2⟩ := andThen_eq_ok h
    obtain ⟨_, _, _, rfl⟩ := memRead_eq_ok h1
    rw [h1, andThen_ok]
    split at h2
    · rw [if_pos (by assumption)]
      exact ih h2
    · simp at h2

/-- The ends of `VMM_MAP` on a tree (R153, R155, R225). -/
theorem exec_vmmMap_cases {s t : State} (hr : s.flag .vmmReady = true) (hT : s.TreeInv) (hF : s.FrameInv)
    (hx : exec .vmmMap s = .next t) :
    (∃ u, Mapped s.arg0 (s.arg1 ||| s.arg2) s u ∧ t = u.done .ok 0 0) ∨
      ∃ u st, Grew s u ∧ t = u.done st 0 0 ∧ st.code ≠ 0 := by
  obtain ⟨c1, c2, c3⟩ := ptwMap_spec (v := s.arg0) (p := s.arg1) (f := s.arg2) hT hF
  simp only [exec, execVmmMap, hr, Bool.not_true, Bool.false_eq_true, if_false] at hx
  cases hm : ptwMap s.arg0 s.arg1 s.arg2 s with
  | ok b u =>
    rw [hm, conclude_ok] at hx
    cases b with
    | true =>
      simp only [if_true] at hx
      exact .inl ⟨u, c1 u hm, (finish_eq_next.mp hx).symm⟩
    | false =>
      simp only [Bool.false_eq_true, if_false] at hx
      exact .inr ⟨u, .fail, (c2 u hm).1, (finish_eq_next.mp hx).symm, by decide⟩
  | busError u =>
    rw [hm, conclude_busError] at hx
    exact .inr ⟨u, .errBus, c3 u hm, (finish_eq_next.mp hx).symm, by decide⟩
  | fault f => rw [hm] at hx; cases hx

/-- The ends of `VMM_UNMAP` (R159, R225). -/
theorem exec_vmmUnmap_cases {s t : State} (hr : s.flag .vmmReady = true) (hx : exec .vmmUnmap s = .next t) :
    (∃ u, tableAt s.mem s.root s.arg0 3 = some u ∧
        t = (tlbInvalidate (vpn s.arg0) (s.storeWord (entryAddr u (vidx s.arg0 .pt)) 0)).done .ok 0 0) ∨
      (tableAt s.mem s.root s.arg0 3 = none ∧ t = s.done .ok 0 0) ∨ t = s.done .errBus 0 0 := by
  simp only [exec, execVmmUnmap, hr, Bool.not_true, Bool.false_eq_true, if_false] at hx
  have hl := leaves_descend s.arg0 nonLeafLevels s.root s
  cases hm : descend s.arg0 nonLeafLevels s.root s with
  | ok r u =>
    rw [hm] at hx hl
    obtain rfl : u = s := hl
    rw [conclude_ok] at hx
    cases r with
    | none =>
      have hu := (descend_table (n := 0) (by omega) (tableAt_zero u.mem u.root u.arg0) hm).2
      exact .inr (.inl ⟨hu, (finish_eq_next.mp hx).symm⟩)
    | some x =>
      simp only at hx
      have hu := (descend_table (n := 0) (by omega) (tableAt_zero u.mem u.root u.arg0) hm).2
      cases hw : memWrite (entryAddr x (vidx u.arg0 .pt)) 0 u with
      | ok a w =>
        obtain ⟨_, _, rfl⟩ := memWrite_eq_ok hw
        rw [hw, conclude_ok] at hx
        exact .inl ⟨x, hu, (finish_eq_next.mp hx).symm⟩
      | busError w =>
        rw [hw, conclude_busError, memWrite_eq_busError hw] at hx
        exact .inr (.inr (finish_eq_next.mp hx).symm)
      | fault f => rw [hw] at hx; cases hx
  | busError u =>
    rw [hm] at hx hl
    obtain rfl : u = s := hl
    exact .inr (.inr (finish_eq_next.mp hx).symm)
  | fault f => rw [hm] at hx; cases hx

/-! ## The frees -/

/-- The ends of `PMM_FREE` and `PMM_FREEN` (R128, R129): the pages released are those the command frees, or nothing is done. -/
theorem exec_free_cases {i : Instr} {s t : State} (hi : i = .pmmFree ∨ i = .pmmFreen) (hx : exec i s = .next t) :
    (∃ f c, t = (s.releasePages f c).done .ok 0 0 ∧ ∀ p, f ≤ p → p < f + c → s.freeing i p) ∨ ∃ st, t = s.done st 0 0 := by
  rcases hi with rfl | rfl
  · simp only [exec, execPmmFree] at hx
    split at hx
    · exact .inr ⟨_, (finish_eq_next.mp hx).symm⟩
    · split at hx
      · exact .inr ⟨_, (finish_eq_next.mp hx).symm⟩
      · exact .inl ⟨_, _, (finish_eq_next.mp hx).symm, fun p h1 h2 => show p = _ by omega⟩
  · simp only [exec, execPmmFreen] at hx
    split at hx
    · exact .inr ⟨_, (finish_eq_next.mp hx).symm⟩
    · split at hx
      · exact .inr ⟨_, (finish_eq_next.mp hx).symm⟩
      · split at hx
        · exact .inr ⟨_, (finish_eq_next.mp hx).symm⟩
        · exact .inl ⟨_, _, (finish_eq_next.mp hx).symm, fun p h1 h2 => ⟨h1, h2⟩⟩

/-- A free that spares the tables keeps the tree (R39, R258). -/
theorem treeInv_free {i : Instr} {s t : State} (hT : s.TreeInv) (hi : i = .pmmFree ∨ i = .pmmFreen) (hx : exec i s = .next t)
    (hs : t.status = Status.ok.code → s.SparesTables i) : t.TreeInv := by
  rcases exec_free_cases hi hx with ⟨f, c, rfl, hfree⟩ | ⟨st, rfl⟩
  · refine treeInv_of_tables hT rfl rfl rfl fun v n x hn hx => ?_
    have h1 := (hT.backed v n x hn hx).2.2.2
    have h2 := hs rfl v n x hn hx
    rw [done_bitmap, show (s.releasePages f c).bitmap = s.bitmap.clearPages f c from rfl, used_clearPages, h1, Bool.true_and,
      Bool.not_eq_true', Bool.and_eq_false_iff, decide_eq_false_iff_not, decide_eq_false_iff_not]
    by_contra hc
    rw [not_or, not_not, not_not] at hc
    exact h2 (hfree _ hc.1 hc.2)
  · exact treeInv_congr hT rfl rfl rfl fun _ h => h

/-! ## `VMM_INIT` -/

/-- With a free page the list of free pages begins with the lowest. -/
theorem head_lowest {s : State} (h : 0 < s.freePages) :
    ∃ i rest, s.freeList = i :: rest ∧ i < s.totalPages ∧ s.bitmap.used i = false ∧ ∀ j < i, s.bitmap.used j = true := by
  have hlen := length_freeList s
  cases hl : s.freeList with
  | nil =>
    rw [hl, List.length_nil] at hlen
    omega
  | cons i rest =>
    obtain ⟨h1, h2, h3, _⟩ := freeList_cons hl
    exact ⟨i, rest, rfl, h1, h2, h3⟩

/-- `VMM_INIT` with a free page that has memory behind it: the identity map under the fresh root, then its end (R151). -/
theorem vmmInit_run {s : State} {i : Nat} (hF : s.FrameInv) (hB : s.FrameBacked i) (hp : s.flag .pmmReady = true)
    (hv : s.flag .vmmReady = false) (hi : i < s.totalPages) (hf : s.bitmap.used i = false) (hlow : ∀ j < i, s.bitmap.used j = true) :
    exec .vmmInit s =
      (identityMap (List.range' 0 idmapPages) (s.withRoot i)).conclude fun mapped s =>
        if mapped then finish .ok (pageAddr i) 0 (s.raiseFlag .vmmReady) else finish .fail 0 0 s := by
  simp only [exec, execVmmInit, hp, hv, Bool.not_true, Bool.false_eq_true, if_false]
  rw [pfaAllocOne_of_lowest s i hi hf hlow]
  simp only [pageAddr_ne_zero hF hi hf, if_false, zeroPage_of_backed hB, conclude_ok]
  rfl

/-- `VMM_INIT` whose first free page lacks memory ends there: the page stays taken, `ROOT` is not written (R151, R225). -/
theorem vmmInit_absent {s : State} {i : Nat} (hF : s.FrameInv) (hB : ¬ s.FrameBacked i) (hp : s.flag .pmmReady = true)
    (hv : s.flag .vmmReady = false) (hi : i < s.totalPages) (hf : s.bitmap.used i = false) (hlow : ∀ j < i, s.bitmap.used j = true) :
    ∃ zs, (∀ k ∈ zs, k < 512) ∧ exec .vmmInit s = finish .errBus 0 0 (s.withZeros i zs) := by
  obtain ⟨zs, h1, h2⟩ := zeroPage_of_absent hB
  refine ⟨zs, h1, ?_⟩
  simp only [exec, execVmmInit, hp, hv, Bool.not_true, Bool.false_eq_true, if_false]
  rw [pfaAllocOne_of_lowest s i hi hf hlow]
  simp only [pageAddr_ne_zero hF hi hf, if_false, h2, conclude_busError]

end Sys2Proof.Machine
end

