-- ==== Sys2Proof/Laws/Ends.lean ====
section
/-! SUPPORT. How a command that passes its checks ends (R220 to R225). -/

namespace Sys2Proof.Machine

/-- The end of a command that passed its checks: `done` with `OK`, with `FAIL` and zeros, or, of a command that reaches memory, with
`ERR_BUS` and zeros. -/
structure Ends (i : Instr) (s t : State) where
  before : State
  st : Status
  r0 : Word
  r1 : Word
  done : t = before.done st r0 r1
  status : st = .ok ∨ (st = .fail ∧ r0 = 0 ∧ r1 = 0) ∨ (st = .errBus ∧ r0 = 0 ∧ r1 = 0 ∧ reachesMemory i = true)
  second : i ≠ .tlbXlate → r1 = 0
  flags : ∀ k, 3 ≤ k → before.flags.getLsbD k = s.flags.getLsbD k
  failed : s.Inv → i ≠ .vmmInit → i ≠ .vmmMap → st = .fail → before = s

theorem finish_ends {i : Instr} {s t u : State} {st : Status} {r0 r1 : Word} (hx : finish st r0 r1 u = .next t)
    (hr : i ≠ .tlbXlate → r1 = 0)
    (h1 : st = .ok ∨ (st = .fail ∧ r0 = 0 ∧ r1 = 0) ∨ (st = .errBus ∧ r0 = 0 ∧ r1 = 0 ∧ reachesMemory i = true))
    (h2 : ∀ k, 3 ≤ k → u.flags.getLsbD k = s.flags.getLsbD k) (h3 : s.Inv → i ≠ .vmmInit → i ≠ .vmmMap → st = .fail → u = s) :
    Nonempty (Ends i s t) :=
  ⟨⟨u, st, r0, r1, (finish_eq_next.mp hx).symm, h1, hr, h2, h3⟩⟩

theorem conclude_ends {α : Type} {i : Instr} {s t : State} {r : CmdResult α} {f : α → State → Result}
    (hr : r.Leaves fun u => u.flags = s.flags) (hm : reachesMemory i = true)
    (hf : ∀ a u, r = .ok a u → u.flags = s.flags → f a u = .next t → Nonempty (Ends i s t))
    (hx : r.conclude f = .next t) : Nonempty (Ends i s t) := by
  cases r with
  | ok a u => exact hf a u rfl hr hx
  | busError u =>
    refine finish_ends hx (fun _ => rfl) (.inr (.inr ⟨rfl, rfl, rfl, hm⟩)) (fun k _ => ?_) fun _ _ _ h => (by cases h)
    rw [show u.flags = s.flags from hr]
  | fault f => cases hx

theorem getLsbD_raise (b : FlagBit) (f : Word32) (k : Nat) : (b.raise f).getLsbD k = (f.getLsbD k || decide (k = b.position)) := by
  have hb : b.position < 32 := by cases b <;> decide
  unfold FlagBit.raise
  rw [BitVec.getLsbD_or]
  congr 1
  show (BitVec.ofNat 32 (1 <<< b.position)).getLsbD k = _
  rw [BitVec.getLsbD_ofNat, Nat.one_shiftLeft, Nat.testBit_two_pow]
  by_cases h : b.position = k
  · simp [← h, hb]
  · simpa [h] using fun e : k = b.position => h e.symm

theorem getLsbD_mark (st : Status) (f : Word32) (k : Nat) :
    (st.mark f).getLsbD k = (f.getLsbD k || (decide (2 ≤ st.code.toNat) && decide (k = 3))) := by
  unfold Status.mark
  by_cases h : 2 ≤ st.code.toNat
  · rw [if_pos h, getLsbD_raise, decide_eq_true h, Bool.true_and]
    rfl
  · rw [if_neg h, decide_eq_false h, Bool.false_and, Bool.or_false]

theorem leaves_flags_ptwMap (v p f : Word) (s : State) : (ptwMap v p f s).Leaves fun u => u.flags = s.flags :=
  leaves_ptwMap (fun u => u.flags = s.flags) (fun _ _ _ h _ => h) (fun _ _ h _ _ _ => h) (fun _ _ h => h) v p f s rfl

theorem leaves_flags_descend (v : Word) (ls : List Level) (t : Word) (s : State) :
    (descend v ls t s).Leaves fun u => u.flags = s.flags := by
  have := leaves_descend v ls t s
  cases h : descend v ls t s <;> rw [h] at this <;> simp_all [CmdResult.Leaves]

theorem leaves_flags_walk (root v : Word) (s : State) : (walk root v s).Leaves fun u => u.flags = s.flags := by
  have := leaves_walk root v s
  cases h : walk root v s <;> rw [h] at this <;> simp_all [CmdResult.Leaves]

/-- How a command that passes its checks ends. -/
theorem exec_ends {i : Instr} {s t : State} (h0 : ¬ stateError s i) (h1 : ¬ argError s i) (h2 : ¬ rangeError s i)
    (hx : exec i s = .next t) : Nonempty (Ends i s t) := by
  have z {b : FlagBit} (hb : b ≠ .err) (f : Word32) (k : Nat) (hk : 3 ≤ k) : (b.raise f).getLsbD k = f.getLsbD k := by
    have hp : ¬ k = b.position := by cases b <;> first | exact absurd rfl hb | (simp only [FlagBit.position]; omega)
    rw [getLsbD_raise, decide_eq_false hp, Bool.or_false]
  cases i <;> simp only [stateError, argError, rangeError, Bool.not_eq_true, Bool.not_eq_false, not_or, not_lt, not_and, not_le,
    not_false_eq_true] at h0 h1 h2
  case pmmInit =>
    have : ¬ s.arg0.toNat < reservedBytes := by simpa using h1
    simp only [exec, execPmmInit, h0, this, if_false, Bool.false_eq_true] at hx
    exact finish_ends hx (fun _ => rfl) (.inl rfl) (z (by simp) _) fun _ _ _ h => (by cases h)
  case pmmAlloc =>
    simp only [exec, execPmmAlloc, h0, Bool.not_true, Bool.false_eq_true, if_false] at hx
    rcases pfaAllocOne_cases s with ⟨he, _⟩ | ⟨j, he, hj, hf, _⟩
    · rw [he] at hx
      exact finish_ends hx (fun _ => rfl) (.inr (.inl ⟨rfl, rfl, rfl⟩)) (fun _ _ => rfl) fun _ _ _ _ => rfl
    · rw [he] at hx
      simp only at hx
      split at hx
      · exact finish_ends hx (fun _ => rfl) (.inr (.inl ⟨rfl, rfl, rfl⟩)) (fun _ _ => rfl) fun hI _ _ _ =>
          absurd ‹pageAddr j = 0› (pageAddr_ne_zero (hI.frames h0) hj hf)
      · exact finish_ends hx (fun _ => rfl) (.inl rfl) (fun _ _ => rfl) fun _ _ _ h => (by cases h)
  case pmmAllocn =>
    simp only [exec, execPmmAllocn, h0, Bool.not_true, Bool.false_eq_true, if_false] at hx
    rw [if_neg (show ¬ s.arg0 = 0 from h1)] at hx
    split at hx
    · exact finish_ends hx (fun _ => rfl) (.inr (.inl ⟨rfl, rfl, rfl⟩)) (fun _ _ => rfl) fun _ _ _ _ => rfl
    · exact finish_ends hx (fun _ => rfl) (.inl rfl) (fun _ _ => rfl) fun _ _ _ h => (by cases h)
  case pmmFree =>
    simp only [exec, execPmmFree, h0, Bool.not_true, Bool.false_eq_true, if_false] at hx
    rw [if_neg (by simpa [pageIndex, State.totalPages] using h2)] at hx
    exact finish_ends hx (fun _ => rfl) (.inl rfl) (fun _ _ => rfl) fun _ _ _ h => (by cases h)
  case pmmFreen =>
    simp only [exec, execPmmFreen, h0, Bool.not_true, Bool.false_eq_true, if_false] at hx
    split at hx
    · exact finish_ends hx (fun _ => rfl) (.inl rfl) (fun _ _ => rfl) fun _ _ _ h => (by cases h)
    · rename_i hne
      have hpos : 0 < s.arg1.toNat := Nat.pos_of_ne_zero fun e => hne (BitVec.eq_of_toNat_eq e)
      rw [if_neg (by simpa [pageIndex, State.totalPages] using h2 hpos)] at hx
      exact finish_ends hx (fun _ => rfl) (.inl rfl) (fun _ _ => rfl) fun _ _ _ h => (by cases h)
  case pmmTotal => exact finish_ends hx (fun _ => rfl) (.inl rfl) (fun _ _ => rfl) fun _ _ _ h => (by cases h)
  case pmmUsed => exact finish_ends hx (fun _ => rfl) (.inl rfl) (fun _ _ => rfl) fun _ _ _ h => (by cases h)
  case pmmFreemem => exact finish_ends hx (fun _ => rfl) (.inl rfl) (fun _ _ => rfl) fun _ _ _ h => (by cases h)
  case vmmInit =>
    simp only [exec, execVmmInit, h0.1, h0.2, Bool.not_true, Bool.false_eq_true, if_false] at hx
    have hfl : (pfaAllocOne s).2.flags = s.flags := by
      rcases pfaAllocOne_cases s with ⟨he, _⟩ | ⟨j, he, _⟩
      · rw [he]
      · rw [he, takePages_flags]
    split at hx
    · exact finish_ends hx (fun _ => rfl) (.inr (.inl ⟨rfl, rfl, rfl⟩)) (fun k _ => by rw [hfl]) fun _ h _ _ => absurd rfl h
    · have l1 := leaves_flags_zeroPage (pfaAllocOne s).1 (pfaAllocOne s).2
      rw [hfl] at l1
      refine conclude_ends l1 rfl (fun _ u _ hu hx => ?_) hx
      have l2 := leaves_flags_identityMap (List.range' 0 idmapPages) (u.setRoot (pfaAllocOne s).1)
      rw [setRoot_flags, hu] at l2
      refine conclude_ends l2 rfl (fun m w _ hw hx => ?_) hx
      split at hx
      · exact finish_ends hx (fun _ => rfl) (.inl rfl) (fun k hk => by rw [raiseFlag_flags, z (by simp) _ k hk, hw]) fun _ h _ _ => absurd rfl h
      · exact finish_ends hx (fun _ => rfl) (.inr (.inl ⟨rfl, rfl, rfl⟩)) (fun k _ => by rw [hw]) fun _ h _ _ => absurd rfl h
  case vmmMap =>
    simp only [exec, execVmmMap, h0, Bool.not_true, Bool.false_eq_true, if_false] at hx
    refine conclude_ends (leaves_flags_ptwMap _ _ _ s) rfl (fun m w _ hw hx => ?_) hx
    split at hx
    · exact finish_ends hx (fun _ => rfl) (.inl rfl) (fun k _ => by rw [hw]) fun _ _ h _ => absurd rfl h
    · exact finish_ends hx (fun _ => rfl) (.inr (.inl ⟨rfl, rfl, rfl⟩)) (fun k _ => by rw [hw]) fun _ _ h _ => absurd rfl h
  case vmmUnmap =>
    simp only [exec, execVmmUnmap, h0, Bool.not_true, Bool.false_eq_true, if_false] at hx
    refine conclude_ends (leaves_flags_descend _ _ _ s) rfl (fun m w _ hw hx => ?_) hx
    split at hx
    · exact finish_ends hx (fun _ => rfl) (.inl rfl) (fun k _ => by rw [hw]) fun _ _ _ h => (by cases h)
    · refine conclude_ends (leaves_memWrite _ _ _ (fun u => u.flags = s.flags) hw fun _ => hw) rfl (fun m w _ hw hx => ?_) hx
      exact finish_ends hx (fun _ => rfl) (.inl rfl) (fun k _ => by rw [tlbInvalidate_flags, hw]) fun _ _ _ h => (by cases h)
  case vmmGetpa =>
    simp only [exec, execVmmGetpa, h0, Bool.not_true, Bool.false_eq_true, if_false] at hx
    refine conclude_ends (leaves_flags_walk _ _ s) rfl (fun m w hw1 hw hx => ?_) hx
    split at hx
    · refine finish_ends hx (fun _ => rfl) (.inr (.inl ⟨rfl, rfl, rfl⟩)) (fun k _ => by rw [hw]) fun _ _ _ _ => ?_
      have := leaves_walk s.root s.arg0 s
      rw [hw1] at this
      exact this
    · exact finish_ends hx (fun _ => rfl) (.inl rfl) (fun k _ => by rw [hw]) fun _ _ _ h => (by cases h)
  case vmmSwitch =>
    have hv : ¬ voff s.arg0 ≠ 0 := fun h => h ((voff_eq_zero_iff_bits _).mpr (by simpa using h1))
    simp only [exec, execVmmSwitch, if_neg hv] at hx
    exact finish_ends hx (fun _ => rfl) (.inl rfl) (z (by simp) _) fun _ _ _ h => (by cases h)
  case tlbXlate =>
    simp only [exec, execTlbXlate, h0, Bool.not_true, Bool.false_eq_true, if_false] at hx
    split at hx
    · exact finish_ends hx (fun h => absurd rfl h) (.inl rfl) (fun _ _ => rfl) fun _ _ _ h => (by cases h)
    · refine conclude_ends (leaves_flags_walk _ _ s) rfl (fun m w hw1 hw hx => ?_) hx
      split at hx
      · refine finish_ends hx (fun _ => rfl) (.inr (.inl ⟨rfl, rfl, rfl⟩)) (fun k _ => by rw [hw]) fun _ _ _ _ => ?_
        have := leaves_walk s.activeRoot s.arg0 s
        rw [hw1] at this
        exact this
      · exact finish_ends hx (fun h => absurd rfl h) (.inl rfl) (fun k _ => by rw [tlbFill_flags, hw]) fun _ _ _ h => (by cases h)
  case tlbInvlpg => exact finish_ends hx (fun _ => rfl) (.inl rfl) (fun _ _ => rfl) fun _ _ _ h => (by cases h)

end Sys2Proof.Machine
end

