-- ==== Sys2Proof/Laws/PerInstr.lean ====
section
/-! SUPPORT. A statement for every command as syntax, one lemma per constructor. -/

namespace Sys2Proof.Laws.Encoding

/-- The command is well formed, its word has its reserved bits zero (R92), the decoder reads it back, and its format has at most three
operands (R92, R93). -/
def Statement (i : Instr) : Prop :=
  i.wf = true ∧ (encode i).extractLsb' 8 24 = 0#24 ∧ decode (encode i) = .ok i ∧ i.format.arity ≤ 3

theorem pmmInit : Statement .pmmInit := by
  unfold Statement
  decide

theorem pmmAlloc : Statement .pmmAlloc := by
  unfold Statement
  decide

theorem pmmAllocn : Statement .pmmAllocn := by
  unfold Statement
  decide

theorem pmmFree : Statement .pmmFree := by
  unfold Statement
  decide

theorem pmmFreen : Statement .pmmFreen := by
  unfold Statement
  decide

theorem pmmTotal : Statement .pmmTotal := by
  unfold Statement
  decide

theorem pmmUsed : Statement .pmmUsed := by
  unfold Statement
  decide

theorem pmmFreemem : Statement .pmmFreemem := by
  unfold Statement
  decide

theorem vmmInit : Statement .vmmInit := by
  unfold Statement
  decide

theorem vmmMap : Statement .vmmMap := by
  unfold Statement
  decide

theorem vmmUnmap : Statement .vmmUnmap := by
  unfold Statement
  decide

theorem vmmGetpa : Statement .vmmGetpa := by
  unfold Statement
  decide

theorem vmmSwitch : Statement .vmmSwitch := by
  unfold Statement
  decide

theorem tlbXlate : Statement .tlbXlate := by
  unfold Statement
  decide

theorem tlbInvlpg : Statement .tlbInvlpg := by
  unfold Statement
  decide

end Sys2Proof.Laws.Encoding
end

