-- ==== Sys2Proof/Tests/Slice0.lean ====
section
/-! SUPPORT. The model's own tests. Expected results are the spec's own vectors (95_test_vectors.md), named V-… or S-…, or a bit
layout written out by hand from R92 and R93. Then, for each statement with hypotheses, `witness_<statement>`: a state and operands
that meet them all together, for each clause at a boundary of its range. -/

namespace Sys2Proof.Tests

open Sys2Proof Sys2Proof.Machine

/-! ## Well-formedness: an ill-formed term for each check -/

theorem test_wf_operand_count :
    Command.wf { instr := .pmmFreen, args := [0x1000000] } = false ∧ Command.wf { instr := .pmmAlloc, args := [0] } = false ∧
      Command.wf { instr := .pmmFreen, args := [0x1000000, 2] } = true := by decide

theorem test_wf_register_offset :
    HostAccess.wf (.regWrite 0x04 .w64 0) = false ∧ HostAccess.wf (.regRead 0x60 .w64) = false ∧
      HostAccess.wf (.regRead 0x58 .w64) = true := by decide

theorem test_wf_register_width :
    HostAccess.wf (.regWrite 0x00 .w64 0x10) = false ∧ HostAccess.wf (.regRead 0x08 .w32) = false ∧
      HostAccess.wf (.regWrite 0x00 .w32 0x10) = true := by decide

theorem test_wf_max_blocks :
    Config.wf { maxBlocks := 127, tlbEntries := 0, physMem := [] } = false ∧
      Config.wf { maxBlocks := 128, tlbEntries := 0, physMem := [] } = true := by decide

/-! ## The command word, bit by bit: `op` in bits 7 to 0 (R92), the opcodes of R93 -/

/-- The PFA group: `0001 0xxx`. -/
theorem test_decode_pfa_words :
    decode 0b00000000000000000000000000010000#32 = .ok .pmmInit ∧ decode 0b00000000000000000000000000010001#32 = .ok .pmmAlloc ∧
    decode 0b00000000000000000000000000010010#32 = .ok .pmmAllocn ∧ decode 0b00000000000000000000000000010011#32 = .ok .pmmFree ∧
    decode 0b00000000000000000000000000010100#32 = .ok .pmmFreen ∧ decode 0b00000000000000000000000000010101#32 = .ok .pmmTotal ∧
    decode 0b00000000000000000000000000010110#32 = .ok .pmmUsed ∧ decode 0b00000000000000000000000000010111#32 = .ok .pmmFreemem := by
  decide

/-- The PTW group `0010 0xxx` and the TLB group `0011 000x`. -/
theorem test_decode_ptw_and_tlb_words :
    decode 0b00000000000000000000000000100000#32 = .ok .vmmInit ∧ decode 0b00000000000000000000000000100001#32 = .ok .vmmMap ∧
    decode 0b00000000000000000000000000100010#32 = .ok .vmmUnmap ∧ decode 0b00000000000000000000000000100011#32 = .ok .vmmGetpa ∧
    decode 0b00000000000000000000000000100100#32 = .ok .vmmSwitch ∧ decode 0b00000000000000000000000000110000#32 = .ok .tlbXlate ∧
    decode 0b00000000000000000000000000110001#32 = .ok .tlbInvlpg := by
  decide

/-- V-ENC-1: each illegal word ends with `ERR_CMD`. -/
theorem test_illegal_words :
    ∀ w ∈ [0x00000000#64, 0x00000018, 0x00000025, 0x00000032, 0x00000111, 0x80000021, 0xFFFFFFFF],
      hostAccess (.regWrite 0x00 .w32 w) State.reset = .next { State.reset with status := 2, flags := 8 } := by
  intro w hw
  fin_cases hw <;> rfl

/-- The opcode table's numbering: bit 0 is the least significant bit; what has a reserved bit set is no command. -/
theorem test_decode_table_word :
    decodeTableWord 32 0x21 = some .vmmMap ∧ decodeTableWord 32 0x121 = none ∧ decodeTableWord 32 0x18 = none := by decide

/-- V-ENC-3: one command as register writes. -/
theorem test_vmm_map_as_register_writes :
    assembleLine "VMM_MAP 0xFFFF800000405000, 0x2000000, P|W|U ; high half".toList =
      some [.regWrite 0x08 .w64 0xFFFF800000405000, .regWrite 0x10 .w64 0x2000000, .regWrite 0x18 .w64 7,
        .regWrite 0x00 .w32 0x21] := by decide +kernel

/-- Program 1, second and fourth lines, read back. -/
theorem test_program_read_back :
    decodeProgram [.regWrite 0x00 .w32 0x11, .regWrite 0x08 .w64 0x1001000, .regWrite 0x10 .w64 0xA, .regWrite 0x00 .w32 0x14] =
      some [{ instr := .pmmAlloc, args := [] }, { instr := .pmmFreen, args := [0x1001000, 0xA] }] := by decide +kernel

/-! ## Single commands -/

/-- After `PMM_INIT bytes`, with the first `taken` pages above the reserved region used. -/
def frames (bytes taken : Nat) : State :=
  (State.reset.initFrames bytes).takePages 4096 taken

/-- `STATUS`, `RES0`, `RES1`, `FLAGS` after a step. -/
def seen (r : Result) : Option (Word32 × Word × Word × Word32) :=
  match r with
  | .next s => some (s.status, s.res0, s.res1, s.flags)
  | .fault _ => none
  | .refused _ => none

/-- `STATUS`, `RES0`, `B[128]`, `B[129]`, `USED_PAGES` after a step. -/
def framesSeen (r : Result) : Option (Word32 × Word × Word32 × Word32 × Word) :=
  match r with
  | .next s => some (s.status, s.res0, s.bitmap.word 128, s.bitmap.word 129, s.usedPages)
  | .fault _ => none
  | .refused _ => none

/-- `TB` and some words of the bitmap after a step. -/
def blocksSeen (ws : List Nat) (r : Result) : Option (Word × List Word32) :=
  match r with
  | .next s => some (s.totalBlocks, ws.map s.bitmap.word)
  | .fault _ => none
  | .refused _ => none

/-- A command on a state. -/
def run (i : Instr) (args : List Word) (s : State) : Result :=
  transact { instr := i, args } s

/-- V-PFA-1, and the ceiling of V-PFA-3. -/
theorem test_pmm_init :
    blocksSeen [0, 127, 128, 511, 512] (run .pmmInit [0x4000000] State.reset) =
      some (512, [0xFFFFFFFF, 0xFFFFFFFF, 0, 0, 0xFFFFFFFF]) ∧
    blocksSeen [32767] (run .pmmInit [0x200000000] State.reset) = some (32768, [0]) ∧
    seen (run .pmmInit [0xFFFFFF] State.reset) = some (4, 0, 0, 8) := by decide +kernel

/-- V-PFA-2: pages beyond the last whole block are cleared and stay unreachable. -/
theorem test_pmm_init_part_block :
    blocksSeen [511, 512, 513] (run .pmmInit [0x4015000] State.reset) = some (512, [0, 0xFFE00000, 0xFFFFFFFF]) := by
  decide +kernel

/-- V-PFA-5, last line: the hole is taken. -/
theorem test_pmm_alloc_takes_the_hole :
    framesSeen (run .pmmAlloc [] ((frames 0x4000000 5).releasePages 4097 1)) = some (0, 0x1001000, 0x1F, 0, 4101) := by
  decide +kernel

/-- V-PFA-4: the smallest memory has no frame. -/
theorem test_pmm_alloc_fails : seen (run .pmmAlloc [] (frames 0x1000000 0)) = some (1, 0, 0, 1) := by decide +kernel

/-- V-PFA-5: the one-page hole is skipped. -/
theorem test_pmm_allocn_skips_a_short_hole :
    framesSeen (run .pmmAllocn [2] ((frames 0x4000000 3).releasePages 4097 1)) = some (0, 0x1003000, 0x1D, 0, 4100) := by
  decide +kernel

/-- V-PFA-9: a run across a word boundary. -/
theorem test_pmm_allocn_crosses_words :
    framesSeen (run .pmmAllocn [5] (frames 0x4000000 30)) = some (0, 0x101E000, 0xFFFFFFFF, 0x7, 4131) := by decide +kernel

/-- V-PFA-6: the low 12 bits are ignored. -/
theorem test_pmm_free :
    framesSeen (run .pmmFree [0x1000FFF] (frames 0x4000000 5)) = some (0, 0, 0x1E, 0, 4100) := by decide +kernel

/-- V-PFA-6: the last reserved page and the first page beyond the range. -/
theorem test_pmm_free_range :
    seen (run .pmmFree [0xFFF000] (frames 0x4000000 5)) = some (5, 0, 0, 9) ∧
      seen (run .pmmFree [0x4000000] (frames 0x4000000 5)) = some (5, 0, 0, 9) := by decide +kernel

/-- V-PFA-11, last line: a run with one page already free. -/
theorem test_pmm_freen :
    framesSeen (run .pmmFreen [0x1000000, 8] (frames 0x4000000 7)) = some (0, 0, 0, 0, 4096) := by decide +kernel

/-- V-PFA-10: a count of 0 exits before the range check; a run that starts in the reserved region is refused whole. -/
theorem test_pmm_freen_range :
    seen (run .pmmFreen [0, 0] (frames 0x4000000 10)) = some (0, 0, 0, 1) ∧
      seen (run .pmmFreen [0xFFF000, 2] (frames 0x4000000 10)) = some (5, 0, 0, 9) ∧
      seen (run .pmmFreen [0x3FFF000, 2] (frames 0x4000000 10)) = some (5, 0, 0, 9) := by decide +kernel

/-- V-PFA-1, after the first allocation. -/
theorem test_pmm_queries :
    seen (run .pmmTotal [] (frames 0x4000000 1)) = some (0, 0x4000000, 0, 1) ∧
      seen (run .pmmUsed [] (frames 0x4000000 1)) = some (0, 0x1001000, 0, 1) ∧
      seen (run .pmmFreemem [] (frames 0x4000000 1)) = some (0, 0x2FFF000, 0, 1) := by decide +kernel

/-- V-ENC-2: readiness is checked before the operand. -/
theorem test_readiness_before_operand :
    seen (run .pmmAllocn [0] State.reset) = some (3, 0, 0, 8) ∧
      seen (run .pmmInit [0xFFFFFF] (frames 0x4000000 0)) = some (3, 0, 0, 9) ∧
      seen (run .pmmAllocn [0] (frames 0x4000000 0)) = some (4, 0, 0, 9) := by decide +kernel

/-- A tree of four tables with one page mapped: `0x8080604000`, whose slices are 1, 2, 3, 4. Root and active root `0x1000000`, `FLAGS`
all ready. -/
def onePage : State :=
  { frames 0x1020000 4 with
    flags := 7, root := 0x1000000, activeRoot := 0x1000000
    mem := (((Memory.writeWord [] 0x1000008 0x1001003).writeWord 0x1001010 0x1002003).writeWord 0x1002018 0x1003003).writeWord
      0x1003020 0x2000007 }

/-- The same where memory ends below `0x1003000`, before the leaf table. -/
def onePageShort : State :=
  { onePage with cfg := { maxBlocks := 32768, tlbEntries := 16, physMem := [{ base := 0, size := 0x1003000 }] } }

/-- V-PFA-4, V-RST-1: no frame for the root; before `PMM_INIT`. -/
theorem test_vmm_init_does_not_start :
    seen (run .vmmInit [] (frames 0x1000000 0)) = some (1, 0, 0, 1) ∧ seen (run .vmmInit [] State.reset) = some (3, 0, 0, 8) := by
  decide +kernel

/-- What one word of memory holds after a step, beside the status and the count of used pages. -/
def wordSeen (a : Word) (r : Result) : Option (Word32 × Word × Word) :=
  match r with
  | .next s => some (s.status, s.usedPages, s.mem.readWord a)
  | .fault _ => none
  | .refused _ => none

/-- V-PTW-6: remapping overwrites and allocates nothing; V-PTW-9: bits of `phys` and `flags` are taken as given. -/
theorem test_vmm_map_overwrites :
    wordSeen 0x1003020 (run .vmmMap [0x8080604123, 0x3000000, 0x3] onePage) = some (0, 4100, 0x3000003) ∧
      wordSeen 0x1003020 (run .vmmMap [0x8080604000, 0x5003000, 0x8000000000000FE7] onePage) =
        some (0, 4100, 0x8000000005003FE7) := by decide +kernel

/-- V-PTW-7: the leaf entry is cleared and the tables stay. -/
theorem test_vmm_unmap : wordSeen 0x1003020 (run .vmmUnmap [0x8080604FFF] onePage) = some (0, 4100, 0) := by decide +kernel

/-- V-PTW-5: frame and offset, bits 63 to 48 ignored; V-PTW-13: a table where no memory is. -/
theorem test_vmm_getpa :
    seen (run .vmmGetpa [0x8080604123] onePage) = some (0, 0x2000123, 0, 7) ∧
      seen (run .vmmGetpa [0xFFFF008080604123] onePage) = some (0, 0x2000123, 0, 7) ∧
      seen (run .vmmGetpa [0x8080604123] onePageShort) = some (6, 0, 0, 15) := by decide +kernel

/-- V-TLB-1: an unaligned table is refused; a switch empties the cache and raises `ACTIVE_VALID`. -/
theorem test_vmm_switch :
    seen (run .vmmSwitch [0x1000001] State.reset) = some (4, 0, 0, 8) ∧
      run .vmmSwitch [0x1000000] { State.reset with tlb := [(0x500, 0x500003)] } =
        .next { State.reset with arg0 := 0x1000000, activeRoot := 0x1000000, flags := 4 } := ⟨by decide +kernel, rfl⟩

/-- V-TLB-2, V-TLB-5: a miss walks; a cached pair answers for a changed entry. -/
theorem test_tlb_xlate :
    seen (run .tlbXlate [0x8080604123] onePage) = some (0, 0x2000123, 7, 7) ∧
      seen (run .tlbXlate [0x8080604123] { onePage with tlb := [(0x8080604, 0x500003)] }) = some (0, 0x500123, 3, 7) ∧
      seen (run .tlbXlate [0x8080604123] State.reset) = some (3, 0, 0, 8) := by decide +kernel

/-- V-TLB-3: the pair of the page goes, the others stay. -/
theorem test_tlb_invlpg :
    run .tlbInvlpg [0x500FFF] { State.reset with tlb := [(0x1, 0x1003), (0x500, 0x500003)] } =
      .next { State.reset with arg0 := 0x500FFF, tlb := [(0x1, 0x1003)] } := rfl

/-! ## Steps of the whole machine -/

/-- The word put in by `withFetchWord` is what the next step runs (`PMM_INIT`, with `ARG0` already written). -/
theorem test_step_runs_the_fetched_word :
    seen (step ({ State.reset with arg0 := 0x4000000 }.withFetchWord 32 0x10)) = some (0, 0, 0, 1) := by decide +kernel

/-- A host write of `STATUS` is ignored; a store and a reset are the host's other moves (R36, R250). -/
theorem test_host_moves :
    step { State.reset with hostScript := [.regWrite 0x20 .w32 5] } = .next State.reset ∧
      wordSeen 0x1000000 (step { State.reset with hostScript := [.memWrite 0x1000000 .w64 0x1122334455667788] }) =
        some (0, 0, 0x1122334455667788) ∧
      step { onePage with hostScript := [.reset] } = .next { State.reset with mem := onePage.mem } :=
  ⟨rfl, by decide +kernel, rfl⟩

/-! ## States for the witnesses -/

/-- Memory everywhere, as `State.reset` has it. -/
theorem memValid_default {s : State} (h : s.cfg = Config.default) {a : Word} (ha : a.toNat % 8 = 0) : s.memValid a = true := by
  have hlt := a.isLt
  simp only [State.memValid, h, Config.default, Config.covers, List.any_cons, List.any_nil, Bool.or_false, Bool.and_eq_true,
    decide_eq_true_eq]
  omega

/-- After `PMM_INIT 0x1020000` with `n` of its 32 frames still free, the highest. -/
def pool (n : Nat) : State :=
  frames 0x1020000 (32 - n)

theorem pool_blocks (n : Nat) : (pool n).totalBlocks = 129#64 := by
  show BitVec.ofNat 64 (min (0x1020000 / 131072) 32768) = 129#64
  decide +kernel

theorem pool_totalPages (n : Nat) : (pool n).totalPages = 4128 := by
  rw [State.totalPages, pool_blocks]
  decide

theorem base_totalPages : (State.reset.initFrames 0x1020000).totalPages = 4128 :=
  (show (State.reset.initFrames 0x1020000).totalPages = (pool 0).totalPages from rfl).trans (pool_totalPages 0)

theorem pool_flags (n : Nat) : (pool n).flags = 1 := rfl

theorem pool_ready (n : Nat) : (pool n).flag .pmmReady = true := by
  rw [State.flag, pool_flags]
  rfl

theorem pool_used (n i : Nat) : (pool n).bitmap.used i = !(decide (4096 + (32 - n) ≤ i) && decide (i < 4128)) := by
  have h : (pool n).bitmap = (Bitmap.forMemory 32768 0x1020000).setPages 4096 (32 - n) := rfl
  rw [h, used_setPages, used_forMemory, Bool.eq_iff_iff]
  simp
  omega

theorem pool_base : (State.reset.initFrames 0x1020000).FrameInv :=
  frameInv_initFrames (by decide) (by decide) (by decide)

theorem pool_free (n j : Nat) (h1 : 4096 ≤ j) (h2 : j < 4096 + (32 - n)) :
    (State.reset.initFrames 0x1020000).bitmap.used j = false := by
  have h : (State.reset.initFrames 0x1020000).bitmap = Bitmap.forMemory 32768 0x1020000 := rfl
  rw [h, used_forMemory]
  simp
  omega

theorem pool_frames (n : Nat) : (pool n).FrameInv :=
  frameInv_takePages pool_base (by rw [base_totalPages]; omega) (pool_free n)

theorem pool_inv (n : Nat) : (pool n).Inv where
  memCanonical := wf_reset
  tlbSorted := .nil
  tlbBound := Nat.zero_le _
  tlbPresent p hp := by cases hp
  rootAligned := rfl
  rootAboveReserved h := absurd rfl h
  activeRootAligned := rfl
  flagsReserved := show (1#32).toNat < 16 by decide
  statusLegal := Nat.zero_le _
  res1Low := show (0#64).toNat < 4096 by decide
  vmmAfterPmm _ := pool_ready n
  beforePmm h := absurd (pool_ready n) (by rw [h]; decide)
  frames _ := pool_frames n

theorem pool_backed (n : Nat) : (pool n).RangeBacked := fun _ ha _ => memValid_default rfl ha

theorem pool_freePages {n : Nat} (h : n ≤ 32) : (pool n).freePages = n := by
  have h0 : (State.reset.initFrames 0x1020000).freePages = 32 := by
    have hb : (State.reset.initFrames 0x1020000).bitmap = Bitmap.forMemory 32768 0x1020000 := rfl
    rw [State.freePages, base_totalPages, hb, countUsed_forMemory 32768 0x1020000 4128 (by decide) (by decide)]
  rw [pool, Tests.frames, freePages_takePages (by rw [base_totalPages]; omega) (pool_free n), h0]
  omega

theorem wf_zeroed (p : Word) (ks : List Nat) (m : Memory) (h : m.wf) : (zeroed m p ks).wf := by
  induction ks generalizing m with
  | nil => exact h
  | cons k ks ih => exact ih _ (wf_writeWord _ _ _ h)

theorem wf_zeroedPage (p : Word) {m : Memory} (h : m.wf) : (zeroedPage m p).wf := by
  rw [zeroedPage_def]
  exact wf_zeroed _ _ _ h

/-- Ready for every command: on the path of `v`, the operand, the table `t` at depth `k` is linked and empty, and `n` frames are free. -/
structure Ready (v : Word) (k n : Nat) (t : Word) (s : State) : Prop where
  inv : s.Inv
  tree : s.TreeInv
  cfg : s.cfg = Config.default
  flags : s.flags = 7
  active : s.activeRoot = s.root
  tlb : s.tlb = []
  operand : s.arg0 = v
  table : tableAt s.mem s.root v k = some t
  empty : ∀ idx, s.mem.readWord (entryAddr t idx) = 0
  free : s.freePages = n
  pages : s.totalPages = 4128

theorem Ready.frames {v t : Word} {k n : Nat} {s : State} (h : Ready v k n t s) : s.FrameInv :=
  h.inv.frames (by rw [State.flag, h.flags]; rfl)

theorem Ready.backed {v t : Word} {k n : Nat} {s : State} (h : Ready v k n t s) : s.RangeBacked :=
  fun _ ha _ => memValid_default h.cfg ha

theorem Ready.vmm {v t : Word} {k n : Nat} {s : State} (h : Ready v k n t s) : s.flag .vmmReady = true := by
  rw [State.flag, h.flags]
  rfl

theorem Ready.absent {v t : Word} {k n : Nat} {s : State} (h : Ready v k n t s) :
    present (s.mem.readWord (entryAddr t (vidx v (levelAt k)))) = false := by
  rw [h.empty]
  exact not_present_zero

/-- A page still free. -/
theorem Ready.freePage {v t : Word} {k n : Nat} {s : State} (h : Ready v k (n + 1) t s) :
    ∃ f, f < s.totalPages ∧ s.bitmap.used f = false ∧ pageIndex (pageAddr f) = f := by
  obtain ⟨f, hf, hu, _⟩ := exists_lowest_of_freePages (s := s) (by rw [h.free]; omega)
  exact ⟨f, hf, hu, pageIndex_pageAddr h.frames hf⟩

/-- A root alone. -/
theorem ready_root (v : Word) {n : Nat} (hn : n < 32) : ∃ s t, Ready v 0 n t s := by
  obtain ⟨i, hi, hf, hlow⟩ := exists_lowest_of_freePages (s := pool (n + 1)) (by rw [pool_freePages hn]; omega)
  have h := since_withRoot (pool_frames (n + 1)) hi hf
  have h4 := reserved_le_of_free (pool_frames (n + 1)) hf
  have hp : State.flag .pmmReady { (pool (n + 1)).withRoot i with flags := 7, activeRoot := pageAddr i, arg0 := v } = true :=
    show (7#32).getLsbD 0 = true by decide
  refine ⟨{ (pool (n + 1)).withRoot i with flags := 7, activeRoot := pageAddr i, arg0 := v }, pageAddr i,
    ⟨wf_zeroedPage _ wf_reset, .nil, Nat.zero_le _, fun p hp => (by cases hp), pageAddr_aligned i, fun _ => ?_, pageAddr_aligned i,
      show (7#32).toNat < 16 by decide, Nat.zero_le _, show (0#64).toNat < 4096 by decide, fun _ => hp,
      fun h => absurd hp (by rw [h]; decide),
      fun _ => frameInv_congr h.frames rfl rfl rfl rfl⟩,
    treeInv_congr h.tree rfl rfl rfl fun _ h => h, rfl, rfl, rfl, rfl, rfl, rfl,
    readWord_zeroPage_same _ _ (pageAddr_aligned i), ?_, pool_totalPages (n + 1)⟩
  · show reservedBytes ≤ (pageAddr i).toNat
    rw [pageAddr_toNat (pool_frames (n + 1)) hi]
    simp only [reservedBytes]
    omega
  · have := freePages_takePages (s := pool (n + 1)) (f := i) (c := 1) hi fun j h1 h2 => by rwa [show j = i by omega]
    rw [pool_freePages hn] at this
    exact this

/-- One table more. -/
theorem Ready.grow {v t : Word} {k n : Nat} {s : State} (h : Ready v k (n + 1) t s) (hk : k < 3) :
    ∃ s' t', Ready v (k + 1) n t' s' := by
  obtain ⟨i, hi, hf, hlow⟩ := exists_lowest_of_freePages (s := s) (by rw [h.free]; omega)
  have hF := h.frames
  obtain ⟨hal, _, _, hu⟩ := h.tree.backed v k t (by omega) h.table
  have hr := readWord_withTable hF hi hf (entryAddr t (vidx v (levelAt k))) (entryAddr_aligned _ _ hal)
    (by rwa [pageIndex_entryAddr _ _ hal])
  refine ⟨s.withTable i (entryAddr t (vidx v (levelAt k))), pageAddr i,
    ⟨?_, h.inv.tlbSorted, h.inv.tlbBound, h.inv.tlbPresent, h.inv.rootAligned, h.inv.rootAboveReserved, h.inv.activeRootAligned,
      h.inv.flagsReserved, h.inv.statusLegal, h.inv.res1Low, h.inv.vmmAfterPmm, fun hp => ?_, fun _ => frameInv_withTable hF _ hi hf⟩,
    treeInv_withTable h.tree hF hk h.table h.absent hi hf, h.cfg, h.flags, h.active, h.tlb, h.operand,
    tableAt_withTable_new h.tree hF hk h.table h.absent hi hf, hr.1, ?_, h.pages⟩
  · exact wf_writeWord _ _ _ (wf_zeroedPage _ h.inv.memCanonical)
  · have : s.flag .pmmReady = true := by rw [State.flag, h.flags]; rfl
    exact absurd (show s.flag .pmmReady = false from hp) (by rw [this]; decide)
  · rw [freePages_withTable _ hi hf, h.free]
    rfl

/-- The path of `v` to depth `k`, with `n` frames left. -/
theorem ready_at (v : Word) {k n : Nat} (hk : k ≤ 3) (hn : k + n < 32) : ∃ s t, Ready v k n t s := by
  induction k generalizing n with
  | zero => exact ready_root v (by omega)
  | succ k ih =>
    obtain ⟨s, t, h⟩ := ih (n := n + 1) (by omega) (by omega)
    exact h.grow (by omega)

/-- The frames of `onePage`: the first four of 32 are used. -/
theorem onePage_frames : onePage.FrameInv :=
  frameInv_congr (s := pool 28) (pool_frames 28) rfl rfl rfl rfl

theorem onePage_mem : onePage.mem.wf :=
  wf_writeWord _ _ _ (wf_writeWord _ _ _ (wf_writeWord _ _ _ (wf_writeWord _ _ _ wf_reset)))

/-- `onePage` with any legal cache and operands. -/
theorem onePage_inv (c : Tlb) (a0 a1 a2 : Word) (hs : (c.map Prod.fst).Pairwise fun a b => a.toNat < b.toNat) (hl : c.length ≤ 16)
    (hp : ∀ p ∈ c, present p.2 = true) : { onePage with tlb := c, arg0 := a0, arg1 := a1, arg2 := a2 }.Inv where
  memCanonical := onePage_mem
  tlbSorted := hs
  tlbBound := hl
  tlbPresent := hp
  rootAligned := show (0x1000000#64).toNat % 4096 = 0 by decide
  rootAboveReserved _ := show 0x1000000 ≤ (0x1000000#64).toNat by decide
  activeRootAligned := show (0x1000000#64).toNat % 4096 = 0 by decide
  flagsReserved := show (7#32).toNat < 16 by decide
  statusLegal := show (0#32).toNat ≤ 6 by decide
  res1Low := show (0#64).toNat < 4096 by decide
  vmmAfterPmm _ := show (7#32).getLsbD 0 = true by decide
  beforePmm h := absurd (show (7#32).getLsbD 0 = false from h) (by decide)
  frames _ := frameInv_congr onePage_frames rfl rfl rfl rfl

/-- `onePage` with the operand on the mapped page, its pair in the cache. -/
def onePageCached : State :=
  { onePage with tlb := [(0x8080604, 0x2000007)], arg0 := 0x8080604123, arg1 := 0, arg2 := 0 }

theorem onePageCached_inv : onePageCached.Inv :=
  onePage_inv _ _ _ _ (List.pairwise_singleton _ _) (show 1 ≤ 16 by decide) fun p hp => by
    rw [List.mem_singleton.mp hp]
    decide

theorem onePage_table : tableAt onePage.mem onePage.root 0x8080604123 3 = some 0x1003000 := by decide +kernel

theorem onePage_leaf : leafEntry onePage.mem onePage.root 0x8080604123 = some 0x2000007 := by decide +kernel

theorem onePageCached_coherent : onePageCached.Coherent := by
  intro p hp
  obtain rfl := List.mem_singleton.mp hp
  exact (leafEntry_congr (v := pageBase 0x8080604) (w := 0x8080604123) (by decide)).trans onePage_leaf

/-- Memory everywhere stands behind every walk. -/
theorem pathBacked_default {s : State} (hc : s.cfg = Config.default) {root : Word} (hr : root.toNat % 4096 = 0) (v : Word) :
    s.PathBacked root v := by
  intro n a hn ha
  obtain ⟨t, ht, rfl⟩ := Option.map_eq_some_iff.mp ha
  exact memValid_default hc (entryAddr_aligned _ _ (tableAt_aligned hr hn ht))

/-- The status a command ends with, if it ends in a next state. -/
def statusOf (r : Result) : Option Word32 :=
  match r with
  | .next t => some t.status
  | .fault _ => none
  | .refused _ => none

theorem next_of_statusOf {r : Result} {st : Word32} (h : statusOf r = some st) : ∃ t, r = .next t ∧ t.status = st := by
  cases r with
  | next t => exact ⟨t, rfl, Option.some.inj h⟩
  | fault f => cases h
  | refused r => cases h

/-! ## Witnesses: the command word, the program, the register file -/

theorem witness_IllegalWordReportsAndChangesNothingElse :
    ((0x111#64).setWidth 32).extractLsb' 8 24 ≠ 0#24 ∧
      ((0x18#64).setWidth 32).extractLsb' 0 8 ∉ [0x10#8, 0x11#8, 0x12#8, 0x13#8, 0x14#8, 0x15#8, 0x16#8, 0x17#8,
        0x20#8, 0x21#8, 0x22#8, 0x23#8, 0x24#8, 0x30#8, 0x31#8] := by decide

theorem witness_ProgramEncodingReadsBack :
    (∀ c ∈ [({ instr := .pmmFreen, args := [0x1001000, 0xA] } : Command)], c.wf = true) ∧
      decodeProgram (encodeProgram [{ instr := .pmmFreen, args := [0x1001000, 0xA] }]) =
        some [{ instr := .pmmFreen, args := [0x1001000, 0xA] }] := by decide +kernel

theorem witness_StepRunsTheDecodedCommand :
    { State.reset with hostScript := [.regWrite 0x00 .w32 0x15] }.hostScript = [.regWrite 0x00 .w32 0x15] ∧
      decode ((0x15#64).setWidth 32) = .ok .pmmTotal := ⟨rfl, by decide⟩

theorem witness_RunOfAnEncodedProgramIsItsCommands :
    ∀ c ∈ [({ instr := .pmmInit, args := [0x4000000] } : Command), { instr := .pmmAlloc, args := [] }], c.wf = true := by decide

/-- `PMM_ALLOCN 2`: `ARG1` and `ARG2` are free to differ; and for three operands none is. -/
theorem witness_CommandsReadOnlyTheirOperands :
    (∃ t, exec .pmmAllocn { pool 32 with arg0 := 2 } = .next t ∧ t.status = 0) ∧ Instr.pmmAllocn.format.arity = 1 ∧
      Instr.pmmAlloc.format.arity = 0 ∧ Instr.pmmFreen.format.arity = 2 ∧ Instr.vmmMap.format.arity = 3 :=
  ⟨next_of_statusOf (by decide +kernel), rfl, rfl, rfl, rfl⟩

theorem witness_OddRegisterAccessesAreRefused :
    (¬ (Width.w64 = .w32 ∧ 0x00 ∈ [0x00, 0x20, 0x38]) ∧ ¬ (Width.w64 = .w64 ∧ 0x00 ∈ [0x08, 0x10, 0x18, 0x28, 0x30, 0x40, 0x48, 0x50, 0x58])) ∧
      (¬ (Width.w32 = .w32 ∧ 0x08 ∈ [0x00, 0x20, 0x38]) ∧ ¬ (Width.w32 = .w64 ∧ 0x08 ∈ [0x08, 0x10, 0x18, 0x28, 0x30, 0x40, 0x48, 0x50, 0x58])) ∧
      ¬ (Width.w64 = .w32 ∧ 0x60 ∈ [0x00, 0x20, 0x38]) ∧
        ¬ (Width.w64 = .w64 ∧ 0x60 ∈ [0x08, 0x10, 0x18, 0x28, 0x30, 0x40, 0x48, 0x50, 0x58]) := by decide

theorem witness_ResetValues : hostAccess .reset onePage = .next { State.reset with mem := onePage.mem } := rfl

theorem witness_StraightAfterReset :
    (∃ r, hostAccess .reset onePage = .next r) ∧ (0x1000000#64).extractLsb' 0 12 = 0#12 ∧ 0x1000000 ≤ (0x1000000#64).toNat :=
  ⟨⟨_, rfl⟩, by decide, by decide⟩

/-! ## Witnesses: every command -/

/-- A command for each kind of end: `OK`, `FAIL`, `ERR_STATE`, `ERR_ARG`, `ERR_RANGE`, `ERR_BUS`, from states of the invariant. -/
theorem witness_EveryCommandEndsInDone :
    (∃ t, exec .pmmTotal (pool 0) = .next t ∧ t.status = 0) ∧ (∃ t, exec .tlbXlate onePageCached = .next t ∧ t.status = 0) ∧
      (∃ t, exec .pmmAlloc (pool 0) = .next t ∧ t.status = 1) ∧ (∃ t, exec .vmmMap (pool 0) = .next t ∧ t.status = 3) ∧
      (∃ t, exec .pmmAllocn (pool 0) = .next t ∧ t.status = 4) ∧ (∃ t, exec .pmmFree (pool 0) = .next t ∧ t.status = 5) ∧
      ∃ t, exec .vmmGetpa { onePageShort with arg0 := 0x8080604123 } = .next t ∧ t.status = 6 :=
  ⟨next_of_statusOf (by decide +kernel), next_of_statusOf (by decide +kernel), next_of_statusOf (by decide +kernel),
    next_of_statusOf (by decide +kernel), next_of_statusOf (by decide +kernel), next_of_statusOf (by decide +kernel),
    next_of_statusOf (by decide +kernel)⟩

theorem witness_RefusedAndFailedCommandsAreWhollyNotDone :
    (pool 0).Inv ∧ (∃ t, exec .pmmAlloc (pool 0) = .next t ∧ t.status = 1) ∧ (∃ t, exec .vmmMap (pool 0) = .next t ∧ t.status = 3) ∧
      (∃ t, exec .pmmAllocn (pool 0) = .next t ∧ t.status = 4) ∧ ∃ t, exec .pmmFree (pool 0) = .next t ∧ t.status = 5 :=
  ⟨pool_inv 0, next_of_statusOf (by decide +kernel), next_of_statusOf (by decide +kernel), next_of_statusOf (by decide +kernel),
    next_of_statusOf (by decide +kernel)⟩

/-- Both sides of each check: `PMM_FREEN` of the last page of the range passes, of one page more does not; one operand fails two checks
and the first is reported. -/
theorem witness_ErrorsAreReportedInTheOrderOfTheChecks :
    (∃ t, exec .pmmFreen { pool 0 with arg0 := 0x101F000, arg1 := 1 } = .next t ∧ t.status = 0) ∧
      (∃ t, exec .pmmFreen { pool 0 with arg0 := 0x101F000, arg1 := 2 } = .next t ∧ t.status = 5) ∧
      (∃ t, exec .pmmAllocn { State.reset with arg0 := 0 } = .next t ∧ t.status = 3) ∧
      (∃ t, exec .pmmInit { State.reset with arg0 := 0xFFFFFF } = .next t ∧ t.status = 4) ∧
      ∃ t, exec .vmmGetpa { onePageShort with arg0 := 0x8080604123 } = .next t ∧ t.status = 6 :=
  ⟨next_of_statusOf (by decide +kernel), next_of_statusOf (by decide +kernel), next_of_statusOf (by decide +kernel),
    next_of_statusOf (by decide +kernel), next_of_statusOf (by decide +kernel)⟩

/-- A command of each group, each with an effect. -/
theorem witness_OnlyTheNamedCommandsWriteEachElement :
    (∃ t, exec .pmmAlloc (pool 1) = .next t ∧ t.status = 0) ∧ (∃ t, exec .vmmUnmap onePageCached = .next t ∧ t.status = 0) ∧
      ∃ t, exec .vmmSwitch (pool 1) = .next t ∧ t.status = 0 :=
  ⟨next_of_statusOf (by decide +kernel), next_of_statusOf (by decide +kernel), next_of_statusOf (by decide +kernel)⟩

theorem witness_EveryCommandCompletes : State.reset.flag .pmmReady = false ∧ (pool 1).Inv ∧ onePageCached.Inv :=
  ⟨rfl, pool_inv 1, onePageCached_inv⟩

/-! ## Witnesses: the frame allocator -/

theorem witness_PmmInit :
    (pool 0).flag .pmmReady = true ∧ State.reset.flag .pmmReady = false ∧ (0xFFFFFF#64).toNat < 0x1000000 ∧
      0x1000000 ≤ (0x1000000#64).toNat := ⟨rfl, rfl, by decide, by decide⟩

/-- The first clauses of `PmmAlloc…`, `PmmAllocn…`, `PmmFree`, `PmmFreen…`, `VmmGetpa…` and `VmmUnmap…`: before initialisation, and a count
of 0 after it. -/
theorem witness_ClausesBeforeInitialisation :
    State.reset.flag .pmmReady = false ∧ State.reset.flag .vmmReady = false ∧ (pool 1).flag .pmmReady = true ∧
      (pool 1).arg0 = 0#64 := ⟨rfl, rfl, pool_ready 1, rfl⟩

theorem pool_full (j : Nat) : (pool 0).bitmap.used j = true := by
  rw [pool_used]
  simp
  omega

/-- The last page of the range, and none. -/
theorem witness_PmmAllocTakesTheLowestFreePage :
    ((pool 1).Inv ∧ (pool 1).flag .pmmReady = true ∧ 4127 < (pool 1).totalBlocks.toNat * 32 ∧ (pool 1).bitmap.used 4127 = false ∧
      ∀ j < 4127, (pool 1).bitmap.used j = true) ∧
    (pool 0).Inv ∧ (pool 0).flag .pmmReady = true ∧ ∀ i < (pool 0).totalBlocks.toNat * 32, (pool 0).bitmap.used i = true := by
  refine ⟨⟨pool_inv 1, rfl, by rw [pool_blocks]; decide, ?_, fun j hj => ?_⟩, pool_inv 0, rfl, fun i _ => pool_full i⟩ <;> rw [pool_used]
  · simp
  · simp
    omega

/-- A run that ends with the range, and one page too many. -/
theorem witness_PmmAllocnTakesTheLowestRun :
    (4125 + (3#64).toNat ≤ (pool 3).totalBlocks.toNat * 32 ∧
      (∀ j, 4125 ≤ j → j < 4125 + (3#64).toNat → (pool 3).bitmap.used j = false) ∧
      ∀ g < 4125, ∃ j, g ≤ j ∧ j < g + (3#64).toNat ∧ (pool 3).bitmap.used j = true) ∧
    ∀ f, f + (4#64).toNat ≤ (pool 3).totalBlocks.toNat * 32 → ∃ j, f ≤ j ∧ j < f + (4#64).toNat ∧ (pool 3).bitmap.used j = true := by
  simp only [pool_blocks, pool_used]
  refine ⟨⟨by decide, fun j h1 h2 => ?_, fun g hg => ⟨g, Nat.le_refl g, ?_, ?_⟩⟩, fun f hf => ⟨f, Nat.le_refl f, ?_, ?_⟩⟩ <;> simp at * <;> omega

/-- The lowest page above the reserved region freed, and a run of it. -/
theorem witness_FreedFramesComeBack :
    ((pool 0).Inv ∧ (pool 0).flag .pmmReady = true ∧
      (∃ t, transact { instr := .pmmFree, args := [0x1000000] } (pool 0) = .next t ∧ t.status = 0) ∧
      ∀ j < (0x1000000#64).toNat / 4096, (pool 0).bitmap.used j = true) ∧
    ∃ t, transact { instr := .pmmFreen, args := [0x1000000, 2] } (pool 0) = .next t ∧ t.status = 0 ∧
      ∀ g < (0x1000000#64).toNat / 4096, ∃ j, g ≤ j ∧ j < g + (2#64).toNat ∧ t.bitmap.used j = true := by
  refine ⟨⟨pool_inv 0, rfl, next_of_statusOf (by decide +kernel), fun j _ => pool_full j⟩, ?_⟩
  obtain ⟨t, ht, hs⟩ := next_of_statusOf (r := transact { instr := .pmmFreen, args := [0x1000000, 2] } (pool 0)) (st := 0)
    (by decide +kernel)
  refine ⟨t, ht, hs, fun g hg => ⟨g, Nat.le_refl g, show g < g + 2 by omega, ?_⟩⟩
  have hr : t.bitmap.freeBits = ((pool 0).bitmap.clearPages 4096 2).freeBits := by
    have : (match transact { instr := .pmmFreen, args := [0x1000000, 2] } (pool 0) with
      | .next t => t.bitmap.freeBits == ((pool 0).bitmap.clearPages 4096 2).freeBits
      | _ => false) = true := by decide +kernel
    rw [ht] at this
    exact eq_of_beq this
  have : t.bitmap = (pool 0).bitmap.clearPages 4096 2 := by
    cases h : t.bitmap
    rw [h] at hr
    exact congrArg Bitmap.mk hr
  rw [this, used_clearPages, pool_full]
  have : (0x1000000#64).toNat / 4096 = 4096 := by decide
  simp
  omega

/-- The first and last page of the range that may be freed, and their neighbours outside. -/
theorem witness_PmmFree :
    (pool 1).flag .pmmReady = true ∧ (pool 1).totalBlocks.toNat * 32 = 4128 ∧ (0x1000FFF#64).toNat / 4096 = 4096 ∧
      (0x101F000#64).toNat / 4096 = 4127 ∧ (0xFFFFFF#64).toNat / 4096 = 4095 ∧ (0x1020000#64).toNat / 4096 = 4128 :=
  ⟨rfl, by rw [pool_blocks]; decide, by decide, by decide, by decide, by decide⟩

/-- Runs that fill the range, end one page beyond it, and start one page before it. -/
theorem witness_PmmFreenIsAllOrNothing :
    (pool 1).flag .pmmReady = true ∧ (pool 1).totalBlocks.toNat * 32 = 4128 ∧ (0x1000000#64).toNat / 4096 + (32#64).toNat = 4128 ∧
      (0x1000000#64).toNat / 4096 + (33#64).toNat = 4129 ∧ (0xFFF000#64).toNat / 4096 = 4095 :=
  ⟨rfl, by rw [pool_blocks]; decide, by decide, by decide, by decide⟩

theorem witness_FreeOneIsFreeARunOfOne :
    (∃ t, transact { instr := .pmmFree, args := [0x1000000] } (pool 0) = .next t ∧ t.status = 0) ∧
      ∃ t, transact { instr := .pmmFree, args := [0xFFF000] } (pool 0) = .next t ∧ t.status = 5 :=
  ⟨next_of_statusOf (by decide +kernel), next_of_statusOf (by decide +kernel)⟩

theorem witness_UsedPlusFreeIsTotal : (pool 3).Inv ∧ onePageCached.Inv := ⟨pool_inv 3, onePageCached_inv⟩

theorem witness_PfaInvariantsHoldAfterEveryCommand :
    (pool 1).Inv ∧ (pool 1).cfg.wf = true ∧ ∃ t, exec .pmmAlloc (pool 1) = .next t ∧ t.status = 0 :=
  ⟨pool_inv 1, rfl, next_of_statusOf (by decide +kernel)⟩

theorem witness_PfaCommandsLeaveTheRest : ∃ t, exec .pmmAlloc (pool 1) = .next t ∧ t.status = 0 :=
  next_of_statusOf (by decide +kernel)

/-! ## Witnesses: memory and the walker -/

theorem witness_EntriesAreLittleEndian : (7 < 8) ∧ OutsideWord 0x1000 0x1008 ∧ OutsideWord 0x1000 0xFFF ∧ ¬ OutsideWord 0x1000 0x1007 := by
  simp only [OutsideWord]
  decide

/-- A store at the top of the address space, and one that would need a byte that does not exist. -/
theorem witness_HostLoadsAndStores :
    State.reset.bytesExist 0xFFFFFFFFFFFFFFF8 Width.w64.bytes = true ∧ onePageShort.bytesExist 0x1002FFF Width.w8.bytes = true ∧
      onePageShort.bytesExist 0x1002FFF Width.w16.bytes = false := by decide +kernel

theorem onePage_root : onePage.root = 0x1000000 ∧ onePage.root.toNat % 4096 = 0 := ⟨rfl, by decide⟩

/-- A page mapped, one whose leaf table is there and whose entry is 0 because written so, one whose walk ends at the root. -/
theorem witness_VmmGetpaAnswersTheWalk :
    onePage.flag .vmmReady = true ∧ onePage.root.toNat % 4096 = 0 ∧ (∀ v, onePage.PathBacked onePage.root v) ∧
      leafEntry onePage.mem onePage.root 0x8080604123 = some 0x2000007 ∧
      leafEntry (onePage.mem.writeWord 0x1003028 0) onePage.root 0x8080605000 = none ∧
      leafEntry (onePage.mem.writeWord 0x1000010 0) onePage.root 0x10080604000 = none :=
  ⟨by decide, onePage_root.2, pathBacked_default rfl onePage_root.2, onePage_leaf, by decide +kernel, by decide +kernel⟩

/-- The four entries of `onePage`, and the same with the leaf absent. -/
theorem witness_WalkReadsFourEntries :
    onePage.mem.readWord (0x1000000 + ((0x8080604123#64).extractLsb' 39 9).setWidth 64 * 8#64) = 0x1001003 ∧
      onePage.mem.readWord ((0x1001003 &&& 0xFFFFFFFFFFFFF000#64) + ((0x8080604123#64).extractLsb' 30 9).setWidth 64 * 8#64) = 0x1002003 ∧
      onePage.mem.readWord ((0x1002003 &&& 0xFFFFFFFFFFFFF000#64) + ((0x8080604123#64).extractLsb' 21 9).setWidth 64 * 8#64) = 0x1003003 ∧
      onePage.mem.readWord ((0x1003003 &&& 0xFFFFFFFFFFFFF000#64) + ((0x8080604123#64).extractLsb' 12 9).setWidth 64 * 8#64) = 0x2000007 := by
  decide +kernel

/-- `onePage` with memory at the given addresses only. -/
def onePageOn (size : Nat) : State :=
  { onePage with arg0 := 0x8080604123, cfg := { maxBlocks := 32768, tlbEntries := 16, physMem := [{ base := 0, size }] } }

theorem onePageOn_entries (size : Nat) :
    entryOnPath (onePageOn size).mem 0x1000000 0x8080604123 0 = some 0x1000008 ∧
      entryOnPath (onePageOn size).mem 0x1000000 0x8080604123 1 = some 0x1001010 ∧
      entryOnPath (onePageOn size).mem 0x1000000 0x8080604123 2 = some 0x1002018 ∧
      entryOnPath (onePageOn size).mem 0x1000000 0x8080604123 3 = some 0x1003020 := by
  show entryOnPath onePage.mem 0x1000000 0x8080604123 0 = some 0x1000008 ∧
      entryOnPath onePage.mem 0x1000000 0x8080604123 1 = some 0x1001010 ∧
      entryOnPath onePage.mem 0x1000000 0x8080604123 2 = some 0x1002018 ∧
      entryOnPath onePage.mem 0x1000000 0x8080604123 3 = some 0x1003020
  decide +kernel

/-- No memory for the root; memory for all but the leaf table: depths 0 and 3, from `ROOT` and from `ACTIVE_ROOT`. -/
theorem witness_AbsentMemoryEndsTheCommandWithErrBus :
    (onePageOn 0).flag .vmmReady = true ∧ (onePageOn 0).flag .activeValid = true ∧
      (onePageOn 0).BusErrorAt (onePageOn 0).root (onePageOn 0).arg0 0 ∧
      (onePageOn 0x1003000).BusErrorAt (onePageOn 0x1003000).root (onePageOn 0x1003000).arg0 3 ∧
      (onePageOn 0x1003000).BusErrorAt (onePageOn 0x1003000).activeRoot (onePageOn 0x1003000).arg0 3 ∧
      ∀ p ∈ (onePageOn 0x1003000).tlb, p.1 ≠ (onePageOn 0x1003000).arg0.extractLsb' 12 36 := by
  have h3 : (onePageOn 0x1003000).BusErrorAt 0x1000000 0x8080604123 3 := by
    obtain ⟨h0, h1, h2, h3⟩ := onePageOn_entries 0x1003000
    refine ⟨by omega, ⟨_, h3, by decide +kernel⟩, fun k a hk ha => ?_⟩
    obtain rfl | rfl | rfl : k = 0 ∨ k = 1 ∨ k = 2 := by omega
    · rw [h0] at ha
      obtain rfl := Option.some.inj ha
      decide +kernel
    · rw [h1] at ha
      obtain rfl := Option.some.inj ha
      decide +kernel
    · rw [h2] at ha
      obtain rfl := Option.some.inj ha
      decide +kernel
  exact ⟨by decide, by decide, ⟨by omega, ⟨_, (onePageOn_entries 0).1, by decide +kernel⟩, fun k a hk => by omega⟩, h3, h3,
    fun p hp => by cases hp⟩

/-- The state with memory everywhere but in page `f`. -/
def without (s : State) (f : Nat) : State :=
  { s with cfg := { s.cfg with physMem := [{ base := 0, size := f * 4096 }, { base := (f + 1) * 4096, size := 2 ^ 64 - (f + 1) * 4096 }] } }

theorem memValid_without {s : State} {f : Nat} (hf : f < 4128) {a : Word} (ha : a.toNat % 8 = 0) :
    (without s f).memValid a = true ↔ pageIndex a ≠ f := by
  have := a.isLt
  simp only [State.memValid, without, Config.covers, List.any_cons, List.any_nil, Bool.or_false, Bool.or_eq_true, Bool.and_eq_true,
    decide_eq_true_eq, pageIndex, pageSize]
  omega

theorem inv_without {s : State} (h : s.Inv) (f : Nat) : (without s f).Inv :=
  ⟨h.memCanonical, h.tlbSorted, h.tlbBound, h.tlbPresent, h.rootAligned, h.rootAboveReserved, h.activeRootAligned, h.flagsReserved,
    h.statusLegal, h.res1Low, h.vmmAfterPmm, h.beforePmm, fun hp =>
      have g := h.frames hp
      ⟨g.blocksLow, g.blocksHigh, g.blocksFit, g.reserved, g.counted, g.beyond⟩⟩

/-- Frame number `m` is the first without memory. -/
theorem without_frames {s : State} {m f : Nat} (hF : s.FrameInv) (hb : s.totalPages = 4128) (hf : s.freeList[m]? = some f) :
    (∀ p ∈ (without s f).freeList.take m, (without s f).FrameBacked p) ∧ (without s f).freeList[m]? = some f ∧
      ¬ (without s f).FrameBacked f := by
  have hlt : ∀ p ∈ s.freeList, p < 4128 := fun p hp => hb ▸ (mem_freeList.mp hp).1
  have hf' := hlt f (List.mem_of_getElem? hf)
  have hpage : ∀ p < 4128, ∀ idx, pageIndex (entryAddr (pageAddr p) idx) = p := fun p hp idx => by
    rw [pageIndex_entryAddr _ _ (pageAddr_aligned p), pageIndex_pageAddr hF (by omega)]
  refine ⟨fun p hp idx => ?_, hf, fun h => ?_⟩
  · rw [memValid_without hf' (entryAddr_aligned _ _ (pageAddr_aligned p)), hpage p (hlt p (List.mem_of_mem_take hp))]
    intro e
    exact not_mem_take_freeList hf (e ▸ hp)
  · exact (memValid_without hf' (entryAddr_aligned _ _ (pageAddr_aligned f))).mp (h 0) (hpage f hf' 0)

/-- `VMM_MAP` with the first of three frames absent, with the third, and with the only one. -/
theorem witness_AbsentMemoryUnderAMap :
    ∀ km ∈ [(0, 0), (0, 2), (2, 0)], ∃ (s : State) (f : Nat) (x : Word), s.Inv ∧ (∀ p ∈ s.freeList.take km.2, s.FrameBacked p) ∧
      s.freeList[km.2]? = some f ∧ ¬ s.FrameBacked f ∧ s.flag .vmmReady = true ∧ s.TreeInv ∧ s.PathBacked s.root s.arg0 ∧
      tableAt s.mem s.root s.arg0 km.1 = some x ∧ present (s.mem.readWord (entryAddr x (vidx s.arg0 (levelAt km.1)))) = false ∧
      km.1 + km.2 < 3 := by
  intro km hkm
  have hk : km.1 + km.2 < 3 := by fin_cases hkm <;> decide
  obtain ⟨s, x, h⟩ := ready_at 0x8000000000 (k := km.1) (n := km.2 + 1) (by omega) (by omega)
  have hlen := length_freeList s
  rw [h.free] at hlen
  obtain ⟨f, hf⟩ : ∃ f, s.freeList[km.2]? = some f := ⟨_, List.getElem?_eq_getElem (by omega)⟩
  obtain ⟨h1, h2, h3⟩ := without_frames h.frames h.pages hf
  have hmem := mem_freeList.mp (List.mem_of_getElem? hf)
  refine ⟨without s f, f, x, inv_without h.inv f, h1, h2, h3, h.vmm, treeInv_congr h.tree rfl rfl rfl fun _ h => h, fun n a hn ha => ?_,
    by rw [show (without s f).arg0 = s.arg0 from rfl, h.operand]; exact h.table,
    by rw [show (without s f).arg0 = s.arg0 from rfl, h.operand]; exact h.absent, hk⟩
  obtain ⟨y, hy, rfl⟩ := Option.map_eq_some_iff.mp ha
  obtain ⟨hal, _, _, hu⟩ := h.tree.backed _ n y hn hy
  rw [memValid_without (by rw [← h.pages]; exact hmem.1) (entryAddr_aligned _ _ hal), pageIndex_entryAddr _ _ hal]
  intro e
  rw [e, hmem.2] at hu
  cases hu

/-- `VMM_INIT` with the first frame absent, with the first leaf table's, and with the eleventh. -/
theorem witness_AbsentMemoryUnderVmmInit :
    ∀ m ∈ [0, 3, 10], ∃ (s : State) (f : Nat), s.Inv ∧ (∀ p ∈ s.freeList.take m, s.FrameBacked p) ∧ s.freeList[m]? = some f ∧
      ¬ s.FrameBacked f ∧ s.flag .pmmReady = true ∧ s.flag .vmmReady = false ∧ m < 11 := by
  intro m hm
  have hlt : m < 11 := by fin_cases hm <;> decide
  have hlen := length_freeList (pool 11)
  rw [pool_freePages (by omega)] at hlen
  obtain ⟨f, hf⟩ : ∃ f, (pool 11).freeList[m]? = some f := ⟨_, List.getElem?_eq_getElem (by omega)⟩
  obtain ⟨h1, h2, h3⟩ := without_frames (pool_frames 11) (pool_totalPages 11) hf
  exact ⟨without (pool 11) f, f, inv_without (pool_inv 11) f, h1, h2, h3, pool_ready 11,
    show (1#32).getLsbD 1 = false by decide, hlt⟩

/-- The three tables there; and absent below an entry that was written 0. -/
theorem witness_VmmUnmapClearsOneEntry :
    onePage.flag .vmmReady = true ∧ onePage.root.toNat % 4096 = 0 ∧ (∀ v, onePage.PathBacked onePage.root v) ∧
      tableAt onePage.mem onePage.root 0x8080604123 3 = some 0x1003000 ∧
      tableAt (onePage.mem.writeWord 0x1000010 0) onePage.root 0x10080604000 3 = none :=
  ⟨by decide, onePage_root.2, pathBacked_default rfl onePage_root.2, onePage_table, by decide +kernel⟩

theorem witness_VmmMapOverwritesTheLeaf :
    onePage.flag .vmmReady = true ∧ onePage.root.toNat % 4096 = 0 ∧ onePage.PathBacked onePage.root 0x8080604123 ∧
      tableAt onePage.mem onePage.root 0x8080604123 3 = some 0x1003000 :=
  ⟨by decide, onePage_root.2, pathBacked_default rfl onePage_root.2 _, onePage_table⟩

/-- The path ends at the root with three frames left, and at the last level with one. -/
theorem witness_VmmMapCreatesTheMissingTables :
    (∃ s x, Ready 0xFFFF800000405000 0 3 x s ∧ s.RangeBacked ∧ s.flag .vmmReady = true ∧
      present (s.mem.readWord (entryAddr x (vidx s.arg0 (levelAt 0)))) = false ∧ 3 - 0 ≤ s.freePages) ∧
    ∃ s x, Ready 0xFFFF800000405000 2 1 x s ∧ s.RangeBacked ∧ s.flag .vmmReady = true ∧
      present (s.mem.readWord (entryAddr x (vidx s.arg0 (levelAt 2)))) = false ∧ 3 - 2 ≤ s.freePages := by
  obtain ⟨s, x, h⟩ := ready_at 0xFFFF800000405000 (k := 0) (n := 3) (by omega) (by omega)
  obtain ⟨s', x', h'⟩ := ready_at 0xFFFF800000405000 (k := 2) (n := 1) (by omega) (by omega)
  exact ⟨⟨s, x, h, h.backed, h.vmm, by rw [h.operand]; exact h.absent, by rw [h.free]⟩,
    s', x', h', h'.backed, h'.vmm, by rw [h'.operand]; exact h'.absent, by rw [h'.free]⟩

/-- Two frames where three are wanted (V-PTW-10), and none where one is. -/
theorem witness_VmmMapThatRunsOutKeepsItsTables :
    (∃ s x, Ready 0x8000000000 0 2 x s ∧ s.RangeBacked ∧ s.flag .vmmReady = true ∧
      present (s.mem.readWord (entryAddr x (vidx s.arg0 (levelAt 0)))) = false ∧ s.freePages < 3 - 0) ∧
    ∃ s x, Ready 0x8000000000 2 0 x s ∧ s.RangeBacked ∧ s.flag .vmmReady = true ∧
      present (s.mem.readWord (entryAddr x (vidx s.arg0 (levelAt 2)))) = false ∧ s.freePages < 3 - 2 := by
  obtain ⟨s, x, h⟩ := ready_at 0x8000000000 (k := 0) (n := 2) (by omega) (by omega)
  obtain ⟨s', x', h'⟩ := ready_at 0x8000000000 (k := 2) (n := 0) (by omega) (by omega)
  exact ⟨⟨s, x, h, h.backed, h.vmm, by rw [h.operand]; exact h.absent, by rw [h.free]; omega⟩,
    s', x', h', h'.backed, h'.vmm, by rw [h'.operand]; exact h'.absent, by rw [h'.free]; omega⟩

/-- A `VMM_MAP` of a page whose three tables are there runs. -/
theorem map_runs {s : State} {t : Word} (hT : s.TreeInv) (hB : s.RangeBacked) (hv : s.flag .vmmReady = true)
    (ht : tableAt s.mem s.root s.arg0 3 = some t) :
    ∃ u, exec .vmmMap s = .next u ∧ u.status = 0 ∧ u.TreeInv ∧ u.root = s.root ∧ u.cfg = s.cfg ∧ u.flags = s.flags ∧
      u.bitmap = s.bitmap ∧ u.totalBlocks = s.totalBlocks := by
  refine ⟨State.done .ok 0 0 (tlbInvalidate (vpn s.arg0) (s.storeWord (entryAddr t (vidx s.arg0 .pt)) (s.arg1 ||| s.arg2))), ?_,
    rfl, treeInv_congr (treeInv_leafWrite hT ht _) rfl rfl rfl fun _ h => h, rfl, rfl, rfl, rfl, rfl⟩
  show execVmmMap s = _
  rw [execVmmMap, hv, ptwMap_present hT (pathBacked_tree hT hB _) ht]
  rfl

theorem Ready.mapRuns {v t : Word} {n : Nat} {s : State} (h : Ready v 3 n t s) : ∃ u, exec .vmmMap s = .next u ∧ u.status = 0 := by
  obtain ⟨u, h1, h2, _⟩ := map_runs h.tree h.backed h.vmm (by rw [h.operand]; exact h.table)
  exact ⟨u, h1, h2⟩

/-- A `PMM_FREE` of a page in range runs. -/
theorem free_runs {s : State} {f : Nat} (hp : s.flag .pmmReady = true) (ha : pageIndex s.arg0 = f) (h1 : 4096 ≤ f) (h2 : f < s.totalPages) :
    exec .pmmFree s = .next ((s.releasePages f 1).done .ok 0 0) := by
  show execPmmFree s = _
  rw [execPmmFree, hp, ha, if_neg (by simp), if_neg (by rw [show reservedPages = 4096 from rfl]; omega), finish_ok]
  rfl

/-- A free page holds no table of the tree. -/
theorem spares_free {s : State} {f : Nat} (hT : s.TreeInv) (hf : s.bitmap.used f = false) (ha : pageIndex s.arg0 = f) :
    s.SparesTables .pmmFree := by
  intro v n x hn hx hfree
  have hu := (hT.backed v n x hn hx).2.2.2
  rw [show pageIndex x = pageIndex s.arg0 from hfree, ha, hf] at hu
  cases hu

/-- `VMM_INIT` with exactly eleven frames left (V-PTW-12). -/
theorem vmmInit_runs :
    ∃ u, exec .vmmInit (pool 11) = .next u ∧ u.status = 0 ∧ u.bitmap.used (pageIndex 0) = (pool 11).bitmap.used (pageIndex 0) := by
  obtain ⟨i, hi, hf, hlow⟩ := exists_lowest_of_freePages (s := pool 11) (by rw [pool_freePages (by omega)]; omega)
  obtain ⟨t, ht, hm⟩ := (identityMap_ends (m := 11) (le_refl _) (by rw [pool_freePages (by omega)])
    (fun p hp => frameBacked_of_range (pool_frames 11) (pool_backed 11) (mem_freeList.mp (List.mem_of_mem_take hp)).1)
    (idMapped_zero (pool_frames 11) hi hf hlow) (by decide) (by omega)).done rfl
  refine ⟨State.done .ok (pageAddr i) 0 (t.raiseFlag .vmmReady), ?_, rfl, ?_⟩
  · rw [vmmInit_run (pool_frames 11) (frameBacked_of_range (pool_frames 11) (pool_backed 11) hi) (pool_ready 11) rfl hi hf hlow]
    rw [show List.range' 0 idmapPages = List.range' 0 (4096 - 0) from rfl, ht]
    rfl
  · show t.bitmap.used (pageIndex 0) = _
    have h := (pool_frames 11).reserved (pageIndex 0) (by decide)
    rw [h]
    exact hm.since.used _ h

/-- A byte beside the leaf's word, and the editors run. -/
theorem witness_EditorsStoreOnlyTheirEntriesAndFrames :
    (∃ t, exec .vmmUnmap onePageCached = .next t ∧ t.status = 0) ∧ (∃ t, exec .vmmMap onePageCached = .next t ∧ t.status = 0) ∧
      onePageCached.Inv ∧
      (∀ u s', descend onePageCached.arg0 nonLeafLevels onePageCached.root onePageCached = .ok (some u) s' →
        OutsideWord (entryAddr u (vidx onePageCached.arg0 .pt)) 0x1003028) ∧
      (∀ k a, k < 3 → entryOnPath onePageCached.mem onePageCached.root onePageCached.arg0 k = some a →
        present (onePageCached.mem.readWord a) = false → OutsideWord a 0x1003028) ∧
      (∀ u s', descendCreating onePageCached.arg0 nonLeafLevels onePageCached.root onePageCached = .ok (some u) s' →
        OutsideWord (entryAddr u (vidx onePageCached.arg0 .pt)) 0x1003028) ∧
      ∃ t, exec .vmmInit (pool 11) = .next t ∧ t.bitmap.used (pageIndex 0) = (pool 11).bitmap.used (pageIndex 0) := by
  have hd : descend onePageCached.arg0 nonLeafLevels onePageCached.root onePageCached = .ok (some 0x1003000) onePageCached := by
    have := descend_backed (s := onePageCached) (root := onePageCached.root) (v := onePageCached.arg0) onePage_root.2
      (pathBacked_default (s := onePageCached) rfl onePage_root.2 _)
    rwa [show tableAt onePageCached.mem onePageCached.root onePageCached.arg0 3 = some 0x1003000 from onePage_table] at this
  have hout : OutsideWord (entryAddr 0x1003000 (vidx onePageCached.arg0 .pt)) 0x1003028 := by
    show 8 ≤ _
    decide
  refine ⟨next_of_statusOf (by decide +kernel), next_of_statusOf (by decide +kernel), onePageCached_inv, fun u s' h => ?_,
    fun k a hk ha hp => ?_, fun u s' h => ?_, ?_⟩
  · rw [hd] at h
    rw [← Option.some.inj (CmdResult.ok.inj h).1]
    exact hout
  · obtain ⟨h0, h1, h2, _⟩ := onePageOn_entries 0
    exfalso
    obtain rfl | rfl | rfl : k = 0 ∨ k = 1 ∨ k = 2 := by omega
    · obtain rfl := Option.some.inj (h0.symm.trans ha)
      exact absurd hp (by decide +kernel)
    · obtain rfl := Option.some.inj (h1.symm.trans ha)
      exact absurd hp (by decide +kernel)
    · obtain rfl := Option.some.inj (h2.symm.trans ha)
      exact absurd hp (by decide +kernel)
  · rw [descendCreating_present hd] at h
    rw [← Option.some.inj (CmdResult.ok.inj h).1]
    exact hout
  · obtain ⟨u, h1, _, h2⟩ := vmmInit_runs
    exact ⟨u, h1, h2⟩

theorem witness_VmmInitBuildsTheIdentityMap :
    (pool 11).Inv ∧ (pool 11).flag .pmmReady = true ∧ (pool 11).flag .vmmReady = false ∧ (pool 11).RangeBacked ∧ 11 ≤ (pool 11).freePages :=
  ⟨pool_inv 11, rfl, rfl, pool_backed 11, by rw [pool_freePages (by omega)]⟩

/-- No frame; one; as many as reach the first leaf table, and one less; ten. -/
theorem witness_VmmInitThatRunsOut :
    ∀ n ∈ [0, 1, 3, 4, 10], (pool n).Inv ∧ (pool n).flag .pmmReady = true ∧ (pool n).flag .vmmReady = false ∧ (pool n).RangeBacked ∧
      (pool n).freePages = n := by
  intro n hn
  have h : n ≤ 32 := by fin_cases hn <;> omega
  exact ⟨pool_inv n, pool_ready n, by rw [State.flag, pool_flags]; decide, pool_backed n, pool_freePages h⟩

theorem witness_VmmSwitch : (0x1000000#64).extractLsb' 0 12 = 0#12 ∧ (0x1000800#64).extractLsb' 0 12 ≠ 0#12 := by decide

/-- An address that differs in bits 63 to 48 only, and one that differs in bits 11 to 0 too. -/
theorem witness_UnusedAddressBitsAreIgnored :
    (∃ t, exec .vmmGetpa onePageCached = .next t ∧ t.status = 0) ∧
      (0xFFFF008080604123#64).extractLsb' 0 48 = onePageCached.arg0.extractLsb' 0 48 ∧
      (∃ t, exec .vmmUnmap onePageCached = .next t ∧ t.status = 0) ∧
      (0xFFFF008080604FFF#64).extractLsb' 12 36 = onePageCached.arg0.extractLsb' 12 36 :=
  ⟨next_of_statusOf (by decide +kernel), by decide, next_of_statusOf (by decide +kernel), by decide⟩

theorem witness_WhichRootEachCommandUses :
    (∃ t, exec .vmmMap onePageCached = .next t ∧ t.status = 0) ∧ (∃ t, exec .vmmGetpa onePageCached = .next t ∧ t.status = 0) ∧
      ∃ t, exec .tlbXlate { onePage with arg0 := 0x8080604123 } = .next t ∧ t.status = 0 :=
  ⟨next_of_statusOf (by decide +kernel), next_of_statusOf (by decide +kernel), next_of_statusOf (by decide +kernel)⟩

/-- A map on a tree of four tables; and a free, of a page that holds none of them. -/
theorem witness_CommandsKeepTheTree :
    (∃ s t, s.Inv ∧ s.flag .vmmReady = true ∧ s.TreeInv ∧ exec .vmmMap s = .next t ∧ t.status = 0 ∧ s.SparesTables .vmmMap) ∧
    ∃ s t, s.Inv ∧ s.flag .vmmReady = true ∧ s.TreeInv ∧ exec .pmmFree s = .next t ∧ t.status = 0 ∧ s.SparesTables .pmmFree := by
  constructor
  · obtain ⟨s, x, h⟩ := ready_at 0xFFFF800000405000 (k := 3) (n := 0) (by omega) (by omega)
    obtain ⟨t, h1, h2⟩ := h.mapRuns
    exact ⟨s, t, h.inv, h.vmm, h.tree, h1, h2, fun _ _ _ _ _ h => h⟩
  · obtain ⟨s, x, h⟩ := ready_at 0x101F000 (k := 3) (n := 1) (by omega) (by omega)
    obtain ⟨f, hf, hu, hp⟩ := h.freePage
    have hr : s.flag .pmmReady = true := by rw [State.flag, h.flags]; rfl
    have ha : pageIndex ({ s with arg0 := pageAddr f } : State).arg0 = f := hp
    exact ⟨{ s with arg0 := pageAddr f }, _,
      ⟨h.inv.memCanonical, h.inv.tlbSorted, h.inv.tlbBound, h.inv.tlbPresent, h.inv.rootAligned, h.inv.rootAboveReserved,
        h.inv.activeRootAligned, h.inv.flagsReserved, h.inv.statusLegal, h.inv.res1Low, h.inv.vmmAfterPmm, h.inv.beforePmm,
        fun _ => frameInv_congr h.frames rfl rfl rfl rfl⟩,
      h.vmm, treeInv_congr h.tree rfl rfl rfl fun _ h => h,
      free_runs (s := { s with arg0 := pageAddr f }) hr ha (reserved_le_of_free h.frames hu) hf, rfl,
      spares_free (s := { s with arg0 := pageAddr f }) (treeInv_congr h.tree rfl rfl rfl fun _ h => h) hu ha⟩

/-- The same, and the page was not mapped before. -/
theorem witness_EntriesChangeOnlyUnderMapAndUnmap :
    ∃ s t, s.Inv ∧ s.flag .vmmReady = true ∧ s.TreeInv ∧ exec .vmmMap s = .next t ∧ t.status = 0 ∧
      leafEntry s.mem s.root s.arg0 = none := by
  obtain ⟨s, x, h⟩ := ready_at 0xFFFF800000405000 (k := 3) (n := 0) (by omega) (by omega)
  obtain ⟨t, h1, h2⟩ := h.mapRuns
  refine ⟨s, t, h.inv, h.vmm, h.tree, h1, h2, ?_⟩
  rw [h.operand, leafEntry_of_table h.table, h.empty]
  rfl

/-- A map, then a free of a page that holds no table and an unmap of another page; and an unmap. -/
theorem witness_MapThenQuery :
    (∃ s t t' a, s.Inv ∧ s.flag .vmmReady = true ∧ s.TreeInv ∧ s.RangeBacked ∧
      transact { instr := .vmmMap, args := [0xFFFF800000405000, 0x2000000, 7] } s = .next t ∧ t.status = 0 ∧
      sparesTables [{ instr := .pmmFree, args := [a] }, { instr := .vmmUnmap, args := [0x1000] }] t ∧
      runProgram [{ instr := .pmmFree, args := [a] }, { instr := .vmmUnmap, args := [0x1000] }] t = .next t') ∧
    (0x2000000#64).extractLsb' 0 12 = 0#12 ∧ (7#64).getLsbD 0 = true ∧ (7#64).extractLsb' 12 52 = 0#52 ∧
    (0x0000800000405123#64).extractLsb' 12 36 = (0xFFFF800000405000#64).extractLsb' 12 36 ∧
    (0x1000#64).extractLsb' 12 36 ≠ (0xFFFF800000405000#64).extractLsb' 12 36 ∧
    ∃ s t, s.Inv ∧ s.flag .vmmReady = true ∧ s.TreeInv ∧ s.RangeBacked ∧
      transact { instr := .vmmUnmap, args := [0xFFFF800000405000] } s = .next t := by
  obtain ⟨s, x, h⟩ := ready_at 0xFFFF800000405000 (k := 3) (n := 1) (by omega) (by omega)
  have unmaps : ∀ (u : State) (v : Word), u.cfg = Config.default → u.root.toNat % 4096 = 0 → u.flag .vmmReady = true →
      ∃ w, transact { instr := .vmmUnmap, args := [v] } u = .next w := by
    intro u v hc hr hv
    show ∃ w, execVmmUnmap { u with arg0 := v } = .next w
    have hd := descend_backed (s := { u with arg0 := v }) hr (pathBacked_default (s := { u with arg0 := v }) hc hr v)
    rw [execVmmUnmap, show State.flag .vmmReady { u with arg0 := v } = true from hv]
    simp only [Bool.not_true, Bool.false_eq_true, ↓reduceIte, hd, conclude_ok]
    cases ht : tableAt u.mem u.root v 3 with
    | none => exact ⟨_, rfl⟩
    | some y =>
      have ha := entryAddr_aligned y (vidx v .pt) (tableAt_aligned hr (by omega) ht)
      simp only [memWrite_of_valid (s := { u with arg0 := v }) ha (memValid_default (s := { u with arg0 := v }) hc ha), conclude_ok]
      exact ⟨_, rfl⟩
  refine ⟨?_, by decide, by decide, by decide, by decide, by decide, ?_⟩
  · obtain ⟨t, h1, h2, htree, hroot, hcfg, hflags, hbits, hblocks⟩ :=
      map_runs (s := s.writeArgs [0xFFFF800000405000, 0x2000000, 7]) (treeInv_congr h.tree rfl rfl rfl fun _ h => h)
        (fun _ ha _ => memValid_default h.cfg ha) h.vmm h.table
    obtain ⟨f, hf, hu, hp⟩ := h.freePage
    have hu' : t.bitmap.used f = false := by rw [hbits]; exact hu
    have ha : pageIndex (t.writeArgs [pageAddr f]).arg0 = f := hp
    have hpmm : (t.writeArgs [pageAddr f]).flag .pmmReady = true := by
      show t.flags.getLsbD 0 = true
      rw [hflags, show (s.writeArgs [0xFFFF800000405000, 0x2000000, 7]).flags = s.flags from rfl, h.flags]
      rfl
    have hfree := free_runs hpmm ha (reserved_le_of_free h.frames hu)
      (by rw [show (t.writeArgs [pageAddr f]).totalPages = s.totalPages from totalPages_congr hblocks]; exact hf)
    obtain ⟨w, hw⟩ := unmaps (((t.writeArgs [pageAddr f]).releasePages f 1).done .ok 0 0) 0x1000 (hcfg.trans h.cfg)
      (by show t.root.toNat % 4096 = 0; rw [hroot]; exact h.inv.rootAligned)
      (by show (Status.ok.mark t.flags).getLsbD 1 = true; rw [hflags]; exact h.vmm)
    refine ⟨s, t, w, pageAddr f, h.inv, h.vmm, h.tree, h.backed, h1, h2, ?_, ?_⟩
    · exact fun u _ => ⟨fun _ => spares_free (s := t.writeArgs [pageAddr f]) (treeInv_congr htree rfl rfl rfl fun _ h => h) hu' ha,
        fun v _ => ⟨fun _ _ _ _ _ _ hx => hx, trivial⟩⟩
    · rw [runProgram, show transact { instr := .pmmFree, args := [pageAddr f] } t = _ from hfree]
      show thenRun (transact { instr := .vmmUnmap, args := [0x1000] } _) _ = _
      rw [hw]
      rfl
  · obtain ⟨w, hw⟩ := unmaps s 0xFFFF800000405000 h.cfg h.inv.rootAligned h.vmm
    exact ⟨s, w, h.inv, h.vmm, h.tree, h.backed, hw⟩

/-! ## Witnesses: the translation cache -/

theorem witness_TlbXlateHit :
    onePageCached.Inv ∧ onePageCached.flag .activeValid = true ∧
      (onePageCached.arg0.extractLsb' 12 36, 0x2000007) ∈ onePageCached.tlb :=
  ⟨onePageCached_inv, by decide, List.mem_singleton.mpr (by decide)⟩

/-- A page mapped and one absent, nothing cached. -/
theorem witness_TlbXlateMiss :
    onePage.flag .activeValid = true ∧ onePage.activeRoot.toNat % 4096 = 0 ∧ onePage.PathBacked onePage.activeRoot 0x8080604123 ∧
      (∀ p ∈ onePage.tlb, p.1 ≠ (0x8080604123#64).extractLsb' 12 36) ∧
      leafEntry onePage.mem onePage.activeRoot 0x8080604123 = some 0x2000007 ∧
      leafEntry (onePage.mem.writeWord 0x1000010 0) onePage.activeRoot 0x10080604000 = none :=
  ⟨by decide, onePage_root.2, pathBacked_default rfl onePage_root.2 _, (fun p hp => by cases hp), onePage_leaf, by decide +kernel⟩

/-- Room for one of two pairs: the old one is kept, or the new one; an old pair of the filled page is none of those allowed. -/
theorem witness_AFillCanLeaveEveryAllowedSet :
    (([(0x1, 0x1003), (0x500, 0x3)] : Tlb).map Prod.fst).Pairwise (fun a b => a.toNat < b.toNat) ∧
      ∀ kept ∈ [([(0x1, 0x1003)] : Tlb), [(0x500, 0x500003)], []],
        (kept.map Prod.fst).Pairwise (fun a b => a.toNat < b.toNat) ∧ kept.length ≤ 1 ∧
          ∀ p ∈ kept, p = (0x500, 0x500003) ∨ (p ∈ ([(0x1, 0x1003), (0x500, 0x3)] : Tlb) ∧ p.1 ≠ 0x500) := by
  refine ⟨by decide, fun kept hk => ?_⟩
  rcases List.mem_cons.mp hk with rfl | hk
  · exact ⟨by decide, by decide, fun p hp => .inr (by rw [List.mem_singleton.mp hp]; exact ⟨List.mem_cons_self, by decide⟩)⟩
  rcases List.mem_cons.mp hk with rfl | hk
  · exact ⟨by decide, by decide, fun p hp => .inl (List.mem_singleton.mp hp)⟩
  · rw [List.mem_singleton.mp hk]
    exact ⟨.nil, by decide, fun p hp => by cases hp⟩

theorem witness_AfterInvalidationTranslationWalks :
    onePageCached.flag .activeValid = true ∧ onePageCached.activeRoot.toNat % 4096 = 0 ∧
      onePageCached.PathBacked onePageCached.activeRoot 0x8080604123 ∧
      leafEntry onePageCached.mem onePageCached.activeRoot 0x8080604123 = some 0x2000007 ∧
      leafEntry (onePage.mem.writeWord 0x1000010 0) onePageCached.activeRoot 0x10080604000 = none :=
  ⟨by decide, onePage_root.2, pathBacked_default rfl onePage_root.2 _, onePage_leaf, by decide +kernel⟩

/-- A block that was only given an `ACTIVE_ROOT`: no PFA, no `VMM_INIT`. -/
def switched (cfg : Config) (c : Tlb) : State :=
  { State.reset with
    flags := 4, activeRoot := 0x1000000, mem := onePage.mem, arg0 := 0x8080604123, cfg, tlb := c }

theorem switched_inv (cfg : Config) (c : Tlb) (hs : (c.map Prod.fst).Pairwise fun a b => a.toNat < b.toNat)
    (hl : c.length ≤ cfg.tlbEntries) (hp : ∀ p ∈ c, present p.2 = true) : (switched cfg c).Inv where
  memCanonical := onePage_mem
  tlbSorted := hs
  tlbBound := hl
  tlbPresent := hp
  rootAligned := rfl
  rootAboveReserved h := absurd rfl h
  activeRootAligned := show (0x1000000#64).toNat % 4096 = 0 by decide
  flagsReserved := show (4#32).toNat < 16 by decide
  statusLegal := show (0#32).toNat ≤ 6 by decide
  res1Low := show (0#64).toNat < 4096 by decide
  vmmAfterPmm h := absurd (show (4#32).getLsbD 1 = true from h) (by decide)
  beforePmm _ := ⟨rfl, rfl, rfl⟩
  frames h := absurd (show (4#32).getLsbD 0 = true from h) (by decide)

theorem witness_WithoutStorageTheCacheStaysEmpty :
    (switched { Config.default with tlbEntries := 0 } []).Inv ∧ (switched { Config.default with tlbEntries := 0 } []).cfg.wf = true ∧
      ∃ t, exec .tlbXlate (switched { Config.default with tlbEntries := 0 } []) = .next t ∧ t.status = 0 :=
  ⟨switched_inv _ _ .nil (Nat.zero_le _) (fun p hp => by cases hp), rfl, next_of_statusOf (by decide +kernel)⟩

/-- The operand's page mapped in the leaf table `x` and its pair cached. -/
def leafCached (s : State) (x : Word) : State :=
  { s.storeWord (entryAddr x (vidx s.arg0 .pt)) 0x2000007 with tlb := [(vpn s.arg0, 0x2000007)] }

theorem leafCached_tree {v x : Word} {n : Nat} {s : State} (h : Ready v 3 n x s) : (leafCached s x).TreeInv :=
  treeInv_congr (treeInv_leafWrite h.tree (v := s.arg0) (by rw [h.operand]; exact h.table) 0x2000007) rfl rfl rfl fun _ h => h

theorem leafCached_inv {v x : Word} {n : Nat} {s : State} (h : Ready v 3 n x s) : (leafCached s x).Inv where
  memCanonical := wf_writeWord _ _ _ h.inv.memCanonical
  tlbSorted := List.pairwise_singleton _ _
  tlbBound := by
    show 1 ≤ s.cfg.tlbEntries
    rw [h.cfg]
    decide
  tlbPresent p hp := by
    rw [List.mem_singleton.mp hp]
    show present 0x2000007 = true
    decide
  rootAligned := h.inv.rootAligned
  rootAboveReserved := h.inv.rootAboveReserved
  activeRootAligned := h.inv.activeRootAligned
  flagsReserved := h.inv.flagsReserved
  statusLegal := h.inv.statusLegal
  res1Low := h.inv.res1Low
  vmmAfterPmm := h.inv.vmmAfterPmm
  beforePmm hp := absurd (show s.flag .pmmReady = false from hp) (by rw [State.flag, h.flags]; decide)
  frames _ := frameInv_congr h.frames rfl rfl rfl rfl

theorem leafCached_coherent {v x : Word} {n : Nat} {s : State} (h : Ready v 3 n x s) : (leafCached s x).Coherent := by
  intro p hp
  rw [List.mem_singleton.mp hp]
  have := leafEntry_leafWrite h.tree (v := s.arg0) (by rw [h.operand]; exact h.table) 0x2000007 (pageBase (vpn s.arg0))
  rw [vpn_pageBase, if_pos rfl] at this
  show leafEntry (s.storeWord _ _).mem s.activeRoot _ = _
  rw [h.active, this]
  exact if_pos (by decide)

/-- A cached page of the tree both registers name, mapped anew; and, before `VMM_INIT`, a cached page of a tree the host built. -/
theorem witness_CommandsKeepTheCacheCoherent :
    (∃ s t, s.Inv ∧ s.flag .vmmReady = true ∧ s.TreeInv ∧ s.SameOrApart ∧ s.ActiveGuarded ∧ s.Coherent ∧ s.tlb.length = 1 ∧
      exec .vmmMap s = .next t ∧ t.status = 0) ∧
    ∃ s t, s.Inv ∧ s.flag .vmmReady = false ∧ s.ActiveGuarded ∧ s.Coherent ∧ s.tlb.length = 1 ∧ exec .tlbXlate s = .next t ∧
      t.status = 0 := by
  constructor
  · obtain ⟨s, x, h⟩ := ready_at 0xFFFF800000405000 (k := 3) (n := 0) (by omega) (by omega)
    have hT := leafCached_tree h
    have ht : tableAt s.mem s.root s.arg0 3 = some x := by
      rw [h.operand]
      exact h.table
    obtain ⟨u, h1, h2, _⟩ := map_runs (s := leafCached s x) hT (fun _ ha _ => memValid_default h.cfg ha) h.vmm
      ((tableAt_leafWrite h.tree ht _ (by omega)).trans ht)
    refine ⟨leafCached s x, u, leafCached_inv h, h.vmm, hT, .inl h.active, fun v n t hn ht => ?_, leafCached_coherent h, rfl, h1, h2⟩
    rw [show (leafCached s x).activeRoot = (leafCached s x).root from h.active] at ht
    exact .inl (hT.backed v n t hn ht).2.2.2
  · obtain ⟨t, h1, h2⟩ := next_of_statusOf (r := exec .tlbXlate (switched Config.default [(0x8080604, 0x2000007)])) (st := 0)
      (by decide +kernel)
    refine ⟨_, t, switched_inv Config.default [(0x8080604, 0x2000007)] (List.pairwise_singleton _ _) (by decide) fun p hp => ?_,
      by decide,
      fun v n t _ _ => .inr (Nat.zero_le _), onePageCached_coherent, rfl, h1, h2⟩
    rw [List.mem_singleton.mp hp]
    decide

/-- A page cached and mapped; the walk's four words have memory behind them. -/
theorem witness_CoherentTranslationIsTheWalk :
    onePageCached.Inv ∧ onePageCached.Coherent ∧ onePageCached.flag .activeValid = true ∧
      onePageCached.PathBacked onePageCached.activeRoot onePageCached.arg0 ∧
      leafEntry onePageCached.mem onePageCached.activeRoot onePageCached.arg0 = some 0x2000007 :=
  ⟨onePageCached_inv, onePageCached_coherent, by decide, pathBacked_default rfl onePage_root.2 _, onePage_leaf⟩

/-! ## Witnesses: the whole machine -/

theorem witness_TlbFlushEmptiesTheCache :
    onePageCached.Inv ∧ onePageCached.flag .activeValid = true ∧ (pool 1).Inv ∧ (pool 1).flag .activeValid = false :=
  ⟨onePageCached_inv, by decide, pool_inv 1, by rw [State.flag, pool_flags]; decide⟩

/-- The smallest memory the boot sequence fits in: 129 blocks. -/
theorem witness_BootGivesTheIdentityTranslation :
    State.reset.cfg.wf = true ∧ State.reset.mem.wf ∧ hostAccess .reset State.reset = .next State.reset ∧
      129 ≤ min ((0x1020000#64).toNat / 131072) State.reset.cfg.maxBlocks ∧
      ∀ a : Word, a.toNat % 8 = 0 → a.toNat < (0x1020000#64).toNat → State.reset.memValid a = true :=
  ⟨rfl, wf_reset, rfl, by decide, fun _ ha _ => memValid_default rfl ha⟩

/-- A state in which the host is about to give `PMM_ALLOC`, with one frame left. -/
def aboutToAlloc : State :=
  { pool 1 with hostScript := [.regWrite 0x00 .w32 0x11] }

theorem witness_EveryStepKeepsTheInvariant :
    aboutToAlloc.Inv ∧ aboutToAlloc.cfg.wf = true ∧ ∃ t, step aboutToAlloc = .next t ∧ t.status = 0 := by
  have h := pool_inv 1
  exact ⟨⟨h.memCanonical, h.tlbSorted, h.tlbBound, h.tlbPresent, h.rootAligned, h.rootAboveReserved, h.activeRootAligned,
    h.flagsReserved, h.statusLegal, h.res1Low, fun _ => pool_ready 1, fun hp => absurd ((pool_ready 1).symm.trans hp) (by decide),
    fun _ => frameInv_congr (pool_frames 1) rfl rfl rfl rfl⟩, rfl, next_of_statusOf (by decide +kernel)⟩

/-- A step the model refuses: a write of half a register. -/
theorem witness_EveryStepIsSafe :
    aboutToAlloc.Inv ∧ step { State.reset with hostScript := [.regWrite 0x08 .w32 0] } = .refused (.wrongRegisterWidth .arg0 .w32) :=
  ⟨witness_EveryStepKeepsTheInvariant.1, rfl⟩

end Sys2Proof.Tests
end

/-! SUPPORT. The state invariant under each update a command or the host makes; every command and every step keeps it (R24, R25, R29 to
R32, R181). -/

namespace Sys2Proof.Machine

/-! ## Named bits of `FLAGS` -/

/-- No two named bits stand in one place (R25). -/
theorem position_inj {b c : FlagBit} : b.position = c.position ↔ b = c := by
  cases b <;> cases c <;> decide

/-- `done` leaves every named bit but `ERR` as it was (R25, R221). -/
theorem flag_done {b : FlagBit} (hb : b ≠ .err) (st : Status) (r0 r1 : Word) (s : State) : (s.done st r0 r1).flag b = s.flag b := by
  have h3 : b.position ≠ 3 := mt (position_inj (c := .err)).mp hb
  rw [State.flag, done_flags, getLsbD_mark, decide_eq_false h3, Bool.and_false, Bool.or_false, State.flag]

/-- Raising one bit leaves the other named bits as they were (R25). -/
theorem flag_raiseFlag (b c : FlagBit) (s : State) : (s.raiseFlag b).flag c = (s.flag c || decide (c = b)) := by
  rw [State.flag, raiseFlag_flags, getLsbD_raise, decide_eq_decide.mpr position_inj, State.flag]

theorem raise_lt (b : FlagBit) {f : Word32} (h : f.toNat < 16) : (b.raise f).toNat < 16 := by
  have hb : (1 <<< b.position : Word32).toNat < 2 ^ 4 := by cases b <;> decide
  rw [FlagBit.raise, BitVec.toNat_or]
  exact Nat.or_lt_two_pow (n := 4) h hb

theorem mark_lt (st : Status) {f : Word32} (h : f.toNat < 16) : (st.mark f).toNat < 16 := by
  unfold Status.mark
  split
  · exact raise_lt _ h
  · exact h

/-- The seven codes are 0 to 6 (R220). -/
theorem code_le (st : Status) : st.code.toNat ≤ 6 := by
  cases st <;> decide

/-! ## The invariant, update by update -/

/-- The operands, the host's script and its data are no part of the invariant. -/
theorem inv_host {s : State} (h : s.Inv) (a0 a1 a2 : Word) (script : List HostAccess) (d : Word) :
    State.Inv { s with arg0 := a0, arg1 := a1, arg2 := a2, hostScript := script, hostData := d } :=
  { h with frames := fun hp => frameInv_congr (h.frames hp) rfl rfl rfl rfl }

theorem inv_done {s : State} (h : s.Inv) (st : Status) (r0 : Word) {r1 : Word} (h1 : r1.toNat < 4096) : (s.done st r0 r1).Inv where
  __ := h
  flagsReserved := mark_lt st h.flagsReserved
  statusLegal := code_le st
  res1Low := h1
  vmmAfterPmm hv := by
    rw [flag_done (by decide)] at hv ⊢
    exact h.vmmAfterPmm hv
  beforePmm hp := h.beforePmm (by rwa [flag_done (by decide)] at hp)
  frames hp := frameInv_congr (h.frames (by rwa [flag_done (by decide)] at hp)) rfl rfl rfl rfl

/-- Memory may become any memory in its canonical form. -/
theorem inv_mem {s : State} (h : s.Inv) {m : Memory} (hm : m.wf) : State.Inv { s with mem := m } :=
  { h with memCanonical := hm, frames := fun hp => frameInv_congr (h.frames hp) rfl rfl rfl rfl }

/-- The cache may become any list of at most `TLB_ENTRIES` present pairs in order (R32, R181). -/
theorem inv_tlb {s : State} (h : s.Inv) {c : Tlb} (d : Nat) (hs : (c.map Prod.fst).Pairwise fun a b => a.toNat < b.toNat)
    (hl : c.length ≤ s.cfg.tlbEntries) (hp : ∀ p ∈ c, present p.2 = true) : State.Inv { s with tlb := c, tlbDraws := d } :=
  { h with
    tlbSorted := hs
    tlbBound := hl
    tlbPresent := hp
    frames := fun hp => frameInv_congr (h.frames hp) rfl rfl rfl rfl }

theorem inv_tlbInvalidate {s : State} (h : s.Inv) (n : Vpn) : (tlbInvalidate n s).Inv :=
  inv_tlb h _ (sorted_remove n h.tlbSorted) ((length_remove_le _ n).trans h.tlbBound) fun p hp =>
    h.tlbPresent p (mem_remove.mp hp).1

theorem inv_tlbFill {s : State} (h : s.Inv) (n : Vpn) {e : Word} (he : present e = true) : (tlbFill n e s).Inv := by
  refine inv_tlb h _ (sorted_retain_add n e _ _ h.tlbSorted) (length_retain_le _ _ _) fun p hp => ?_
  rcases mem_retain_add hp with rfl | hp
  · exact he
  · exact h.tlbPresent p hp

/-- Allocation: before `PMM_INIT` the range is empty, so there is nothing to take; after it R29 is kept. -/
theorem inv_takePages {s : State} (h : s.Inv) {f c : Nat} (hr : f + c ≤ s.totalPages)
    (hfree : ∀ j, f ≤ j → j < f + c → s.bitmap.used j = false) : (s.takePages f c).Inv where
  __ := h
  beforePmm hp := by
    obtain ⟨ht, hu, hb⟩ := h.beforePmm hp
    have hc : c = 0 := by
      simp only [State.totalPages, ht, show (0 : Word).toNat = 0 from rfl] at hr
      omega
    refine ⟨ht, ?_, ?_⟩
    · rw [takePages_usedPages, hu, hc]
      rfl
    · rw [takePages_bitmap, hb]
      simp [Bitmap.setPages, Bitmap.allUsed]
  frames hp := frameInv_takePages (h.frames hp) hr hfree

theorem inv_releasePages {s : State} (h : s.Inv) {f c : Nat} (hp : s.flag .pmmReady = true) (hl : 4096 ≤ f)
    (hr : f + c ≤ s.totalPages) : (s.releasePages f c).Inv where
  __ := h
  beforePmm hn := nomatch hp.symm.trans hn
  frames hp := frameInv_releasePages (h.frames hp) hl hr

theorem inv_initFrames {s : State} (h : s.Inv) (hm : 128 ≤ s.cfg.maxBlocks) {n : Nat} (hl : 0x1000000 ≤ n) (hn : n < 2 ^ 64) :
    (s.initFrames n).Inv := by
  have hready : (s.initFrames n).flag .pmmReady = true := (flag_raiseFlag .pmmReady .pmmReady s).trans (by simp)
  exact {
    h with
    flagsReserved := raise_lt _ h.flagsReserved
    vmmAfterPmm := fun _ => hready
    beforePmm := fun hp => nomatch hready.symm.trans hp
    frames := fun _ => frameInv_initFrames hm hl hn }

/-- The root `VMM_INIT` writes is a page that was free, so it lies above the reserved region (R30, R151). -/
theorem inv_setRoot {s before : State} (h : s.Inv) (hF : before.FrameInv) {i : Nat} (hi : i < before.totalPages)
    (hf : before.bitmap.used i = false) : (s.setRoot (pageAddr i)).Inv where
  __ := h
  rootAligned := pageAddr_aligned i
  rootAboveReserved _ := by
    have := reserved_le_of_free hF hf
    rw [setRoot_root, pageAddr_toNat hF hi, reservedBytes]
    omega
  frames hp := frameInv_congr (h.frames hp) rfl rfl rfl rfl

theorem inv_raiseFlag {s : State} (h : s.Inv) {b : FlagBit} (hb : b ≠ .pmmReady)
    (hv : b = .vmmReady → s.flag .pmmReady = true) : (s.raiseFlag b).Inv := by
  have hp : (s.raiseFlag b).flag .pmmReady = s.flag .pmmReady := by
    rw [flag_raiseFlag, decide_eq_false hb.symm, Bool.or_false]
  exact {
    h with
    flagsReserved := raise_lt _ h.flagsReserved
    vmmAfterPmm := fun hr => by
      rw [flag_raiseFlag, Bool.or_eq_true, decide_eq_true_eq] at hr
      exact hp.trans (hr.elim h.vmmAfterPmm fun e => hv e.symm)
    beforePmm := fun hn => h.beforePmm (hp.symm.trans hn)
    frames := fun hr => frameInv_congr (h.frames (hp.symm.trans hr)) rfl rfl rfl rfl }

theorem inv_setActiveRoot {s : State} (h : s.Inv) {t : Word} (ht : t.toNat % 4096 = 0) : (s.setActiveRoot t).Inv :=
  { h with activeRootAligned := ht, frames := fun hp => frameInv_congr (h.frames hp) rfl rfl rfl rfl }

theorem inv_tlbFlush {s : State} (h : s.Inv) : (tlbFlush s).Inv :=
  inv_tlb h _ .nil (Nat.zero_le _) fun _ hp => nomatch hp

/-- Reset clears every bit of `FLAGS` (R37). -/
theorem flag_blockReset (b : FlagBit) (cfg : Config) (m : Memory) (draws : Nat) (script : List HostAccess) (d : Word) :
    (State.blockReset cfg m draws script d).flag b = false :=
  BitVec.getLsbD_zero

/-- Reset, over any memory in its canonical form (R37). -/
theorem inv_blockReset (cfg : Config) {m : Memory} (hm : m.wf) (draws : Nat) (script : List HostAccess) (d : Word) :
    (State.blockReset cfg m draws script d).Inv where
  memCanonical := hm
  tlbSorted := .nil
  tlbBound := Nat.zero_le _
  tlbPresent _ hp := nomatch hp
  rootAligned := rfl
  rootAboveReserved h := absurd rfl h
  activeRootAligned := rfl
  flagsReserved := show (0 : Word32).toNat < 16 by decide
  statusLegal := code_le .ok
  res1Low := show (0 : Word).toNat < 4096 by decide
  vmmAfterPmm h := nomatch (flag_blockReset .vmmReady ..).symm.trans h
  beforePmm _ := ⟨rfl, rfl, rfl⟩
  frames h := nomatch (flag_blockReset .pmmReady ..).symm.trans h

/-! ## Every command -/

/-- Every update a command makes keeps the invariant and the parameters. -/
theorem kept_inv (i : Instr) {c : Config} (hc : c.wf = true) : Kept i fun u => u.Inv ∧ u.cfg = c where
  done _ st r0 _ h _ h1 := ⟨inv_done h.1 st r0 h1, h.2⟩
  store _ _ a v h _ := ⟨inv_mem h.1 (wf_writeWord _ a v h.1.memCanonical), h.2⟩
  take _ _ _ _ h hr hf := ⟨inv_takePages h.1 hr hf, h.2⟩
  release _ _ _ _ h hp hl hr := ⟨inv_releasePages h.1 hp hl hr, h.2⟩
  init _ s _ h _ hl hn := ⟨inv_initFrames h.1 (h.2 ▸ of_decide_eq_true hc) hl hn, h.2⟩
  newRoot _ _ _ _ h hb hp hi hf := ⟨inv_setRoot h.1 (hb.1.frames hp) hi hf, h.2⟩
  switch _ _ _ h ht := ⟨inv_tlbFlush (inv_raiseFlag (inv_setActiveRoot h.1 ht) (by decide) nofun), h.2⟩
  vmmReady _ _ h hp := ⟨inv_raiseFlag h.1 (by decide) fun _ => hp, h.2⟩
  invalidate _ _ n h := ⟨inv_tlbInvalidate h.1 n, h.2⟩
  fill _ _ n _ h he _ := ⟨inv_tlbFill h.1 n he, h.2⟩

theorem exec_inv {i : Instr} {s t : State} (h : s.Inv) (hc : s.cfg.wf = true) (hx : exec i s = .next t) : t.Inv ∧ t.cfg = s.cfg :=
  exec_keeps (kept_inv i hc) ⟨h, rfl⟩ hx

/-! ## Every step -/

theorem runCommandWord_inv {w : Word32} {s t : State} (h : s.Inv) (hc : s.cfg.wf = true) (hx : runCommandWord w s = .next t) :
    t.Inv ∧ t.cfg = s.cfg := by
  unfold runCommandWord at hx
  split at hx
  · exact exec_inv h hc hx
  · exact finish_eq_next.mp hx ▸ ⟨inv_done h _ _ (by decide), rfl⟩

/-- A register access that answers a next state is the access to one register, at its own offset and width (R36). -/
theorem atRegister_eq_next {offset : Nat} {width : Width} {access : Reg → Result} {t : State}
    (hx : atRegister offset width access = .next t) : ∃ r, offset = r.offset ∧ width = r.width ∧ access r = .next t := by
  unfold atRegister at hx
  split at hx
  · cases hx
  · rename_i r hr
    split at hx
    · exact ⟨r, atOffset_eq_some hr, by assumption, hx⟩
    · cases hx

theorem writeRegister_inv {r : Reg} {v : Word} {s t : State} (h : s.Inv) (hc : s.cfg.wf = true) (hx : writeRegister r v s = .next t) :
    t.Inv ∧ t.cfg = s.cfg := by
  cases r with
  | cmd => exact runCommandWord_inv h hc hx
  | arg0 => injection hx with hx; exact hx ▸ ⟨inv_host h v s.arg1 s.arg2 s.hostScript s.hostData, rfl⟩
  | arg1 => injection hx with hx; exact hx ▸ ⟨inv_host h s.arg0 v s.arg2 s.hostScript s.hostData, rfl⟩
  | arg2 => injection hx with hx; exact hx ▸ ⟨inv_host h s.arg0 s.arg1 v s.hostScript s.hostData, rfl⟩
  | status | res0 | res1 | flags | root | activeRoot | totalBlocks | usedPages => injection hx with hx; exact hx ▸ ⟨h, rfl⟩

/-- Every access of the host's keeps the invariant (R34, R36, R61, R250). -/
theorem hostAccess_inv {a : HostAccess} {s t : State} (h : s.Inv) (hc : s.cfg.wf = true) (hx : hostAccess a s = .next t) :
    t.Inv ∧ t.cfg = s.cfg := by
  have hdata (d : Word) : State.Inv { s with hostData := d } := inv_host h s.arg0 s.arg1 s.arg2 s.hostScript d
  cases a with
  | regWrite offset width v =>
    obtain ⟨r, _, _, hx⟩ := atRegister_eq_next hx
    exact writeRegister_inv h hc hx
  | regRead offset width =>
    obtain ⟨r, _, _, hx⟩ := atRegister_eq_next hx
    injection hx with hx
    exact hx ▸ ⟨hdata _, rfl⟩
  | memWrite addr width v =>
    simp only [hostAccess] at hx
    split at hx
    · injection hx with hx
      exact hx ▸ ⟨inv_mem h (wf_writeLE _ addr _ v h.memCanonical), rfl⟩
    · cases hx
  | memRead addr width =>
    simp only [hostAccess] at hx
    split at hx
    · injection hx with hx
      exact hx ▸ ⟨hdata _, rfl⟩
    · cases hx
  | reset =>
    injection hx with hx
    exact hx ▸ ⟨inv_blockReset _ h.memCanonical _ _ _, rfl⟩

/-- Settles O59: the step is nothing, or the host's next access, which keeps the invariant. -/
theorem everyStepKeepsTheInvariant : Obligations.EveryStepKeepsTheInvariant := by
  intro s t h hc hx
  simp only [step, nextAccess] at hx
  split at hx
  · injection hx with hx
    exact hx ▸ ⟨h, rfl⟩
  · rename_i a rest _
    exact hostAccess_inv (s := s.withScript rest) (inv_host h s.arg0 s.arg1 s.arg2 rest s.hostData) hc hx

/-- Settles O58: reset's memory lists nothing, and `MAX_BLOCKS` is at its default. -/
theorem resetSatisfiesTheInvariant : Obligations.ResetSatisfiesTheInvariant :=
  ⟨inv_blockReset _ wf_reset _ _ _, rfl⟩

end Sys2Proof.Machine

/-! SUPPORT. The tree of page tables (R39) under every command. -/

namespace Sys2Proof.Machine

/-- Nothing a command ends with is part of the tree (R221). -/
theorem treeInv_done {s : State} (hT : s.TreeInv) (st : Status) (r0 r1 : Word) : (s.done st r0 r1).TreeInv :=
  treeInv_congr hT rfl rfl rfl fun _ h => h

/-- A command that neither stores, nor releases a frame, nor initialises the PFA leaves the tree: it writes neither memory nor `ROOT`
and clears no page. -/
theorem kept_treeInv {i : Instr} (hs : i ∉ storing) (hr : i ∉ releasing) (h0 : i ≠ .pmmInit) : Kept i State.TreeInv where
  done _ st r0 r1 hT _ _ := treeInv_done hT st r0 r1
  store h := absurd h hs
  take _ s f c hT _ _ := treeInv_congr hT rfl rfl rfl fun j hj => by rw [takePages_bitmap, used_setPages, hj, Bool.true_or]
  release h := absurd h hr
  init h := absurd h h0
  newRoot h := absurd (h ▸ by decide) hs
  switch _ _ _ hT _ := treeInv_congr hT rfl rfl rfl fun _ h => h
  vmmReady _ _ hT _ := treeInv_congr hT rfl rfl rfl fun _ h => h
  invalidate _ _ _ hT := treeInv_congr hT rfl rfl rfl fun _ h => h
  fill _ _ _ _ hT _ _ := treeInv_congr hT rfl rfl rfl fun _ h => h

/-- A command refused for its readiness leaves the tree. -/
theorem treeInv_stateError {i : Instr} {s t : State} (hT : s.TreeInv) (h : stateError s i) (hx : exec i s = .next t) : t.TreeInv := by
  rw [exec_of_stateError h, finish_eq_next] at hx
  exact hx ▸ treeInv_done hT _ _ _

/-- Settles O45, by the four groups of commands that touch the tree: a map creates tables and writes a leaf, an unmap writes a leaf, a
free clears pages that hold no table, the two initialisations are refused; the rest leaves it. -/
theorem commandsKeepTheTree : Obligations.CommandsKeepTheTree := by
  intro i s t hI hv hT hx hfree
  have hp := hI.vmmAfterPmm hv
  cases i with
  | vmmMap =>
    rcases exec_vmmMap_cases hv hT (hI.frames hp) hx with ⟨u, hu, rfl⟩ | ⟨u, st, hu, rfl, _⟩
    · exact treeInv_done hu.tree _ _ _
    · exact treeInv_done hu.tree _ _ _
  | vmmUnmap =>
    rcases exec_vmmUnmap_cases hv hx with ⟨u, hu, rfl⟩ | ⟨_, rfl⟩ | rfl
    · exact treeInv_congr (treeInv_leafWrite hT hu 0) rfl rfl rfl fun _ h => h
    · exact treeInv_done hT _ _ _
    · exact treeInv_done hT _ _ _
  | pmmFree => exact treeInv_free hT (.inl rfl) hx hfree
  | pmmFreen => exact treeInv_free hT (.inr rfl) hx hfree
  | pmmInit => exact treeInv_stateError hT (i := .pmmInit) hp hx
  | vmmInit => exact treeInv_stateError hT (i := .vmmInit) (Or.inl hv) hx
  | pmmAlloc | pmmAllocn | pmmTotal | pmmUsed | pmmFreemem | vmmGetpa | vmmSwitch | tlbXlate | tlbInvlpg =>
    exact exec_keeps (kept_treeInv (by decide) (by decide) (by decide)) hT hx

end Sys2Proof.Machine

/-! SUPPORT. The register file as the host reads and writes it (R36), the values after reset (R37, R250), the words of the bitmap (R28). -/

namespace Sys2Proof.Machine

/-! ## Register accesses -/

/-- A write at a register's own offset and width is a write of that register (R36). -/
theorem hostAccess_regWrite (r : Reg) (v : Word) (s : State) :
    hostAccess (.regWrite r.offset r.width v) s = writeRegister r v s := by
  simp only [hostAccess, atRegister, atOffset_offset, if_true]

/-- A read at a register's own offset and width answers that register (R36). -/
theorem hostAccess_regRead (r : Reg) (s : State) :
    hostAccess (.regRead r.offset r.width) s = .next { s with hostData := s.readRegister r } := by
  simp only [hostAccess, atRegister, atOffset_offset, if_true]

/-- An access that fits no register is refused, whatever it would have done there (R36, U12). -/
theorem atRegister_refused {offset : Nat} {width : Width} (h : ∀ r : Reg, ¬ (width = r.width ∧ offset = r.offset)) :
    ∃ q, ∀ access, atRegister offset width access = .refused q := by
  unfold atRegister
  cases hr : Reg.atOffset offset with
  | none => exact ⟨_, fun _ => rfl⟩
  | some r => exact ⟨_, fun _ => if_neg fun hw => h r ⟨hw, atOffset_eq_some hr⟩⟩

/-- The widths and offsets of R36's table. -/
theorem width_offset_mem (r : Reg) :
    (r.width = .w32 ∧ r.offset ∈ [0x00, 0x20, 0x38]) ∨
      (r.width = .w64 ∧ r.offset ∈ [0x08, 0x10, 0x18, 0x28, 0x30, 0x40, 0x48, 0x50, 0x58]) := by
  cases r <;> decide

/-- Settles O10: no register of R36's table has the offset and width of such an access. -/
theorem oddRegisterAccessesAreRefused : Obligations.OddRegisterAccessesAreRefused := by
  intro s offset width v h32 h64
  have hodd : ∀ r : Reg, ¬ (width = r.width ∧ offset = r.offset) := by
    rintro r ⟨rfl, rfl⟩
    exact (width_offset_mem r).elim h32 h64
  obtain ⟨q, hq⟩ := atRegister_refused hodd
  exact ⟨q, hq _, hq _⟩

/-- Settles O8, register by register. -/
theorem registerWrites : Obligations.RegisterWrites := fun s v =>
  ⟨hostAccess_regWrite .arg0 v s, hostAccess_regWrite .arg1 v s, hostAccess_regWrite .arg2 v s, hostAccess_regWrite .status v s,
    hostAccess_regWrite .res0 v s, hostAccess_regWrite .res1 v s, hostAccess_regWrite .flags v s, hostAccess_regWrite .root v s,
    hostAccess_regWrite .activeRoot v s, hostAccess_regWrite .totalBlocks v s, hostAccess_regWrite .usedPages v s⟩

/-- Settles O9, register by register. -/
theorem registerReads : Obligations.RegisterReads := fun s =>
  ⟨hostAccess_regRead .cmd s, hostAccess_regRead .arg0 s, hostAccess_regRead .arg1 s, hostAccess_regRead .arg2 s,
    hostAccess_regRead .status s, hostAccess_regRead .res0 s, hostAccess_regRead .res1 s, hostAccess_regRead .flags s,
    hostAccess_regRead .root s, hostAccess_regRead .activeRoot s, hostAccess_regRead .totalBlocks s, hostAccess_regRead .usedPages s⟩

/-! ## Reset -/

/-- With every page used every word of the bitmap is all ones (R28, R37). -/
theorem word_allUsed (w : Nat) : Bitmap.allUsed.word w = 0xFFFFFFFF#32 := by
  rw [Bitmap.word, Bitmap.allUsed, Nat.zero_shiftRight]
  rfl

/-- A reset event leaves the block as reset does, over the memory and parameters there were (R37, R250). -/
theorem hostAccess_reset (u : State) :
    hostAccess .reset u = .next (State.blockReset u.cfg u.mem u.tlbDraws u.hostScript u.hostData) := rfl

/-- Settles O11: both kinds of state are `State.blockReset` of something. -/
theorem resetValues : Obligations.ResetValues := by
  refine ⟨fun s hs => ?_, fun u => ⟨_, hostAccess_reset u, rfl, rfl⟩⟩
  obtain ⟨cfg, m, draws, script, d, rfl⟩ : ∃ cfg m draws script d, s = State.blockReset cfg m draws script d := by
    rcases hs with rfl | ⟨u, hu⟩
    · exact ⟨_, _, _, _, _, rfl⟩
    · rw [hostAccess_reset] at hu
      injection hu with hu
      exact ⟨_, _, _, _, _, hu.symm⟩
  exact ⟨rfl, rfl, rfl, rfl, rfl, rfl, rfl, rfl, rfl, word_allUsed, rfl, rfl, rfl⟩

/-! ## The bitmap's words -/

/-- Settles O18, from the bit of a word by word and place. -/
theorem bitmapWordsHoldThePages : Obligations.BitmapWordsHoldThePages := by
  intro b i
  rw [getLsbD_word b _ _ (Nat.mod_lt i (by decide)), Nat.div_add_mod]

end Sys2Proof.Machine

/-! SUPPORT. Which command writes which element of the state (R36, R77), and the frame allocator after every command (R29). -/

namespace Sys2Proof.Machine

/-! ## Elements a command does not write -/

/-- None of the updates the command `i` makes changes what `f` reads of the state. An update not spoken of leaves it by computation. -/
structure Untouched {α : Type} (i : Instr) (f : State → α) : Prop where
  done : ∀ s st r0 r1, f (s.done st r0 r1) = f s := by intros; rfl
  store : i ∈ storing → ∀ s a v, f (s.storeWord a v) = f s := by intros; rfl
  take : i ∈ taking → ∀ s p c, f (s.takePages p c) = f s := by intros; rfl
  release : i ∈ releasing → ∀ s p c, f (s.releasePages p c) = f s := by intros; rfl
  init : i = .pmmInit → ∀ s n, f (s.initFrames n) = f s := by intros; rfl
  newRoot : i = .vmmInit → ∀ s r, f (s.setRoot r) = f s := by intros; rfl
  switch : i = .vmmSwitch → ∀ s t, f (tlbFlush ((s.setActiveRoot t).raiseFlag .activeValid)) = f s := by intros; rfl
  vmmReady : i = .vmmInit → ∀ s, f (s.raiseFlag .vmmReady) = f s := by intros; rfl
  invalidate : i ∈ invalidating → ∀ s n, f (tlbInvalidate n s) = f s := by intros; rfl
  fill : i = .tlbXlate → ∀ s n e, f (tlbFill n e s) = f s := by intros; rfl

/-- What no update of a command changes, the command does not change. -/
theorem exec_untouched {α : Type} {i : Instr} {f : State → α} (k : Untouched i f) {s t : State} (hx : exec i s = .next t) :
    f t = f s :=
  exec_keeps (P := fun u => f u = f s)
    { done := fun _ _ _ _ h _ _ => (k.done ..).trans h
      store := fun hi _ _ _ h _ => (k.store hi ..).trans h
      take := fun hi _ _ _ h _ _ => (k.take hi ..).trans h
      release := fun hi _ _ _ h _ _ _ => (k.release hi ..).trans h
      init := fun hi _ _ h _ _ _ => (k.init hi ..).trans h
      newRoot := fun hi _ _ _ h _ _ _ _ => (k.newRoot hi ..).trans h
      switch := fun hi _ _ h _ => (k.switch hi ..).trans h
      vmmReady := fun hi _ h _ => (k.vmmReady hi _).trans h
      invalidate := fun hi _ _ h => (k.invalidate hi ..).trans h
      fill := fun hi _ _ _ h _ _ => (k.fill hi ..).trans h } rfl hx

/-- The one command that raises a named bit of `FLAGS` other than `ERR` (R25, R120, R151, R163). -/
def FlagBit.raisedBy : FlagBit → Option Instr
  | .pmmReady => some .pmmInit
  | .vmmReady => some .vmmInit
  | .activeValid => some .vmmSwitch
  | .err => none

/-- Every other command leaves the bit. -/
theorem exec_flag {i : Instr} {b : FlagBit} (hb : b ≠ .err) (hi : b.raisedBy ≠ some i) {s t : State} (hx : exec i s = .next t) :
    t.flag b = s.flag b := by
  have raised {c : FlagBit} (hc : c.raisedBy = some i) (u : State) : (u.raiseFlag c).flag b = u.flag b := by
    have hne : b ≠ c := fun e => hi (e ▸ hc)
    rw [flag_raiseFlag, decide_eq_false hne, Bool.or_false]
  exact exec_untouched (f := State.flag b)
    { done := fun s st r0 r1 => flag_done hb st r0 r1 s
      init := fun h s _ => raised (c := .pmmReady) (by rw [h]; rfl) s
      switch := fun h s _ => raised (c := .activeValid) (by rw [h]; rfl) s
      vmmReady := fun h s => raised (c := .vmmReady) (by rw [h]; rfl) s } hx

/-- Settles O16, element by element: the updates that write it are made by the named commands only. -/
theorem onlyTheNamedCommandsWriteEachElement : Obligations.OnlyTheNamedCommandsWriteEachElement := by
  intro i s t hx
  refine ⟨?_, fun hi => ⟨?_, ?_⟩, fun hi => ?_, fun hi => ⟨?_, ?_⟩, fun hi => ⟨?_, ?_⟩, fun hi => ?_, fun hi => ?_⟩
  · exact ⟨exec_untouched (f := State.arg0) {} hx, exec_untouched (f := State.arg1) {} hx, exec_untouched (f := State.arg2) {} hx,
      exec_untouched (f := State.cfg) {} hx, exec_untouched (f := State.hostScript) {} hx, exec_untouched (f := State.hostData) {} hx⟩
  · exact exec_untouched (f := State.totalBlocks) { init := fun h => absurd h hi } hx
  · exact exec_flag (b := .pmmReady) (by decide) (fun e => hi (Option.some.inj e).symm) hx
  · exact Prod.mk.inj <| exec_untouched (f := fun u => (u.bitmap, u.usedPages))
      { take := fun h => absurd ((by decide : taking ⊆ _) h) hi
        release := fun h => absurd ((by decide : releasing ⊆ _) h) hi
        init := fun h => absurd (by simp [h]) hi } hx
  · exact exec_untouched (f := State.root) { newRoot := fun h => absurd h hi } hx
  · exact exec_flag (b := .vmmReady) (by decide) (fun e => hi (Option.some.inj e).symm) hx
  · exact exec_untouched (f := State.activeRoot) { switch := fun h => absurd h hi } hx
  · exact exec_flag (b := .activeValid) (by decide) (fun e => hi (Option.some.inj e).symm) hx
  · exact exec_untouched (f := State.tlb)
      { switch := fun h => absurd (by simp [h]) hi
        invalidate := fun h => absurd ((by decide : invalidating ⊆ _) h) hi
        fill := fun h => absurd (by simp [h]) hi } hx
  · have hm : t.mem = s.mem := exec_untouched (f := State.mem) { store := fun h => absurd h hi } hx
    exact ⟨hm, fun a => by rw [hm]⟩

/-! ## The frame allocator after every command -/

/-- A command other than `PMM_INIT` leaves the range, and every page beyond it (R29.4). -/
theorem kept_beyond {i : Instr} (hi : i ≠ .pmmInit) (n : Nat) (b : Bitmap) :
    Kept i fun u => u.totalPages = n ∧ ∀ j, n ≤ j → u.bitmap.used j = b.used j where
  done _ _ _ _ h _ _ := h
  store _ _ _ _ h _ := h
  take _ u f c h hr _ := by
    refine ⟨h.1, fun j hj => ?_⟩
    rw [takePages_bitmap, used_setPages, h.2 j hj, decide_eq_false (show ¬ j < f + c by omega), Bool.and_false, Bool.or_false]
  release _ u f c h _ _ hr := by
    refine ⟨h.1, fun j hj => ?_⟩
    rw [releasePages_bitmap, used_clearPages, h.2 j hj, decide_eq_false (show ¬ j < f + c by omega), Bool.and_false, Bool.not_false,
      Bool.and_true]
  init h := absurd h hi
  newRoot _ _ _ _ h _ _ _ _ := h
  switch _ _ _ h _ := h
  vmmReady _ _ h _ := h
  invalidate _ _ _ h := h
  fill _ _ _ _ h _ _ := h

/-- Once `PMM_READY`, no command changes the range or a page beyond it (R26, R29.4): a second `PMM_INIT` is refused. -/
theorem exec_beyond {i : Instr} {s t : State} (hp : s.flag .pmmReady = true) (hx : exec i s = .next t) :
    t.totalPages = s.totalPages ∧ ∀ j, s.totalPages ≤ j → t.bitmap.used j = s.bitmap.used j := by
  by_cases hi : i = .pmmInit
  · subst hi
    rw [exec_of_stateError (i := .pmmInit) hp, finish_eq_next] at hx
    exact hx ▸ ⟨rfl, fun _ _ => rfl⟩
  · exact exec_keeps (kept_beyond hi s.totalPages s.bitmap) ⟨rfl, fun _ _ => rfl⟩ hx

/-- The reserved pages are all counted used (R29.2, R29.3). -/
theorem reserved_le_usedPages {s : State} (h : s.FrameInv) : 4096 ≤ s.usedPages.toNat := by
  have hlow := h.blocksLow
  have hres : s.bitmap.countUsed 0 4096 = 4096 := countUsed_all _ _ _ fun j _ hj => h.reserved j (by simpa using hj)
  rw [h.counted, countUsed_split _ 0 4096 _ (by simp only [State.totalPages, bitsPerWord]; omega), hres]
  omega

/-- An allocation that ends `OK` answers the address of a page that was free and in range (R123, R125). -/
theorem exec_alloc_ok {i : Instr} {s t : State} (hi : i = .pmmAlloc ∨ i = .pmmAllocn) (hx : exec i s = .next t)
    (hok : t.status = 0#32) : ∃ f, f < s.totalPages ∧ s.bitmap.used f = false ∧ t.res0 = pageAddr f := by
  have hcode {st r0 r1} {u : State} (h : finish st r0 r1 u = .next t) : st.code = 0#32 := by
    rw [← hok, ← finish_eq_next.mp h, done_status]
  have hres {st r0 r1} {u : State} (h : finish st r0 r1 u = .next t) : t.res0 = r0 := by
    rw [← finish_eq_next.mp h, done_res0]
  rcases hi with rfl | rfl
  · simp only [exec, execPmmAlloc] at hx
    split at hx
    · exact absurd (hcode hx) (by decide)
    · rcases pfaAllocOne_cases s with ⟨he, _⟩ | ⟨f, he, hf, hfree, _⟩
      · rw [he] at hx
        exact absurd (hcode hx) (by decide)
      · rw [he] at hx
        simp only at hx
        split at hx
        · exact absurd (hcode hx) (by decide)
        · exact ⟨f, hf, hfree, hres hx⟩
  · simp only [exec, execPmmAllocn] at hx
    split at hx
    · exact absurd (hcode hx) (by decide)
    · split at hx
      · exact absurd (hcode hx) (by decide)
      · rename_i hcount
        have hpos : 0 < s.arg0.toNat := Nat.pos_of_ne_zero fun e => hcount (BitVec.eq_of_toNat_eq e)
        split at hx
        · exact absurd (hcode hx) (by decide)
        · rename_i f hf
          obtain ⟨hr, hrun, _⟩ := (findRun_eq_some s _ f).mp hf
          exact ⟨f, by omega, (runFree_iff _ _ _).mp hrun f le_rfl (by omega), hres hx⟩

/-- Settles O28: points 1 to 3 are R29's invariant, which every command keeps; point 4 is `exec_beyond`; for point 5 the page an
allocation answers was free, so it lies above the reserved region. -/
theorem pfaInvariantsHoldAfterEveryCommand : Obligations.PfaInvariantsHoldAfterEveryCommand := by
  intro i s t hI hc hx hready
  have hF : t.FrameInv := (exec_inv hI hc hx).1.frames hready
  refine ⟨⟨hF.blocksLow, hF.blocksHigh⟩, hF.reserved, ⟨hF.counted, reserved_le_usedPages hF, ?_⟩, fun hp j hj => ?_, fun hi hok => ?_⟩
  · rw [hF.counted]
    exact countUsed_le _ _ _
  · obtain ⟨hpages, hbeyond⟩ := exec_beyond hp hx
    exact hbeyond j (hpages ▸ hj)
  · have hp : s.flag .pmmReady = true := by
      rw [← hready, exec_flag (b := .pmmReady) (by decide) (by rcases hi with rfl | rfl <;> decide) hx]
    have hFs := hI.frames hp
    obtain ⟨f, hf, hfree, hres⟩ := exec_alloc_ok hi hx hok
    have hge := reserved_le_of_free hFs hfree
    have hlt : f < t.totalBlocks.toNat * 32 := hf.trans_eq (exec_beyond hp hx).1.symm
    rw [hres, pageAddr_toNat hFs hf]
    omega

end Sys2Proof.Machine

/-! SUPPORT. What the frame allocator's commands leave (R60), the bytes of an entry (R61), the host's own loads and stores (R61, R79), the
walk by its bits (R66 to R73), the address bits no rule uses (R70, R71), and that no step of the invariant is a fault (R62, R226). -/

namespace Sys2Proof.Machine

/-! ## The frame allocator's commands -/

/-- All of a state but what the frame allocator's commands may write (R36): those elements stand at 0. -/
def State.besidePfa (s : State) : State :=
  { s with status := 0, res0 := 0, res1 := 0, flags := 0, totalBlocks := 0, usedPages := 0, bitmap := Bitmap.allUsed }

/-- Settles O29: no update the frame allocator's commands make reaches an element beside those, memory included. -/
theorem pfaCommandsLeaveTheRest : Obligations.PfaCommandsLeaveTheRest := by
  intro i s t hi hx
  obtain ⟨hstore, hinv, hinit, hswitch, hxlate⟩ : i ∉ storing ∧ i ∉ invalidating ∧ i ≠ .vmmInit ∧ i ≠ .vmmSwitch ∧ i ≠ .tlbXlate :=
    (by decide : ∀ i ∈ [Instr.pmmInit, .pmmAlloc, .pmmAllocn, .pmmFree, .pmmFreen, .pmmTotal, .pmmUsed, .pmmFreemem],
      i ∉ storing ∧ i ∉ invalidating ∧ i ≠ .vmmInit ∧ i ≠ .vmmSwitch ∧ i ≠ .tlbXlate) i hi
  have hrest : t.besidePfa = s.besidePfa := exec_untouched (f := State.besidePfa)
    { store := fun h => absurd h hstore
      newRoot := fun h => absurd h hinit
      switch := fun h => absurd h hswitch
      vmmReady := fun h => absurd h hinit
      invalidate := fun h => absurd h hinv
      fill := fun h => absurd h hxlate } hx
  have hmem : t.mem = s.mem := show t.besidePfa.mem = s.besidePfa.mem by rw [hrest]
  refine ⟨?_, fun a => by rw [hmem]⟩
  calc t = { t.besidePfa with status := t.status, res0 := t.res0, res1 := t.res1, flags := t.flags, totalBlocks := t.totalBlocks,
                              usedPages := t.usedPages, bitmap := t.bitmap } := rfl
    _ = _ := by rw [hrest]; rfl

/-! ## Bytes -/

theorem offset_toNat (a : Word) {k : Nat} (hk : k < 8) : (a + BitVec.ofNat 64 k - a).toNat = k := by
  bv_omega

/-- The bytes of a number after it is written from `a` on (R61). -/
theorem readByte_writeLE_inside (m : Memory) (a v : Word) {n k : Nat} (hn : n ≤ 8) (hk : k < n) :
    (m.writeLE a n v).readByte (a + BitVec.ofNat 64 k) = v.extractLsb' (8 * k) 8 := by
  rw [readByte_writeLE m a n v _ hn, offset_toNat a (by omega), if_pos hk, shift_byte]

/-- Settles O30, from the rules of bytes and words. -/
theorem entriesAreLittleEndian : Obligations.EntriesAreLittleEndian :=
  ⟨fun m a k hk => byte_of_readLE m a 8 k le_rfl hk, fun m a v =>
    ⟨fun _ hk => readByte_writeLE_inside m a v le_rfl hk, readWord_writeWord_same m a v,
      fun _ hb => readByte_writeWord_outside m v hb⟩⟩

theorem width_bytes_le (w : Width) : w.bytes ≤ 8 := by
  cases w <;> decide

/-- Settles O31: both accesses find their bytes, and are `writeLE` and `readLE` of them. -/
theorem hostLoadsAndStores : Obligations.HostLoadsAndStores := by
  intro s a v w hbytes
  have hw := width_bytes_le w
  refine ⟨⟨{ s with mem := s.mem.writeLE a w.bytes v }, if_pos hbytes, rfl, fun k hk => readByte_writeLE_inside _ _ _ hw hk,
    fun b hb => ?_⟩, s.mem.readLE a w.bytes, if_pos hbytes, fun k hk => byte_of_readLE _ _ _ _ hw hk, readLE_lt _ _ _ hw⟩
  exact (readByte_writeLE _ _ _ _ _ hw).trans (if_neg (Nat.not_lt.mpr hb))

/-! ## The walk by its bits -/

/-- Settles O33: the leaf table is reached where three entries are present, and the fourth is the one read there. -/
theorem walkReadsFourEntries : Obligations.WalkReadsFourEntries := by
  intro m root v e3 e2 e1 e0 h3 h2 h1 h0
  replace h3 : m.readWord (entryAddr root (vidx v .pml4)) = e3 := h3.symm
  replace h2 : m.readWord (entryAddr (frame e3) (vidx v .pdpt)) = e2 := h2.symm
  replace h1 : m.readWord (entryAddr (frame e2) (vidx v .pd)) = e1 := h1.symm
  replace h0 : m.readWord (entryAddr (frame e1) (vidx v .pt)) = e0 := h0.symm
  have htable : tableAt m root v 3 = if present e3 && present e2 && present e1 then some (frame e1) else none := by
    simp only [tableAt, nonLeafLevels, List.take, tableBelow, h3, h2, h1, Bool.and_eq_true, ite_and]
  show leafEntry m root v = if present e3 && present e2 && present e1 && present e0 then some e0 else none
  cases hp : present e3 && present e2 && present e1 with
  | true => rw [leafEntry_of_table (htable.trans (if_pos hp)), h0, Bool.true_and]
  | false => rw [leafEntry_of_none (by rw [htable, hp]; rfl), Bool.false_and]; rfl

/-! ## Address bits no rule uses -/

section SamePage

variable {v w : Word} (h : vpn v = vpn w)

include h

/-- The descent depends on the page number only (R71). -/
theorem descend_congr (ls : List Level) (t : Word) (s : State) : descend v ls t s = descend w ls t s := by
  induction ls generalizing t s with
  | nil => rfl
  | cons l ls ih => simp only [descend, (vpn_eq_iff v w).mp h l, ih]

theorem walk_congr (root : Word) (s : State) : walk root v s = walk root w s := by
  simp only [walk, descend_congr h, (vpn_eq_iff v w).mp h .pt]

theorem descendCreating_congr (ls : List Level) (t : Word) (s : State) : descendCreating v ls t s = descendCreating w ls t s := by
  induction ls generalizing t s with
  | nil => rfl
  | cons l ls ih =>
    simp only [descendCreating, (vpn_eq_iff v w).mp h l, ih]

/-- A map depends on the page number only (R71, R152). -/
theorem ptwMap_congr (p f : Word) (s : State) : ptwMap v p f s = ptwMap w p f s := by
  simp only [ptwMap, descendCreating_congr h, (vpn_eq_iff v w).mp h .pt, h]

end SamePage

/-- Beside another `ARG0` in the same page the commands that take a virtual address do the same; those that answer an address need the
same offset too (R70, R71, R102). -/
theorem exec_beside_page (b : Beside) {i : Instr} (s : State) (hi : i ∈ [Instr.vmmMap, .vmmUnmap, .vmmGetpa, .tlbXlate, .tlbInvlpg])
    (h1 : b.a1 = s.arg1) (h2 : b.a2 = s.arg2) (hr : b.r = s.activeRoot) (hv : vpn b.a0 = vpn s.arg0)
    (ho : i ∈ [Instr.vmmGetpa, .tlbXlate] → voff b.a0 = voff s.arg0) :
    exec i (s.beside b) = besideResult b (exec i s) := by
  have hf : ∀ k, (s.beside b).flag k = s.flag k := fun _ => rfl
  have ha0 : (s.beside b).arg0 = b.a0 := rfl
  have hroot : (s.beside b).root = s.root := rfl
  cases i with
  | vmmMap =>
    simp only [exec, execVmmMap, hf, ha0, show (s.beside b).arg1 = s.arg1 from h1, show (s.beside b).arg2 = s.arg2 from h2,
      ptwMap_congr hv, beside_ptwMap]
    split
    · rfl
    · refine beside_conclude b _ _ _ fun m w _ => ?_
      split <;> rfl
  | vmmUnmap =>
    simp only [exec, execVmmUnmap, hf, ha0, hroot, descend_congr hv, beside_descend]
    split
    · rfl
    · refine beside_conclude b _ _ _ fun m w hw => ?_
      have hws := leaves_descend s.arg0 nonLeafLevels s.root s
      rw [hw] at hws
      obtain rfl : w = s := hws
      split
      · rfl
      · simp only [ha0, (vpn_eq_iff _ _).mp hv .pt, beside_memWrite]
        refine beside_conclude b _ _ _ fun m u hu => ?_
        obtain ⟨_, _, rfl⟩ := memWrite_eq_ok hu
        simp only [storeWord_arg0, ← hv]
        rfl
  | vmmGetpa =>
    have hoff := ho (by decide)
    simp only [exec, execVmmGetpa, hf, ha0, hroot, walk_congr hv, beside_walk]
    split
    · rfl
    · refine beside_conclude b _ _ _ fun m w hw => ?_
      have hws := leaves_walk s.root s.arg0 s
      rw [hw] at hws
      obtain rfl : w = s := hws
      split
      · rfl
      · simp only [translate, ha0, hoff]
        rfl
  | tlbXlate =>
    have hoff := ho (by decide)
    simp only [exec, execTlbXlate, hf, ha0, hv, show (s.beside b).activeRoot = s.activeRoot from hr,
      show (s.beside b).tlb = s.tlb from rfl, walk_congr hv, beside_walk, translate, hoff]
    split
    · rfl
    · split
      · rfl
      · refine beside_conclude b _ _ _ fun m w hw => ?_
        have hws := leaves_walk s.activeRoot s.arg0 s
        rw [hw] at hws
        obtain rfl : w = s := hws
        simp only [ha0, hv, hoff]
        split <;> rfl
  | tlbInvlpg =>
    simp only [exec, execTlbInvlpg, ha0, hv]
    rfl
  | pmmInit | pmmAlloc | pmmAllocn | pmmFree | pmmFreen | pmmTotal | pmmUsed | pmmFreemem | vmmInit | vmmSwitch =>
    exact absurd hi (by decide)

/-- Bits 47 to 0 of an address are its page number and its offset (R70, R71). -/
theorem vpn_voff_of_low {v w : Word} (h : v.extractLsb' 0 48 = w.extractLsb' 0 48) : vpn v = vpn w ∧ voff v = voff w := by
  have hn := congrArg BitVec.toNat h
  simp only [BitVec.extractLsb'_toNat, Nat.shiftRight_zero] at hn
  refine ⟨BitVec.eq_of_toNat_eq ?_, BitVec.eq_of_toNat_eq ?_⟩
  · rw [vpn_toNat, vpn_toNat]
    omega
  · simp only [voff, BitVec.toNat_setWidth, BitVec.extractLsb'_toNat, Nat.shiftRight_zero]
    omega

/-- Another `ARG0`, and all else as in `s`. -/
def State.withArg0 (s : State) (a : Word) : Beside :=
  { a0 := a, a1 := s.arg1, a2 := s.arg2, r := s.activeRoot, script := s.hostScript, d := s.hostData }

/-- A command but `VMM_SWITCH` leaves all but `ARG0` of that as it was (R21, R31). -/
theorem beside_withArg0 {i : Instr} {s t : State} (hi : i ≠ .vmmSwitch) (hx : exec i s = .next t) (a : Word) :
    t.beside (s.withArg0 a) = { t with arg0 := a } := by
  obtain ⟨⟨_, h1, h2, _, h4, h5⟩, _, _, _, h6, _⟩ := onlyTheNamedCommandsWriteEachElement i s t hx
  simp only [State.beside, State.withArg0, ← h1, ← h2, ← h4, ← h5, ← (h6 hi).1]

/-- Settles O43: the page number, and where it counts the offset, is the same, and no command writes the other registers. -/
theorem unusedAddressBitsAreIgnored : Obligations.UnusedAddressBitsAreIgnored := by
  intro i s t a hx hsame
  have hi : i ∈ [Instr.vmmMap, .vmmUnmap, .vmmGetpa, .tlbXlate, .tlbInvlpg] :=
    hsame.elim And.left fun h => (by decide : [Instr.vmmMap, .vmmUnmap, .tlbInvlpg] ⊆ _) h.1
  have hv : vpn a = vpn s.arg0 := hsame.elim (fun h => (vpn_voff_of_low h.2).1) And.right
  have ho : i ∈ [Instr.vmmGetpa, .tlbXlate] → voff a = voff s.arg0 := fun hmem =>
    hsame.elim (fun h => (vpn_voff_of_low h.2).2) fun h =>
      absurd h.1 ((by decide : ∀ i ∈ [Instr.vmmGetpa, .tlbXlate], i ∉ [Instr.vmmMap, .vmmUnmap, .tlbInvlpg]) i hmem)
  have hsw : i ≠ .vmmSwitch := fun e => absurd (e ▸ hi) (by decide)
  calc exec i { s with arg0 := a } = exec i (s.beside (s.withArg0 a)) := rfl
    _ = besideResult (s.withArg0 a) (exec i s) := exec_beside_page _ s hi rfl rfl rfl hv ho
    _ = .next { t with arg0 := a } := by rw [hx, ← beside_withArg0 hsw hx a]; rfl

/-! ## Every command completes, every step is safe -/

/-- A part of a command that meets no fault is followed by an end of the command. -/
theorem completes_conclude {α : Type} {r : CmdResult α} {k : α → State → Result} (hr : r.Faultless)
    (hk : ∀ a u, r = .ok a u → ∃ t, k a u = .next t) : ∃ t, r.conclude k = .next t := by
  cases r with
  | ok a u => exact hk a u rfl
  | busError u => exact ⟨_, rfl⟩
  | fault f => exact absurd rfl (hr f)

/-- The descent of an unmap and the write of its leaf find aligned addresses (R62, R74). -/
theorem execVmmUnmap_completes {s : State} (h : s.root.toNat % 4096 = 0) : ∃ t, execVmmUnmap s = .next t := by
  unfold execVmmUnmap
  split
  · exact ⟨_, rfl⟩
  · refine completes_conclude (faultless_descend _ _ _ s h) fun r u hu => ?_
    split
    · exact ⟨_, rfl⟩
    · exact completes_conclude (faultless_memWrite _ _ _ (entryAddr_aligned _ _ (descend_aligned h hu))) fun _ _ _ => ⟨_, rfl⟩

/-- The frames a `VMM_INIT` takes are aligned, and so is the root it writes (R30, R62). -/
theorem execVmmInit_completes (s : State) : ∃ t, execVmmInit s = .next t := by
  have hal : (pfaAllocOne s).1.toNat % 4096 = 0 := by
    rcases pfaAllocOne_cases s with ⟨he, _⟩ | ⟨i, he, _⟩
    · rw [he]; rfl
    · rw [he]; exact pageAddr_aligned i
  unfold execVmmInit
  split
  · exact ⟨_, rfl⟩
  · split
    · exact ⟨_, rfl⟩
    · simp only
      split
      · exact ⟨_, rfl⟩
      · refine completes_conclude (faultless_zeroEntries _ (by omega) _ _) fun _ u _ => ?_
        refine completes_conclude (faultless_identityMap _ _ hal) fun m w _ => ?_
        split <;> exact ⟨_, rfl⟩

/-- From every state of the invariant every command ends in a next state: the bases of the tables are aligned (R30, R31, R62, R226). -/
theorem exec_completes (i : Instr) {s : State} (h : s.Inv) : ∃ t, exec i s = .next t := by
  cases i with
  | pmmInit => simp only [exec, execPmmInit]; split_ifs <;> exact ⟨_, rfl⟩
  | pmmAlloc => simp only [exec, execPmmAlloc]; split_ifs <;> exact ⟨_, rfl⟩
  | pmmAllocn =>
    simp only [exec, execPmmAllocn]
    split_ifs
    · exact ⟨_, rfl⟩
    · exact ⟨_, rfl⟩
    · split <;> exact ⟨_, rfl⟩
  | pmmFree => simp only [exec, execPmmFree]; split_ifs <;> exact ⟨_, rfl⟩
  | pmmFreen => simp only [exec, execPmmFreen]; split_ifs <;> exact ⟨_, rfl⟩
  | pmmTotal | pmmUsed | pmmFreemem | tlbInvlpg => exact ⟨_, rfl⟩
  | vmmInit => exact execVmmInit_completes s
  | vmmMap =>
    simp only [exec, execVmmMap]
    split
    · exact ⟨_, rfl⟩
    · refine completes_conclude (faultless_ptwMap _ _ _ _ h.rootAligned) fun m u _ => ?_
      split <;> exact ⟨_, rfl⟩
  | vmmUnmap => exact execVmmUnmap_completes h.rootAligned
  | vmmGetpa =>
    simp only [exec, execVmmGetpa]
    split
    · exact ⟨_, rfl⟩
    · refine completes_conclude (faultless_walk _ _ _ h.rootAligned) fun m u _ => ?_
      split <;> exact ⟨_, rfl⟩
  | vmmSwitch => simp only [exec, execVmmSwitch]; split_ifs <;> exact ⟨_, rfl⟩
  | tlbXlate =>
    simp only [exec, execTlbXlate]
    split
    · exact ⟨_, rfl⟩
    · split
      · exact ⟨_, rfl⟩
      · refine completes_conclude (faultless_walk _ _ _ h.activeRootAligned) fun m u _ => ?_
        split <;> exact ⟨_, rfl⟩

theorem writeRegister_completes (r : Reg) (v : Word) {s : State} (h : s.Inv) : ∃ t, writeRegister r v s = .next t := by
  cases r with
  | cmd =>
    simp only [writeRegister, runCommandWord]
    split
    · exact exec_completes _ h
    · exact ⟨_, rfl⟩
  | arg0 | arg1 | arg2 | status | res0 | res1 | flags | root | activeRoot | totalBlocks | usedPages => exact ⟨_, rfl⟩

/-- Why an access of the host's may have no meaning (R36, log entries 11 and 12). -/
def HostRefusal (r : Refusal) : Prop :=
  (∃ offset, r = .noSuchRegister offset) ∨ (∃ reg width, r = .wrongRegisterWidth reg width) ∨ ∃ addr, r = .hostAccessWithoutMemory addr

/-- A result that is a next state, or a refusal of a host access the model gives no meaning to. -/
def NextOrHostRefusal (r : Result) : Prop :=
  (∃ t, r = .next t) ∨ ∃ q, r = .refused q ∧ HostRefusal q

theorem atRegister_nextOrHostRefusal {offset : Nat} {width : Width} {access : Reg → Result} (h : ∀ r, ∃ t, access r = .next t) :
    NextOrHostRefusal (atRegister offset width access) := by
  unfold atRegister
  split
  · exact .inr ⟨_, rfl, .inl ⟨_, rfl⟩⟩
  · split
    · exact .inl (h _)
    · exact .inr ⟨_, rfl, .inr (.inl ⟨_, _, rfl⟩)⟩

theorem hostAccess_nextOrHostRefusal (a : HostAccess) {s : State} (h : s.Inv) : NextOrHostRefusal (hostAccess a s) := by
  cases a with
  | regWrite offset width v => exact atRegister_nextOrHostRefusal fun r => writeRegister_completes r v h
  | regRead offset width => exact atRegister_nextOrHostRefusal fun r => ⟨_, rfl⟩
  | memWrite addr width v =>
    simp only [hostAccess]
    split
    · exact .inl ⟨_, rfl⟩
    · exact .inr ⟨_, rfl, .inr (.inr ⟨_, rfl⟩)⟩
  | memRead addr width =>
    simp only [hostAccess]
    split
    · exact .inl ⟨_, rfl⟩
    · exact .inr ⟨_, rfl, .inr (.inr ⟨_, rfl⟩)⟩
  | reset => exact .inl ⟨_, rfl⟩

theorem step_nextOrHostRefusal {s : State} (h : s.Inv) : NextOrHostRefusal (step s) := by
  simp only [step, nextAccess]
  split
  · exact .inl ⟨_, rfl⟩
  · exact hostAccess_nextOrHostRefusal _ (inv_host h s.arg0 s.arg1 s.arg2 _ s.hostData)

/-- Settles O60: a step is the host's next access, and every command it may run completes. -/
theorem everyStepIsSafe : Obligations.EveryStepIsSafe := by
  intro s h
  rcases step_nextOrHostRefusal h with ⟨t, ht⟩ | ⟨q, hq, hwhy⟩
  · rw [ht]
    exact ⟨nofun, nofun⟩
  · rw [hq]
    refine ⟨nofun, fun r hr => ?_⟩
    injection hr with hr
    exact hr ▸ hwhy

end Sys2Proof.Machine

/-! SUPPORT. The bytes the three editing commands may change (R60, R77). -/

namespace Sys2Proof.Machine

/-! ## One byte while frames are taken -/

/-- On the way from `s` to `u` no page has become free, and the byte at `b` is as it was unless its page was taken meanwhile. -/
structure KeepsByte (b : Word) (s u : State) : Prop where
  used : ∀ i, s.bitmap.used i = true → u.bitmap.used i = true
  byte : u.bitmap.used (pageIndex b) = s.bitmap.used (pageIndex b) → u.mem.readByte b = s.mem.readByte b

theorem KeepsByte.refl (b : Word) (s : State) : KeepsByte b s s :=
  ⟨fun _ h => h, fun _ => rfl⟩

theorem KeepsByte.trans {b : Word} {s u w : State} (h : KeepsByte b s u) (h' : KeepsByte b u w) : KeepsByte b s w where
  used i hi := h'.used i (h.used i hi)
  byte hb := by
    obtain ⟨hu, hw⟩ := used_between (h.used _) (h'.used _) hb
    exact (h'.byte hw).trans (h.byte hu)

theorem KeepsByte.of_mem_bitmap {b : Word} {s u w : State} (h : KeepsByte b s u) (hm : w.mem = u.mem) (hb : w.bitmap = u.bitmap) :
    KeepsByte b s w :=
  ⟨by rw [hb]; exact h.used, by rw [hb, hm]; exact h.byte⟩

/-- A store keeps the bytes outside its word; which byte it may hit matters only while the byte's page is not taken. -/
theorem KeepsByte.store {a b : Word} {s u : State} (h : KeepsByte b s u) (v : Word)
    (ha : u.bitmap.used (pageIndex b) = s.bitmap.used (pageIndex b) → OutsideWord a b) : KeepsByte b s (u.storeWord a v) :=
  ⟨h.used, fun hb => (readByte_writeWord_outside _ v (ha hb)).trans (h.byte hb)⟩

/-- Zeroing entries of a page in range changes no byte of another page (R72, R225). -/
theorem readByte_withZeros {u : State} (hF : u.FrameInv) {i : Nat} {zs : List Nat} (hi : i < u.totalPages) (hzs : ∀ k ∈ zs, k < 512)
    {b : Word} (hne : pageIndex b ≠ i) : (u.withZeros i zs).mem.readByte b = u.mem.readByte b :=
  readByte_zeroed_other _ (pageAddr_aligned i) hzs (by rwa [pageIndex_pageAddr hF hi])

theorem keepsByte_withZeros (b : Word) {u : State} (hF : u.FrameInv) {i : Nat} {zs : List Nat} (hi : i < u.totalPages)
    (hf : u.bitmap.used i = false) (hzs : ∀ k ∈ zs, k < 512) : KeepsByte b u (u.withZeros i zs) where
  used j hj := by rw [used_withZeros, hj, Bool.true_or]
  byte hb := by
    refine readByte_withZeros hF hi hzs fun e => ?_
    rw [e, used_withZeros, hf] at hb
    simp at hb

/-- A fresh table is a zeroed page and a link to it. -/
theorem withTable_eq_storeWord (u : State) (i : Nat) (a : Word) :
    u.withTable i a = (u.withZeros i (List.range' 0 entriesPerTable)).storeWord a (pageAddr i ||| tableFlags) := by
  simp only [State.withTable, State.withZeros, State.storeWord, zeroedPage_def]

theorem lt_of_mem_entries {k : Nat} (hk : k ∈ List.range' 0 entriesPerTable) : k < 512 := by
  simp only [entriesPerTable, List.mem_range'_1] at hk
  omega

/-- Making a table stores to the frame it takes and to the word that links it. -/
theorem keepsByte_installTable {a b : Word} {s u : State} (h : KeepsByte b s u) (hF : u.FrameInv)
    (ha : u.bitmap.used (pageIndex b) = s.bitmap.used (pageIndex b) → OutsideWord a b) :
    (installTable a u).Leaves (KeepsByte b s) := by
  cases hr : installTable a u with
  | fault f => trivial
  | busError w =>
    obtain ⟨i, zs, hi, hf, _, hzs, rfl⟩ := installTable_eq_busError hr
    exact h.trans (keepsByte_withZeros b hF hi hf hzs)
  | ok r w =>
    rcases installTable_eq_ok hF hr with ⟨_, rfl, _⟩ | ⟨i, hi, hf, _, _, rfl⟩
    · exact h
    · have hz := keepsByte_withZeros b hF hi hf fun k => lt_of_mem_entries (k := k)
      rw [withTable_eq_storeWord]
      exact (h.trans hz).store _ fun hb => ha (used_between (h.used _) (hz.used _) hb).1

/-! ## The descent below a fresh table -/

/-- In a table taken since `s` the present entries lead back to it: it was zeroed, and only its own link may lie in it. -/
structure FreshTable (s u : State) (t : Word) : Prop where
  aligned : t.toNat % 4096 = 0
  free : s.bitmap.used (pageIndex t) = false
  taken : u.bitmap.used (pageIndex t) = true
  loops : ∀ idx, present (u.mem.readWord (entryAddr t idx)) = true → frame (u.mem.readWord (entryAddr t idx)) = t

theorem freshTable_withTable {a : Word} {s u : State} (hused : ∀ i, s.bitmap.used i = true → u.bitmap.used i = true) (hF : u.FrameInv)
    {i : Nat} (hi : i < u.totalPages) (hf : u.bitmap.used i = false) (ha : a.toNat % 8 = 0) :
    FreshTable s (u.withTable i a) (pageAddr i) := by
  have hal := pageAddr_aligned i
  have hpi := pageIndex_pageAddr hF hi
  refine ⟨hal, ?_, ?_, fun idx hp => ?_⟩
  · rw [hpi]
    by_contra hs
    rw [hused i (by simpa using hs)] at hf
    cases hf
  · rw [hpi, withTable_bitmap, used_setPages]
    simp
  · rw [withTable_mem] at hp ⊢
    by_cases he : entryAddr (pageAddr i) idx = a
    · rw [he, readWord_writeWord_same]
      exact (frame_or_flags hal).1
    · rw [readWord_writeWord_other _ _ _ _ ha (entryAddr_aligned _ _ hal) he, readWord_zeroPage_same _ _ hal] at hp
      cases hp

/-- Below a fresh table the creating descent stores to frames it takes only. -/
theorem keepsByte_descendCreating_fresh {v b t : Word} {ls : List Level} {s u : State} (h : KeepsByte b s u) (hF : u.FrameInv)
    (ht : FreshTable s u t) : (descendCreating v ls t u).Leaves (KeepsByte b s) := by
  induction ls generalizing t u with
  | nil => exact h
  | cons l ls ih =>
    have hal := entryAddr_aligned t (vidx v l) ht.aligned
    have hout : u.bitmap.used (pageIndex b) = s.bitmap.used (pageIndex b) → OutsideWord (entryAddr t (vidx v l)) b := fun hb => by
      refine outsideWord_of_pageIndex hal fun e => ?_
      rw [e, pageIndex_entryAddr _ _ ht.aligned, ht.free, ht.taken] at hb
      cases hb
    refine leaves_andThen (leaves_memRead _ _ _ h) fun e w hw _ => ?_
    obtain ⟨_, _, rfl, rfl⟩ := memRead_eq_ok hw
    split
    · rw [ht.loops _ (by assumption)]
      exact ih h hF ht
    · refine leaves_andThen (keepsByte_installTable h hF hout) fun r x hx hkeep => ?_
      rcases installTable_eq_ok hF hx with ⟨rfl, rfl, _⟩ | ⟨i, hi, hf, _, rfl, rfl⟩
      · exact hkeep
      · exact ih hkeep (frameInv_withTable hF _ hi hf) (freshTable_withTable h.used hF hi hf hal)

/-! ## The descent from the root -/

/-- The creating descent from depth `n` of a path stores to the first absent entry and to frames it takes only. -/
theorem keepsByte_descendCreating {v b t : Word} {n : Nat} {s : State} (hF : s.FrameInv) (hr : s.root.toNat % 4096 = 0) (hn : n ≤ 3)
    (ht : tableAt s.mem s.root v n = some t)
    (hout : ∀ k a, k < 3 → entryOnPath s.mem s.root v k = some a → present (s.mem.readWord a) = false → OutsideWord a b) :
    (descendCreating v (nonLeafLevels.drop n) t s).Leaves (KeepsByte b s) := by
  have hs := KeepsByte.refl b s
  induction hd : 3 - n generalizing n t with
  | zero =>
    obtain rfl : n = 3 := by omega
    exact hs
  | succ d ih =>
    have hn3 : n < 3 := by omega
    have hal := entryAddr_aligned t (vidx v (levelAt n)) (tableAt_aligned hr hn ht)
    rw [drop_nonLeafLevels hn3, descendCreating]
    refine leaves_andThen (leaves_memRead _ _ _ hs) fun e w hw _ => ?_
    obtain ⟨_, _, rfl, rfl⟩ := memRead_eq_ok hw
    split
    · exact ih (by omega) (tableAt_succ_of hn3 ht (by assumption)) (by omega)
    · rename_i habs
      have hentry : entryOnPath w.mem w.root v n = some (entryAddr t (vidx v (levelAt n))) := by rw [entryOnPath, ht, Option.map_some]
      have hmade := keepsByte_installTable hs hF fun _ => hout n _ hn3 hentry (by simpa using habs)
      refine leaves_andThen hmade fun r x hx hkeep => ?_
      rcases installTable_eq_ok hF hx with ⟨rfl, rfl, _⟩ | ⟨i, hi, hf, _, rfl, rfl⟩
      · exact hkeep
      · exact keepsByte_descendCreating_fresh hkeep (frameInv_withTable hF _ hi hf)
          (freshTable_withTable (fun _ h => h) hF hi hf hal)

/-! ## The commands -/

theorem leaves_mono {α : Type} {r : CmdResult α} {P Q : State → Prop} (h : r.Leaves P) (hpq : ∀ t, P t → Q t) : r.Leaves Q := by
  cases r with
  | ok a t => exact hpq t h
  | busError t => exact hpq t h
  | fault f => trivial

/-- A command that ends after a part keeps a byte when the part and what follows it do. -/
theorem keepsByte_conclude {α : Type} {b : Word} {s t : State} {r : CmdResult α} {k : α → State → Result}
    (hr : r.Leaves (KeepsByte b s)) (hk : ∀ a u, r = .ok a u → KeepsByte b s u → k a u = .next t → KeepsByte b s t)
    (hx : r.conclude k = .next t) : KeepsByte b s t := by
  cases r with
  | ok a u => exact hk a u rfl hr hx
  | busError u => exact finish_eq_next.mp hx ▸ hr.of_mem_bitmap rfl rfl
  | fault f => cases hx

theorem keepsByte_finish {b : Word} {s t u : State} {st : Status} {r0 r1 : Word} (h : KeepsByte b s u)
    (hx : finish st r0 r1 u = .next t) : KeepsByte b s t :=
  finish_eq_next.mp hx ▸ h.of_mem_bitmap rfl rfl

/-- A command refused for its readiness keeps every byte. -/
theorem keepsByte_stateError {b : Word} {i : Instr} {s t : State} (h : stateError s i) (hx : exec i s = .next t) : KeepsByte b s t :=
  keepsByte_finish (KeepsByte.refl b s) (exec_of_stateError h ▸ hx)

theorem keepsByte_vmmUnmap {b : Word} {s t : State} (hx : exec .vmmUnmap s = .next t)
    (hleaf : ∀ u s', descend s.arg0 nonLeafLevels s.root s = .ok (some u) s' → OutsideWord (entryAddr u (vidx s.arg0 .pt)) b) :
    KeepsByte b s t := by
  have hs := KeepsByte.refl b s
  have hd : (descend s.arg0 nonLeafLevels s.root s).Leaves (KeepsByte b s) := leaves_mono (leaves_descend ..) fun u hu => hu ▸ hs
  by_cases he : stateError s .vmmUnmap
  · exact keepsByte_stateError he hx
  · simp only [exec, execVmmUnmap, Bool.eq_true_of_not_eq_false he, Bool.not_true, Bool.false_eq_true, if_false] at hx
    refine keepsByte_conclude hd (fun r u hu hkeep hend => ?_) hx
    split at hend
    · exact keepsByte_finish hkeep hend
    · have hu' := leaves_descend s.arg0 nonLeafLevels s.root s
      rw [hu] at hu'
      obtain rfl : u = s := hu'
      refine keepsByte_conclude (leaves_memWrite _ _ _ _ hs fun _ => hs.store _ fun _ => hleaf _ _ hu) (fun _ w _ hkeep hend => ?_) hend
      exact keepsByte_finish (u := tlbInvalidate (vpn w.arg0) w) (hkeep.of_mem_bitmap rfl rfl) hend

theorem keepsByte_vmmMap {b : Word} {s t : State} (hI : s.Inv) (hx : exec .vmmMap s = .next t)
    (hout : ∀ k a, k < 3 → entryOnPath s.mem s.root s.arg0 k = some a → present (s.mem.readWord a) = false → OutsideWord a b)
    (hleaf : ∀ u s', descendCreating s.arg0 nonLeafLevels s.root s = .ok (some u) s' → OutsideWord (entryAddr u (vidx s.arg0 .pt)) b) :
    KeepsByte b s t := by
  by_cases he : stateError s .vmmMap
  · exact keepsByte_stateError he hx
  · have hv : s.flag .vmmReady = true := Bool.eq_true_of_not_eq_false he
    have hd := keepsByte_descendCreating (hI.frames (hI.vmmAfterPmm hv)) hI.rootAligned (Nat.zero_le 3) (tableAt_zero _ _ _) hout
    have hm : (ptwMap s.arg0 s.arg1 s.arg2 s).Leaves (KeepsByte b s) := by
      refine leaves_andThen hd fun r u hu hkeep => ?_
      split
      · exact hkeep
      · refine leaves_andThen (leaves_memWrite _ _ _ _ hkeep fun _ => hkeep.store _ fun _ => hleaf _ _ hu) fun _ w _ hw => ?_
        exact hw.of_mem_bitmap rfl rfl
    simp only [exec, execVmmMap, hv, Bool.not_true, Bool.false_eq_true, if_false] at hx
    refine keepsByte_conclude hm (fun m u _ hkeep hx => ?_) hx
    split at hx <;> exact keepsByte_finish hkeep hx

theorem keepsByte_vmmInit {b : Word} {s t : State} (hI : s.Inv) (hx : exec .vmmInit s = .next t) : KeepsByte b s t := by
  by_cases he : stateError s .vmmInit
  · exact keepsByte_stateError he hx
  · simp only [stateError, not_or, Bool.not_eq_true, Bool.not_eq_false] at he
    obtain ⟨hv, hp⟩ := he
    have hF := hI.frames hp
    rcases pfaAllocOne_cases s with ⟨hnone, _⟩ | ⟨i, _, hi, hf, hlow⟩
    · simp only [exec, execVmmInit, hv, hp, hnone, Bool.not_true, Bool.false_eq_true, if_false, if_true] at hx
      exact keepsByte_finish (KeepsByte.refl b s) hx
    · by_cases hB : s.FrameBacked i
      · rw [vmmInit_run hF hB hp hv hi hf hlow] at hx
        have hm : (identityMap (List.range' 0 idmapPages) (s.withRoot i)).Leaves (KeepsByte b s) :=
          leaves_mono (leaves_since (since_withRoot hF hi hf) _) fun u hu => ⟨hu.used, hu.bytes b⟩
        refine keepsByte_conclude hm (fun m u _ hkeep hx => ?_) hx
        split at hx
        · exact keepsByte_finish (u := u.raiseFlag .vmmReady) (hkeep.of_mem_bitmap rfl rfl) hx
        · exact keepsByte_finish hkeep hx
      · obtain ⟨zs, hzs, hrun⟩ := vmmInit_absent hF hB hp hv hi hf hlow
        exact keepsByte_finish (keepsByte_withZeros b hF hi hf hzs) (hrun ▸ hx)

/-- Settles O39: an unmap takes no page; of the other two the byte's page is not taken. -/
theorem editorsStoreOnlyTheirEntriesAndFrames : Obligations.EditorsStoreOnlyTheirEntriesAndFrames := by
  refine ⟨fun s t b hx hleaf => (keepsByte_vmmUnmap hx hleaf).byte ?_,
    fun s t b hI hx hout hleaf => (keepsByte_vmmMap hI hx hout hleaf).byte, fun s t b hI hx => (keepsByte_vmmInit hI hx).byte⟩
  obtain ⟨_, _, hpfa, _⟩ := onlyTheNamedCommandsWriteEachElement _ s t hx
  rw [(hpfa (by decide)).1]

end Sys2Proof.Machine

/-! SUPPORT. Commands that meet missing memory (R64, R225): a walk that does, and a map or a `VMM_INIT` whose frame does. -/

namespace Sys2Proof.Machine

/-! ## A walk that meets missing memory -/

/-- Both descents only read where the tables exist and memory stands behind their entries (R73, R152). -/
theorem descents_skip {root v x : Word} {n : Nat} {s : State} (hr : root.toNat % 4096 = 0) (hn : n ≤ 3)
    (hx : tableAt s.mem root v n = some x) (hv : ∀ k a, k < n → entryOnPath s.mem root v k = some a → s.memValid a = true) :
    descend v nonLeafLevels root s = descend v (nonLeafLevels.drop n) x s ∧
      descendCreating v nonLeafLevels root s = descendCreating v (nonLeafLevels.drop n) x s := by
  induction n generalizing x with
  | zero => exact Option.some.inj hx ▸ ⟨rfl, rfl⟩
  | succ n ih =>
    obtain ⟨t, ht, hp, rfl⟩ := tableAt_succ_eq_some (by omega) hx
    obtain ⟨hd, hc⟩ := ih (by omega) ht fun k a hk => hv k a (by omega)
    have hread : memRead (entryAddr t (vidx v (levelAt n))) s = .ok (s.mem.readWord (entryAddr t (vidx v (levelAt n)))) s :=
      memRead_of_valid (entryAddr_aligned _ _ (tableAt_aligned hr (by omega) ht))
        (hv n _ (by omega) (by rw [entryOnPath, ht, Option.map_some]))
    rw [hd, hc, drop_nonLeafLevels (by omega), descend, descendCreating, hread]
    simp only [andThen_ok, hp, if_true, and_self]

/-- A path that meets missing memory at depth `n`: both descents end there, or, at depth 3, answer a leaf table whose entry is not
there (R64, R225). -/
theorem State.BusErrorAt.descents {root v : Word} {n : Nat} {s : State} (h : s.BusErrorAt root v n) (hr : root.toNat % 4096 = 0) :
    (descend v nonLeafLevels root s = .busError s ∧ descendCreating v nonLeafLevels root s = .busError s) ∨
      ∃ x, (entryAddr x (vidx v .pt)).toNat % 8 = 0 ∧ s.memValid (entryAddr x (vidx v .pt)) = false ∧
        descend v nonLeafLevels root s = .ok (some x) s ∧ descendCreating v nonLeafLevels root s = .ok (some x) s := by
  obtain ⟨hn, ⟨a, ha, habs⟩, hearlier⟩ := h
  obtain ⟨x, hx, rfl⟩ := Option.map_eq_some_iff.mp ha
  have hal := entryAddr_aligned x (vidx v (levelAt n)) (tableAt_aligned hr hn hx)
  obtain ⟨hd, hc⟩ := descents_skip hr hn hx hearlier
  by_cases hn3 : n < 3
  · refine .inl ?_
    rw [hd, hc, drop_nonLeafLevels hn3, descend, descendCreating, memRead_of_absent hal habs]
    exact ⟨rfl, rfl⟩
  · obtain rfl : n = 3 := by omega
    exact .inr ⟨x, hal, habs, hd, hc⟩

theorem State.BusErrorAt.walk_eq {root v : Word} {n : Nat} {s : State} (h : s.BusErrorAt root v n) (hr : root.toNat % 4096 = 0) :
    walk root v s = .busError s := by
  rcases h.descents hr with ⟨hd, _⟩ | ⟨x, hal, habs, hd, _⟩
  · rw [walk, hd, andThen_busError]
  · simp only [walk, hd, andThen_ok, memRead_of_absent hal habs, andThen_busError]

/-- The commands that walk from `ROOT` end there, before anything is done (R64, R225). -/
theorem exec_of_busErrorAt_root {n : Nat} {i : Instr} {s : State} (hv : s.flag .vmmReady = true) (hr : s.root.toNat % 4096 = 0)
    (h : s.BusErrorAt s.root s.arg0 n) (hi : i ∈ [Instr.vmmGetpa, .vmmUnmap, .vmmMap]) : exec i s = finish .errBus 0 0 s := by
  simp only [List.mem_cons, List.not_mem_nil, or_false] at hi
  rcases hi with rfl | rfl | rfl
  · simp only [exec, execVmmGetpa, hv, Bool.not_true, Bool.false_eq_true, if_false, h.walk_eq hr, conclude_busError]
  · simp only [exec, execVmmUnmap, hv, Bool.not_true, Bool.false_eq_true, if_false]
    rcases h.descents hr with ⟨hd, _⟩ | ⟨x, hal, habs, hd, _⟩
    · rw [hd, conclude_busError]
    · simp only [hd, conclude_ok, memWrite_of_absent hal habs, conclude_busError]
  · simp only [exec, execVmmMap, hv, Bool.not_true, Bool.false_eq_true, if_false, ptwMap]
    rcases h.descents hr with ⟨_, hc⟩ | ⟨x, hal, habs, _, hc⟩
    · rw [hc, andThen_busError, conclude_busError]
    · simp only [hc, andThen_ok, memWrite_of_absent hal habs, andThen_busError, conclude_busError]

/-- So does a `TLB_XLATE` that misses (R186, R225). -/
theorem exec_tlbXlate_of_busErrorAt {n : Nat} {s : State} (hv : s.flag .activeValid = true) (hr : s.activeRoot.toNat % 4096 = 0)
    (h : s.BusErrorAt s.activeRoot s.arg0 n) (hmiss : ∀ p ∈ s.tlb, p.1 ≠ vpn s.arg0) : exec .tlbXlate s = finish .errBus 0 0 s := by
  simp only [exec, execTlbXlate, hv, Bool.not_true, Bool.false_eq_true, if_false, find_eq_none_iff.mpr hmiss, h.walk_eq hr,
    conclude_busError]

/-! ## A table not finished -/

/-- The end of a command that left a table not finished, field by field, in terms of the state it began at. -/
theorem withZeros_done {s s' : State} {r : Word} {M : Memory} {B : Bitmap} {T : Tlb} {m : Nat}
    (h : s' = { s with root := r, mem := M, bitmap := B, usedPages := s.usedPages + BitVec.ofNat 64 m, tlb := T }) (i : Nat) (zs : List Nat) :
    (s'.withZeros i zs).done .errBus 0 0 =
      { s with status := 6#32, res0 := 0#64, res1 := 0#64, flags := s.flags ||| 8#32, root := r, mem := (s'.withZeros i zs).mem,
               bitmap := (s'.withZeros i zs).bitmap, usedPages := s.usedPages + BitVec.ofNat 64 (m + 1), tlb := T } := by
  have hsum : s'.usedPages + BitVec.ofNat 64 1 = s.usedPages + BitVec.ofNat 64 (m + 1) := by
    rw [h, BitVec.ofNat_add, BitVec.add_assoc]
  rw [← hsum, h]
  rfl

@[simp] theorem withZeros_root (s : State) (i : Nat) (zs : List Nat) : (s.withZeros i zs).root = s.root := rfl

/-- The pages taken once one more is. -/
theorem contains_take_succ {l : List Nat} {m f : Nat} (h : l[m]? = some f) (i : Nat) :
    (l.take (m + 1)).contains i = ((l.take m).contains i || decide (i = f)) := by
  rw [List.take_add_one, h, Bool.eq_iff_iff]
  simp only [Option.toList_some, List.contains_iff_mem, List.mem_append, List.mem_singleton, Bool.or_eq_true, decide_eq_true_eq]

section WithZeros

variable {s : State} {i : Nat} {zs : List Nat} (hF : s.FrameInv) (hi : i < s.totalPages) (hf : s.bitmap.used i = false)
  (hzs : ∀ k ∈ zs, k < 512)

include hF hi hf hzs

/-- The words of used pages are as before. -/
theorem readWord_withZeros {a : Word} (ha : a.toNat % 8 = 0) (hu : s.bitmap.used (pageIndex a) = true) :
    (s.withZeros i zs).mem.readWord a = s.mem.readWord a :=
  readWord_congr fun b hb => readByte_withZeros hF hi hzs fun e => by
    rw [← pageIndex_of_word ha hb, e, hf] at hu
    cases hu

variable (hT : s.TreeInv)

include hT

/-- So the tree, which lies in them, is as before. -/

theorem tableAt_withZeros {w : Word} {k : Nat} (hk : k ≤ 3) : tableAt (s.withZeros i zs).mem s.root w k = tableAt s.mem s.root w k :=
  tableAt_of_readWord hT (fun _ => readWord_withZeros hF hi hf hzs) hk

theorem leafEntry_withZeros (w : Word) : leafEntry (s.withZeros i zs).mem s.root w = leafEntry s.mem s.root w :=
  leafEntry_of_readWord hT (fun _ => readWord_withZeros hF hi hf hzs) w

end WithZeros

/-! ## A map -/

section MapAbsent

variable {v x : Word} {k m f : Nat} {zs : List Nat} {s u : State} (hc : Creates v k x m s u) (hg : s.freeList[m]? = some f)

include hc hg

/-- The next frame is still free after the tables before it. -/
theorem Creates.next_free : f < u.totalPages ∧ u.bitmap.used f = false := by
  refine mem_freeList.mp (List.mem_of_getElem? (i := 0) ?_)
  rw [hc.free, List.getElem?_drop, Nat.add_zero, hg]

variable (hzs : ∀ k ∈ zs, k < 512)

theorem Creates.used_withZeros (i : Nat) :
    (u.withZeros f zs).bitmap.used i = (s.bitmap.used i || (s.freeList.take (m + 1)).contains i) := by
  rw [Machine.used_withZeros, hc.taken, contains_take_succ hg, Bool.or_assoc]

include hzs

/-- The tables before the frame that lacks memory stay linked, each zero but for its own link (R225). -/
theorem Creates.tables_withZeros (hkm : k + m ≤ 3) {j p : Nat} (hj : j < m) (hp : s.freeList[j]? = some p) :
    (∃ y, tableAt (u.withZeros f zs).mem s.root v (k + j) = some y ∧
      (u.withZeros f zs).mem.readWord (entryAddr y (vidx v (levelAt (k + j)))) = pageAddr p ||| tableFlags) ∧
    ∀ idx, (idx ≠ vidx v (levelAt (k + j + 1)) ∨ j + 1 = m) → (u.withZeros f zs).mem.readWord (entryAddr (pageAddr p) idx) = 0 := by
  have hT := hc.grew.tree
  have hF := hc.grew.frames
  have hroot := hc.grew.root
  obtain ⟨hf, hfree⟩ := hc.next_free hg
  -- a table on the path lies in a used frame, so its words are as before
  have hword {n : Nat} {y : Word} (hn : n ≤ 3) (hy : tableAt u.mem s.root v n = some y) (idx : BitVec 9) :
      (u.withZeros f zs).mem.readWord (entryAddr y idx) = u.mem.readWord (entryAddr y idx) := by
    obtain ⟨hal, _, _, hu⟩ := hT.backed v n y hn (by rw [hroot]; exact hy)
    exact readWord_withZeros hF hf hfree hzs (entryAddr_aligned _ _ hal) (by rwa [pageIndex_entryAddr _ _ hal])
  have hat := tableAt_withZeros hF hf hfree hzs hT (w := v) (k := k + j) (by omega)
  rw [hroot] at hat
  obtain ⟨y, hy, hlink⟩ := hc.link j p hj hp
  refine ⟨⟨y, hat.trans hy, (hword (by omega) hy _).trans hlink⟩, fun idx hidx => ?_⟩
  exact (hword (by omega) (hc.table j p hj hp) idx).trans (hc.zero j p idx hj hp hidx)

/-- No byte changes outside the entry the first of them is linked in and the frames taken. -/
theorem Creates.bytes_withZeros {b : Word} (hb : m = 0 ∨ OutsideWord (entryAddr x (vidx v (levelAt k))) b)
    (hpage : (s.freeList.take (m + 1)).contains (pageIndex b) = false) : (u.withZeros f zs).mem.readByte b = s.mem.readByte b := by
  obtain ⟨hf, _⟩ := hc.next_free hg
  rw [contains_take_succ hg, Bool.or_eq_false_iff, decide_eq_false_iff_not] at hpage
  rw [readByte_withZeros hc.grew.frames hf hzs hpage.2]
  rcases hb with hm | hb
  · rw [hc.idle hm]
  · exact hc.bytes b hb hpage.1

end MapAbsent

/-- A map whose path ends at depth `k` and whose frame number `m` lacks memory, and those before it do not (R152, R225). -/
theorem vmmMap_stops {s : State} {x : Word} {k m f : Nat} (hv : s.flag .vmmReady = true) (hT : s.TreeInv) (hF : s.FrameInv)
    (hP : s.PathBacked s.root s.arg0) (hx : tableAt s.mem s.root s.arg0 k = some x)
    (habs : present (s.mem.readWord (entryAddr x (vidx s.arg0 (levelAt k)))) = false) (hkm : k + m < 3)
    (hB : ∀ p ∈ s.freeList.take m, s.FrameBacked p) (hg : s.freeList[m]? = some f) (hgB : ¬ s.FrameBacked f) :
    ∃ u zs, Creates s.arg0 k x m s u ∧ (∀ k ∈ zs, k < 512) ∧ exec .vmmMap s = finish .errBus 0 0 (u.withZeros f zs) := by
  obtain ⟨u, zs, hc, hzs, hrun⟩ := ptwMap_absent (p := s.arg1) (f := s.arg2) hT hF hP (by omega) hx habs (by omega) hB hg hgB
  refine ⟨u, zs, hc, hzs, ?_⟩
  simp only [exec, execVmmMap, hv, Bool.not_true, Bool.false_eq_true, if_false, hrun, conclude_busError]

/-! ## `VMM_INIT` -/

/-- The frame address of one of the first 4096 pages is bits 23 to 12 of it (R70, R134). -/
theorem pageAddr_vpn {v : Word} (h : v.extractLsb' 24 24 = 0#24) : pageAddr (vpn v).toNat = v &&& 0xFFF000#64 := by
  have hmask : ∀ i < 64, (0xFFF000#64).getLsbD i = (decide (12 ≤ i) && decide (i < 24)) := by decide
  apply BitVec.eq_of_getLsbD_eq
  intro i hi
  rw [pageAddr, pageSize, show 4096 = 2 ^ 12 from rfl, BitVec.getLsbD_ofNat, Nat.testBit_mul_two_pow, BitVec.testBit_toNat, vpn,
    BitVec.getLsbD_extractLsb', BitVec.getLsbD_and, hmask i hi]
  by_cases h12 : 12 ≤ i
  · by_cases h24 : i < 24
    · simp [hi, h12, h24, show i - 12 < 36 by omega]
    · have hhigh : i < 48 → v.getLsbD i = false := fun h48 => by
        have := congrArg (fun x => BitVec.getLsbD x (i - 24)) h
        simpa [show i - 24 < 24 by omega, show 24 + (i - 24) = i by omega] using this
      by_cases h48 : i < 48
      · simp [h12, hhigh h48, show 12 + (i - 12) = i by omega]
      · simp [h24, show ¬ i - 12 < 36 by omega]
  · simp [h12]

/-- A leaf table spans 512 pages, `0x200000` bytes (R70). -/
theorem pageAddr_tableSpan (n : Nat) : pageAddr (512 * n) = BitVec.ofNat 64 (n * 0x200000) :=
  congrArg (BitVec.ofNat 64) (by simp only [pageSize]; omega)

/-- `VMM_INIT` whose frame number `m` lacks memory, and those before it do not (R151, R225). -/
theorem vmmInit_stops {s : State} {m f : Nat} (hF : s.FrameInv) (hp : s.flag .pmmReady = true) (hv : s.flag .vmmReady = false)
    (h0 : 0 < m) (hm : m < 11) (hB : ∀ p ∈ s.freeList.take m, s.FrameBacked p) (hg : s.freeList[m]? = some f) (hgB : ¬ s.FrameBacked f) :
    ∃ u zs, IdStopped s m u ∧ (∀ k ∈ zs, k < 512) ∧ exec .vmmInit s = finish .errBus 0 0 (u.withZeros f zs) := by
  have hlen := length_freeList s
  have hlt := (List.getElem?_eq_some_iff.mp hg).1
  obtain ⟨i, rest, hl, hi, hf, hlow⟩ := head_lowest (s := s) (by omega)
  have hBi : s.FrameBacked i := hB i (by rw [hl, List.take_cons h0]; simp)
  obtain ⟨u, zs, hu, hzs, hrun⟩ := (identityMap_ends (by omega) (by omega) hB (idMapped_zero hF hi hf hlow) h0 (by omega)).absent
    hm f hg hgB
  refine ⟨u, zs, hu, hzs, ?_⟩
  rw [vmmInit_run hF hBi hp hv hi hf hlow, show List.range' 0 idmapPages = List.range' 0 (4096 - 0) from rfl, hrun, conclude_busError]

section InitAbsent

variable {m f : Nat} {zs : List Nat} {s u : State} (h : IdStopped s m u) (hg : s.freeList[m]? = some f) (hzs : ∀ k ∈ zs, k < 512)

include h hg

theorem IdStopped.next_free : f < u.totalPages ∧ u.bitmap.used f = false := by
  refine mem_freeList.mp (List.mem_of_getElem? (i := 0) ?_)
  rw [h.free, List.getElem?_drop, Nat.add_zero, hg]

theorem IdStopped.used_withZeros (i : Nat) :
    (u.withZeros f zs).bitmap.used i = (s.bitmap.used i || (s.freeList.take (m + 1)).contains i) := by
  rw [Machine.used_withZeros, h.taken, contains_take_succ hg, Bool.or_assoc]

include hzs

theorem IdStopped.grew_withZeros : Grew u (u.withZeros f zs) :=
  have ⟨hf, hfree⟩ := h.next_free hg
  Machine.grew_withZeros h.since.tree h.since.frames hf hfree hzs

/-- No byte changes outside the frames taken. -/
theorem IdStopped.bytes_withZeros {b : Word} (hpage : (s.freeList.take (m + 1)).contains (pageIndex b) = false) :
    (u.withZeros f zs).mem.readByte b = s.mem.readByte b := by
  rw [contains_take_succ hg, Bool.or_eq_false_iff, decide_eq_false_iff_not] at hpage
  rw [readByte_withZeros h.since.frames (h.next_free hg).1 hzs hpage.2]
  exact h.since.bytes b (by rw [h.taken, hpage.1, Bool.or_false])

end InitAbsent

/-- The pages mapped when the run stops, by their bits (R70, R151). -/
theorem IdStopped.leafEntry_bits {s u : State} {m : Nat} (h : IdStopped s m u) (hm : m < 11) (v : Word) :
    leafEntry u.mem u.root v =
      if v.extractLsb' 24 24 = 0#24 ∧ (v.extractLsb' 12 12).toNat < 512 * (m - 3) then some ((v &&& 0xFFF000#64) ||| 3#64) else none := by
  rw [h.leaves]
  by_cases h24 : v.extractLsb' 24 24 = 0#24
  · rw [pageAddr_vpn h24, (vpn_bits h24).1]
    simp only [h24, true_and]
    rfl
  · have hge := mt (vpn_lt_iff v).mp h24
    rw [if_neg (by omega), if_neg fun hc => h24 hc.1]

/-! ## The statement -/

/-- Settles O34. A walk ends at its first entry without memory; a map or a `VMM_INIT` stops with the tables it has made, and the frame
that lacks memory taken and some of it zeroed, which touches no word of a table. -/
theorem absentMemoryEndsTheCommandWithErrBus : Obligations.AbsentMemoryEndsTheCommandWithErrBus := by
  refine ⟨fun s n => ⟨fun hv hr h i hi => exec_of_busErrorAt_root hv hr h hi, fun hv hr h hmiss =>
    exec_tlbXlate_of_busErrorAt hv hr h hmiss⟩, fun s m f hI hB hg hgB => ⟨fun k x hv hT hP hx habs hkm => ?_, fun hp hv hm => ?_⟩⟩
  · have hF := hI.frames (hI.vmmAfterPmm hv)
    obtain ⟨u, zs, hc, hzs, hrun⟩ := vmmMap_stops hv hT hF hP hx habs hkm hB hg hgB
    have hroot : u.root = s.root := hc.grew.root
    obtain ⟨hf, hfree⟩ := hc.next_free hg
    have hat {w : Word} {n : Nat} (hn : n ≤ 3) := tableAt_withZeros hc.grew.frames hf hfree hzs hc.grew.tree (w := w) hn
    have hlen := (List.getElem?_eq_some_iff.mp hg).1
    refine ⟨(u.withZeros f zs).done .errBus 0 0, hrun, withZeros_done hc.rest f zs, hc.used_withZeros (zs := zs) hg, ?_⟩
    simp only [done_mem, done_root, withZeros_root, hroot] at hat ⊢
    refine ⟨fun j p hj hp => hc.tables_withZeros hg hzs (by omega) hj hp, ?_, fun w => ?_, fun b hb hpage =>
      hc.bytes_withZeros hg hzs hb hpage⟩
    · rw [hat (by omega), hc.ends hkm (by omega) hx habs]
    · rw [← hc.grew.leaves w, ← hroot]
      exact leafEntry_withZeros hc.grew.frames hf hfree hzs hc.grew.tree w
  · have hF := hI.frames hp
    rcases Nat.eq_zero_or_pos m with rfl | h0
    · obtain ⟨rest, hl⟩ := List.head?_eq_some_iff.mp (List.head?_eq_getElem?.trans hg)
      obtain ⟨hf, hfree, hlow, _⟩ := freeList_cons hl
      obtain ⟨zs, hzs, hrun⟩ := vmmInit_absent hF hgB hp hv hf hfree hlow
      have hrest : s = { s with usedPages := s.usedPages + BitVec.ofNat 64 0, tlb := s.tlb.filter fun p => decide (512 * (0 - 3) ≤ p.1.toNat) } := by
        simp
      refine ⟨(s.withZeros f zs).done .errBus 0 0, hrun, withZeros_done hrest f zs, fun i => ?_, fun _ => rfl,
        fun f0 h0 => absurd h0 (lt_irrefl 0), fun b hb => ?_⟩
      · rw [contains_take_succ hg]
        exact used_withZeros s f zs i
      · rw [contains_take_succ hg, Bool.or_eq_false_iff, decide_eq_false_iff_not] at hb
        exact readByte_withZeros hF hf hzs hb.2
    · obtain ⟨u, zs, hu, hzs, hrun⟩ := vmmInit_stops hF hp hv h0 hm hB hg hgB
      have hgrew := hu.grew_withZeros hg hzs
      refine ⟨(u.withZeros f zs).done .errBus 0 0, hrun, withZeros_done hu.rest f zs, hu.used_withZeros (zs := zs) hg, fun h => by omega,
        fun f0 _ hf0 => ⟨?_, treeInv_done hgrew.tree _ _ _, fun n p hn0 hn3 hnm hp => ?_, fun n p hnm hp => ?_, fun v => ?_⟩,
        fun b hb => hu.bytes_withZeros hg hzs hb⟩
      · have := hu.root
        rw [hf0] at this
        exact (Option.some.inj this).symm
      · exact hgrew.tables _ n _ (by omega) (hu.upper n p hn0 hnm (by omega) hp)
      · obtain ⟨q, hq, ht⟩ := hu.leafTable (512 * n) (by omega)
        rw [Nat.mul_div_cancel_left n (by decide), hp] at hq
        obtain rfl := Option.some.inj hq
        rw [← pageAddr_tableSpan]
        exact hgrew.tables _ 3 _ le_rfl ht
      · exact (hgrew.leaves v).trans (hu.leafEntry_bits hm v)

end Sys2Proof.Machine

/-! SUPPORT. The command word (R93, R96, R97) and a program as register writes and back (R103). -/

namespace Sys2Proof

/-! ## The command word -/

/-- The encoder leaves the bits above the opcode zero (R92). -/
theorem encode_eq_setWidth (i : Instr) : encode i = i.opcode.setWidth 32 := by
  cases i <;> rfl

/-- The decoder accepts one word for each command (R97). -/
theorem decode_eq_ok_iff {w : Word32} {i : Instr} : decode w = .ok i ↔ w = encode i :=
  ⟨decode_eq_ok, fun h => h ▸ decode_encode i⟩

/-- What the decoder refuses (R96). -/
theorem decode_eq_error_iff {w : Word32} :
    (∃ e, decode w = .error e) ↔ w.extractLsb' 8 24 ≠ 0#24 ∨ ∀ i : Instr, w.extractLsb' 0 8 ≠ i.opcode := by
  rw [← ofOpcode_eq_none]
  by_cases hhigh : w.extractLsb' 8 24 = 0#24
  · cases hop : Instr.ofOpcode (w.extractLsb' 0 8) <;> simp [decode, hhigh, hop]
  · simp [decode, hhigh]

/-- Settles O2: a word is accepted if it is the encoding of the command, and refused if its upper bits or its opcode say so. -/
theorem everyWordIsOneCommandOrIllegal : Obligations.EveryWordIsOneCommandOrIllegal :=
  ⟨fun _ i => encode_eq_setWidth i ▸ decode_eq_ok_iff, fun _ => decode_eq_error_iff⟩

/-- Settles O1: the fifteen words are the encodings of the commands. -/
theorem wordsOfTheOpcodeMap : Obligations.WordsOfTheOpcodeMap :=
  ⟨decode_encode .pmmInit, decode_encode .pmmAlloc, decode_encode .pmmAllocn, decode_encode .pmmFree, decode_encode .pmmFreen,
    decode_encode .pmmTotal, decode_encode .pmmUsed, decode_encode .pmmFreemem, decode_encode .vmmInit, decode_encode .vmmMap,
    decode_encode .vmmUnmap, decode_encode .vmmGetpa, decode_encode .vmmSwitch, decode_encode .tlbXlate, decode_encode .tlbInvlpg,
    by decide, by decide⟩

/-! ## The operands of a command as `ARG` writes -/

/-- Every command word is well formed, so a command is when it has its operands (R92). -/
theorem Command.wf_iff {c : Command} : c.wf = true ↔ c.args.length = c.instr.format.arity := by
  have hi : c.instr.wf = true := by cases c.instr <;> decide
  simp [Command.wf, hi]

theorem Instr.arity_le (i : Instr) : i.format.arity ≤ 3 := by
  cases i <;> decide

/-- The register the next operand goes to, after some have been written. -/
def nextArg (pending : List Word) : Option Reg :=
  [Reg.arg0, .arg1, .arg2][pending.length]?

/-- One more operand is one more write, to the next `ARG` register. -/
theorem encodeArgs_append_singleton {pending : List Word} {r : Reg} (h : nextArg pending = some r) (v : Word) :
    encodeArgs (pending ++ [v]) = encodeArgs pending ++ [.regWrite r.offset .w64 v] := by
  match pending, h with
  | [], rfl => rfl
  | [_], rfl => rfl
  | [_, _], rfl => rfl

/-! ## The reader, access by access -/

/-- The next operand is kept with those before it. -/
theorem decodeProgramFrom_arg {pending : List Word} {r : Reg} (h : nextArg pending = some r) (v : Word) (rest : List HostAccess) :
    decodeProgramFrom pending (.regWrite r.offset .w64 v :: rest) = decodeProgramFrom (pending ++ [v]) rest := by
  have hmem : r ∈ [Reg.arg0, .arg1, .arg2] := List.mem_of_getElem? h
  simp only [List.mem_cons, List.not_mem_nil, or_false] at hmem
  rcases hmem with rfl | rfl | rfl <;> exact if_pos h

/-- A `CMD` write ends a command whose operands are all there. -/
theorem decodeProgramFrom_command {pending : List Word} {i : Instr} (h : pending.length = i.format.arity) (rest : List HostAccess) :
    decodeProgramFrom pending (commandAccess (encode i) :: rest) =
      (decodeProgramFrom [] rest).map ({ instr := i, args := pending } :: ·) := by
  have hw : ((encode i).setWidth 64).setWidth 32 = encode i := by simp
  simp [decodeProgramFrom, commandAccess, atOffset_offset, hw, decode_encode, h]

/-- The reader accepts an access as the end of a command or as the next operand (R103). -/
theorem decodeProgramFrom_cons_eq_some {pending : List Word} {a : HostAccess} {rest : List HostAccess} {p : List Command}
    (h : decodeProgramFrom pending (a :: rest) = some p) :
    (∃ i q, a = commandAccess (encode i) ∧ pending.length = i.format.arity ∧ decodeProgramFrom [] rest = some q ∧
      p = { instr := i, args := pending } :: q) ∨
    ∃ r v, a = .regWrite r.offset .w64 v ∧ nextArg pending = some r ∧ decodeProgramFrom (pending ++ [v]) rest = some p := by
  cases a with
  | regWrite offset width value =>
    unfold decodeProgramFrom at h
    split at h
    · rename_i hoff
      split at h
      · rename_i i hi
        split at h
        · rename_i hcond
          obtain ⟨hvalue, hlen⟩ := hcond
          obtain ⟨q, hq, rfl⟩ := Option.map_eq_some_iff.mp h
          refine .inl ⟨i, q, ?_, hlen, hq, rfl⟩
          rw [commandAccess, ← decode_eq_ok hi, ← hvalue, atOffset_eq_some hoff]
        · cases h
      · cases h
    · rename_i r hoff
      split at h
      · rename_i hnext
        exact .inr ⟨r, value, by rw [atOffset_eq_some hoff], hnext, h⟩
      · cases h
    · cases h
  | regRead => cases h
  | memWrite => cases h
  | memRead => cases h
  | reset => cases h

/-! ## Reading back -/

/-- After the operands of a command the reader holds them. -/
theorem decodeProgramFrom_encodeArgs {args : List Word} (h : args.length ≤ 3) (rest : List HostAccess) :
    decodeProgramFrom [] (encodeArgs args ++ rest) = decodeProgramFrom args rest := by
  induction args using List.reverseRecOn generalizing rest with
  | nil => rfl
  | append_singleton pending v ih =>
    have hlen : pending.length < 3 := by simpa using h
    have hnext : nextArg pending = some [Reg.arg0, .arg1, .arg2][pending.length] := List.getElem?_eq_getElem hlen
    rw [encodeArgs_append_singleton hnext, List.append_assoc, ih hlen.le, List.singleton_append, decodeProgramFrom_arg hnext]

/-- A command's own writes are read back as that command (R103). -/
theorem decodeProgram_encode_append {c : Command} (h : c.wf = true) (rest : List HostAccess) :
    decodeProgram (c.encode ++ rest) = (decodeProgram rest).map (c :: ·) := by
  have hlen := Command.wf_iff.mp h
  rw [decodeProgram, Command.encode, List.append_assoc, decodeProgramFrom_encodeArgs (hlen ▸ Instr.arity_le _), List.singleton_append,
    decodeProgramFrom_command hlen]
  rfl

theorem decodeProgram_encodeProgram {p : List Command} (h : ∀ c ∈ p, c.wf = true) : decodeProgram (encodeProgram p) = some p := by
  induction p with
  | nil => rfl
  | cons c cs ih =>
    obtain ⟨hc, hcs⟩ := List.forall_mem_cons.mp h
    rw [encodeProgram, List.flatMap_cons, decodeProgram_encode_append hc, ← encodeProgram, ih hcs, Option.map_some]

/-- What the reader accepts is, with the operands it holds before it, the encoding of the program it answers. -/
theorem eq_encodeProgram_of_decodeProgramFrom {pending : List Word} {accesses : List HostAccess} {p : List Command}
    (h : decodeProgramFrom pending accesses = some p) :
    (∀ c ∈ p, c.wf = true) ∧ encodeArgs pending ++ accesses = encodeProgram p := by
  induction accesses generalizing pending p with
  | nil =>
    obtain ⟨hp, rfl⟩ : pending = [] ∧ [] = p := by simpa [decodeProgramFrom] using h
    exact ⟨by simp, by rw [hp]; rfl⟩
  | cons a rest ih =>
    rcases decodeProgramFrom_cons_eq_some h with ⟨i, q, rfl, hlen, hq, rfl⟩ | ⟨r, v, rfl, hnext, hp⟩
    · obtain ⟨hwf, henc⟩ := ih hq
      refine ⟨List.forall_mem_cons.mpr ⟨Command.wf_iff.mpr hlen, hwf⟩, ?_⟩
      rw [encodeProgram, List.flatMap_cons, ← encodeProgram, ← henc, Command.encode, List.append_assoc]
      rfl
    · obtain ⟨hwf, henc⟩ := ih hp
      rw [encodeArgs_append_singleton hnext, List.append_assoc] at henc
      exact ⟨hwf, henc⟩

/-- Settles O4: what the reader accepts is an encoding, by induction on the accesses, and an encoding is read back, by induction on the
program. -/
theorem programEncodingReadsBack : Obligations.ProgramEncodingReadsBack := by
  refine fun accesses p => ⟨eq_encodeProgram_of_decodeProgramFrom, ?_⟩
  rintro ⟨hwf, rfl⟩
  exact decodeProgram_encodeProgram hwf

end Sys2Proof

/-! SUPPORT. A `CMD` write as a step (R91, R96), the operands a command reads (R94), an encoded program access by access (R103, R264), and
the two equivalences of R100 that one command settles. -/

namespace Sys2Proof.Machine

/-! ## A `CMD` write -/

/-- A step takes the host's next access off its script (R91). -/
theorem step_of_script {s : State} {a : HostAccess} {rest : List HostAccess} (h : s.hostScript = a :: rest) :
    step s = hostAccess a (s.withScript rest) := by
  rw [step, nextAccess, h]

/-- A command word written to `CMD` is its command (R91). -/
theorem hostAccess_cmd {i : Instr} {v : Word} (h : decode (v.setWidth 32) = .ok i) (s : State) :
    hostAccess (.regWrite Reg.cmd.offset .w32 v) s = exec i s :=
  (hostAccess_regWrite .cmd v s).trans (by rw [writeRegister, runCommandWord, h])

/-- Any other word written to `CMD` ends with `ERR_CMD` (R96). -/
theorem hostAccess_cmd_illegal {e : DecodeError} {v : Word} (h : decode (v.setWidth 32) = .error e) (s : State) :
    hostAccess (.regWrite Reg.cmd.offset .w32 v) s = finish .errCmd 0 0 s :=
  (hostAccess_regWrite .cmd v s).trans (by rw [writeRegister, runCommandWord, h])

/-- Settles O3: the fifteen bytes listed are the opcodes, so the decoder refuses the word. -/
theorem illegalWordReportsAndChangesNothingElse : Obligations.IllegalWordReportsAndChangesNothingElse := by
  intro s v h
  obtain ⟨e, he⟩ : ∃ e, decode (v.setWidth 32) = .error e :=
    decode_eq_error_iff.mpr (h.imp_right fun hop i hi => hop (hi ▸ List.mem_map_of_mem (f := Instr.opcode) (mem_all i)))
  exact hostAccess_cmd_illegal he s

/-- Settles O5: the next access is a `CMD` write, of the given word or of the one `withFetchWord` puts there. -/
theorem stepRunsTheDecodedCommand : Obligations.StepRunsTheDecodedCommand := by
  refine ⟨fun s i v rest hscript h => ?_, fun s i => ?_⟩
  · exact (step_of_script hscript).trans (hostAccess_cmd h _)
  · have hword : decode ((BitVec.ofNat 64 ((encode i).toNat % 2 ^ 32)).setWidth 32) = .ok i := by cases i <;> decide
    exact (step_of_script rfl).trans (hostAccess_cmd hword s)

/-! ## What a command reads of the operands and the host (R94) -/

/-- Other operands and another host, and the active root there is. -/
def State.hostBeside (s : State) (a0 a1 a2 : Word) (script : List HostAccess) (d : Word) : Beside :=
  { a0, a1, a2, r := s.activeRoot, script, d }

/-- Beside other operands its format does not read, and another host, a command ends in the same way (R94). -/
theorem exec_withOperands (i : Instr) (s : State) {a0 a1 a2 : Word} (script : List HostAccess) (d : Word)
    (h0 : 1 ≤ i.format.arity → a0 = s.arg0) (h1 : 2 ≤ i.format.arity → a1 = s.arg1) (h2 : 3 ≤ i.format.arity → a2 = s.arg2) :
    exec i { s with arg0 := a0, arg1 := a1, arg2 := a2, hostScript := script, hostData := d } =
      thenRun (exec i s) fun t => .next { t with arg0 := a0, arg1 := a1, arg2 := a2, hostScript := script, hostData := d } := by
  by_cases hi : i = .vmmSwitch
  · subst hi
    obtain rfl := h0 le_rfl
    simp only [exec, execVmmSwitch]
    split <;> rfl
  · have hb := exec_beside (s.hostBeside a0 a1 a2 script d) i s h0 h1 h2 (fun _ => rfl) hi
    refine Eq.trans hb ?_
    cases hx : exec i s with
    | next t =>
      obtain ⟨_, _, _, _, hroot, _⟩ := onlyTheNamedCommandsWriteEachElement i s t hx
      simp only [besideResult, thenRun, State.beside, State.hostBeside, ← (hroot hi).1]
    | fault f => rfl
    | refused r => rfl

/-- Settles O7: what the command leaves is what it leaves beside the other operands. -/
theorem commandsReadOnlyTheirOperands : Obligations.CommandsReadOnlyTheirOperands := by
  intro i s t a0 a1 a2 d script h0 h1 h2 hx
  rw [exec_withOperands i s script d h0 h1 h2, hx, thenRun]

/-- No command writes its operands, or what the model keeps of the host (R21). -/
theorem exec_operands_kept {i : Instr} {s t : State} (hx : exec i s = .next t) :
    { t with arg0 := s.arg0, arg1 := s.arg1, arg2 := s.arg2, hostScript := s.hostScript, hostData := s.hostData } = t := by
  obtain ⟨⟨h0, h1, h2, _, hscript, hdata⟩, _⟩ := onlyTheNamedCommandsWriteEachElement i s t hx
  rw [← h0, ← h1, ← h2, ← hscript, ← hdata]

/-! ## A program access by access -/

/-- What the host will do after a command changes nothing of the command. -/
theorem exec_withScript (i : Instr) (s : State) (l : List HostAccess) :
    exec i (s.withScript l) = thenRun (exec i s) fun t => .next (t.withScript l) := by
  refine (exec_withOperands i s l s.hostData (fun _ => rfl) (fun _ => rfl) fun _ => rfl).trans ?_
  cases hx : exec i s with
  | next t => exact congrArg (fun u : State => (.next (u.withScript l) : Result)) (exec_operands_kept hx)
  | fault f => rfl
  | refused r => rfl

theorem withScript_writeArgs (s : State) (args : List Word) (l : List HostAccess) :
    (s.withScript l).writeArgs args = (s.writeArgs args).withScript l := by
  match args with
  | [] => rfl
  | [_] => rfl
  | [_, _] => rfl
  | _ :: _ :: _ :: _ => rfl

theorem transact_withScript (c : Command) (s : State) (l : List HostAccess) :
    transact c (s.withScript l) = thenRun (transact c s) fun t => .next (t.withScript l) := by
  rw [transact, withScript_writeArgs, exec_withScript, transact]

/-- Steps one after another, as the model's other runs are written; `run_eq` ties it to the host's. -/
def runSteps : Nat → State → Result
  | 0, s => .next s
  | k + 1, s => thenRun (step s) (runSteps k)

theorem run_eq (k : Nat) (s : State) : core.run k s = runSteps k s := by
  induction k generalizing s with
  | zero => rfl
  | succ k ih =>
    refine (Host.Core.run.eq_2 core s k).trans ?_
    show _ = thenRun (core.step s) (runSteps k)
    cases core.step s with
    | next t => exact ih t
    | fault f => rfl
    | refused r => rfl

theorem runSteps_one (s : State) : runSteps 1 s = step s := by
  show thenRun (step s) .next = step s
  cases step s <;> rfl

theorem runSteps_add (m n : Nat) (s : State) : runSteps (m + n) s = thenRun (runSteps m s) (runSteps n) := by
  induction m generalizing s with
  | zero => rw [Nat.zero_add]; rfl
  | succ m ih =>
    rw [Nat.add_right_comm, runSteps, runSteps]
    cases step s with
    | next t => exact ih t
    | fault f => rfl
    | refused r => rfl

/-- The `ARG` writes of at most three operands write them (R90, R103). -/
theorem runSteps_encodeArgs {args : List Word} (h : args.length ≤ 3) (s : State) (l : List HostAccess) :
    runSteps (encodeArgs args).length (s.withScript (encodeArgs args ++ l)) = .next ((s.writeArgs args).withScript l) := by
  match args with
  | [] => rfl
  | [_] => rfl
  | [_, _] => rfl
  | [_, _, _] => rfl
  | _ :: _ :: _ :: _ :: _ =>
    simp only [List.length_cons] at h
    omega

/-- As many steps as a command's encoding has accesses are its transaction (R90, R103). -/
theorem runSteps_encode {c : Command} (h : c.wf = true) (s : State) (l : List HostAccess) :
    runSteps c.encode.length (s.withScript (c.encode ++ l)) = transact c (s.withScript l) := by
  have hdec : decode (((encode c.instr).setWidth 64).setWidth 32) = .ok c.instr := by
    rw [BitVec.setWidth_setWidth_of_le _ (by decide), BitVec.setWidth_eq, decode_encode]
  rw [Command.encode, List.length_append, runSteps_add, List.append_assoc, runSteps_encodeArgs (Command.wf_iff.mp h ▸ Instr.arity_le _)]
  calc runSteps 1 ((s.writeArgs c.args).withScript (commandAccess (encode c.instr) :: l)) = step _ := runSteps_one _
    _ = exec c.instr ((s.writeArgs c.args).withScript l) := (step_of_script rfl).trans (hostAccess_cmd hdec _)
    _ = transact c (s.withScript l) := by rw [transact, withScript_writeArgs]

theorem runSteps_encodeProgram {p : List Command} (h : ∀ c ∈ p, c.wf = true) (s : State) (l : List HostAccess) :
    runSteps (encodeProgram p).length (s.withScript (encodeProgram p ++ l)) = runProgram p (s.withScript l) := by
  induction p generalizing s with
  | nil => rfl
  | cons c cs ih =>
    obtain ⟨hc, hcs⟩ := List.forall_mem_cons.mp h
    rw [encodeProgram, List.flatMap_cons, ← encodeProgram, List.length_append, runSteps_add, List.append_assoc,
      runSteps_encode hc, runProgram, transact_withScript, transact_withScript]
    cases transact c s with
    | next t => exact ih hcs t
    | fault f => rfl
    | refused r => rfl

/-- Settles O6, by induction on the program: a command's outcome does not depend on the accesses still to come. -/
theorem runOfAnEncodedProgramIsItsCommands : Obligations.RunOfAnEncodedProgramIsItsCommands :=
  fun p rest s h => (run_eq (encodeProgram p).length _).trans (runSteps_encodeProgram h s rest)

/-! ## Equivalent commands -/

/-- A run of one page is that page (R129). -/
theorem exec_pmmFreen_one {s : State} (h : s.arg1 = 1#64) : exec .pmmFreen s = exec .pmmFree s := by
  simp [exec, execPmmFreen, execPmmFree, h, Nat.lt_succ_iff]

/-- Settles O25: a run of one page is that page, and `PMM_FREE` does not read the `ARG1` that differs. -/
theorem freeOneIsFreeARunOfOne : Obligations.FreeOneIsFreeARunOfOne := by
  intro s t a hx
  calc transact { instr := .pmmFreen, args := [a, 1#64] } s = exec .pmmFree { s with arg0 := a, arg1 := 1#64 } := exec_pmmFreen_one rfl
    _ = thenRun (exec .pmmFree { s with arg0 := a }) fun u =>
          .next { u with arg0 := a, arg1 := 1#64, arg2 := s.arg2, hostScript := s.hostScript, hostData := s.hostData } :=
      exec_withOperands .pmmFree { s with arg0 := a } _ _ (fun _ => rfl) (absurd · (by decide)) fun _ => rfl
    _ = .next { t with arg1 := 1#64 } := by
      rw [show exec .pmmFree { s with arg0 := a } = .next t from hx]
      exact congrArg (fun u : State => (.next { u with arg1 := 1#64 } : Result)) (exec_operands_kept hx)

/-- A bit that is set stays as it is (R25). -/
theorem raise_of_set {b : FlagBit} {flags : Word32} (h : flags.getLsbD b.position = true) : b.raise flags = flags := by
  apply BitVec.eq_of_getLsbD_eq
  intro k _
  rw [getLsbD_raise]
  by_cases hk : k = b.position
  · simp [hk, h]
  · simp [hk]

/-- Settles O56: the expansion switches to the root that is active already, which is aligned. -/
theorem tlbFlushEmptiesTheCache : Obligations.TlbFlushEmptiesTheCache := by
  intro s hI
  refine ⟨fun hv => ?_, fun hv => by rw [runPseudo, hv]; rfl⟩
  have hoff : voff s.activeRoot = 0 := (voff_eq_zero_iff _).mpr hI.activeRootAligned
  have hflags : FlagBit.activeValid.raise s.flags = s.flags := raise_of_set hv
  have hsw : transact { instr := .vmmSwitch, args := [s.activeRoot] } s =
      finish .ok 0 0 (tlbFlush ((State.setActiveRoot { s with arg0 := s.activeRoot } s.activeRoot).raiseFlag .activeValid)) :=
    if_neg (not_not.mpr hoff)
  rw [runPseudo, hv, if_pos rfl, hsw, State.raiseFlag, setActiveRoot_flags, hflags]
  rfl

end Sys2Proof.Machine

/-! SUPPORT. The frame allocator's commands one by one: what each does in every state its checks let through (R120 to R134). -/

namespace Sys2Proof.Machine

/-! ## One page, one run -/

theorem used_setPages_one (b : Bitmap) (i j : Nat) : (b.setPages i 1).used j = (b.used j || decide (j = i)) := by
  rw [used_setPages, ← Bool.decide_and, decide_eq_decide.mpr (show i ≤ j ∧ j < i + 1 ↔ j = i by omega)]

theorem used_clearPages_one (b : Bitmap) (i j : Nat) : (b.clearPages i 1).used j = (b.used j && decide (j ≠ i)) := by
  rw [used_clearPages, ← Bool.decide_and, ← decide_not, decide_eq_decide.mpr (show ¬ (i ≤ j ∧ j < i + 1) ↔ j ≠ i by omega)]

/-- A run is not wholly free exactly when one of its pages is used. -/
theorem runFree_eq_false_iff {b : Bitmap} {f c : Nat} : b.runFree f c = false ↔ ∃ j, f ≤ j ∧ j < f + c ∧ b.used j = true := by
  simp [← Bool.not_eq_true, runFree_iff]

/-! ## Passing the checks -/

theorem pmmReady_not_stateError {i : Instr} {s : State} (hp : s.flag .pmmReady = true)
    (hi : i ∈ [Instr.pmmAlloc, .pmmAllocn, .pmmFree, .pmmFreen]) : ¬ stateError s i := by
  cases i <;> simp [stateError, hp] at hi ⊢

/-- A command that is ready and ends `OK` passed its range check (R222, R224). -/
theorem not_rangeError_of_ok {i : Instr} {s t : State} (hs : ¬ stateError s i) (hx : exec i s = .next t) (hok : t.status = 0#32) :
    ¬ rangeError s i := by
  intro hr
  rw [exec_of_rangeError hs hr, finish_eq_next] at hx
  rw [← hx, done_status] at hok
  exact absurd hok (by decide)

/-! ## The commands that pass their checks -/

theorem exec_pmmInit_ok {s : State} (hp : s.flag .pmmReady = false) (hsize : 0x1000000 ≤ s.arg0.toNat) :
    exec .pmmInit s = finish .ok 0 0 (s.initFrames s.arg0.toNat) := by
  rw [exec, execPmmInit, hp, if_neg Bool.false_ne_true, if_neg (Nat.not_lt.mpr hsize)]

theorem exec_pmmAlloc_lowest {s : State} {i : Nat} (hp : s.flag .pmmReady = true) (ha : pageAddr i ≠ 0) (hi : i < s.totalPages)
    (hfree : s.bitmap.used i = false) (hlow : ∀ j < i, s.bitmap.used j = true) :
    exec .pmmAlloc s = finish .ok (pageAddr i) 0 (s.takePages i 1) := by
  simp only [exec, execPmmAlloc, hp, Bool.not_true, Bool.false_eq_true, if_false, pfaAllocOne_of_lowest s i hi hfree hlow, if_neg ha]

theorem exec_pmmAlloc_full {s : State} (hp : s.flag .pmmReady = true) (hfull : ∀ j < s.totalPages, s.bitmap.used j = true) :
    exec .pmmAlloc s = finish .fail 0 0 s := by
  simp only [exec, execPmmAlloc, hp, Bool.not_true, Bool.false_eq_true, if_false, pfaAllocOne_of_full s hfull, if_true]

theorem exec_pmmAllocn_lowest {s : State} {f : Nat} (hp : s.flag .pmmReady = true) (hn : s.arg0 ≠ 0)
    (hr : f + s.arg0.toNat ≤ s.totalPages) (hfree : ∀ j, f ≤ j → j < f + s.arg0.toNat → s.bitmap.used j = false)
    (hlow : ∀ g < f, ∃ j, g ≤ j ∧ j < g + s.arg0.toNat ∧ s.bitmap.used j = true) :
    exec .pmmAllocn s = finish .ok (pageAddr f) 0 (s.takePages f s.arg0.toNat) := by
  have hf : s.findRun s.arg0.toNat = some f :=
    (findRun_eq_some s _ f).mpr ⟨hr, (runFree_iff _ _ _).mpr hfree, fun g hg => runFree_eq_false_iff.mpr (hlow g hg)⟩
  simp only [exec, execPmmAllocn, hp, Bool.not_true, Bool.false_eq_true, if_false, if_neg hn, hf]

theorem exec_pmmAllocn_none {s : State} (hp : s.flag .pmmReady = true) (hn : s.arg0 ≠ 0)
    (hno : ∀ f, f + s.arg0.toNat ≤ s.totalPages → ∃ j, f ≤ j ∧ j < f + s.arg0.toNat ∧ s.bitmap.used j = true) :
    exec .pmmAllocn s = finish .fail 0 0 s := by
  have hf : s.findRun s.arg0.toNat = none := (findRun_eq_none s _).mpr fun f hr => runFree_eq_false_iff.mpr (hno f hr)
  simp only [exec, execPmmAllocn, hp, Bool.not_true, Bool.false_eq_true, if_false, if_neg hn, hf]

theorem exec_pmmFree_inRange {s : State} (hp : s.flag .pmmReady = true) (hlow : 4096 ≤ pageIndex s.arg0)
    (hhigh : pageIndex s.arg0 < s.totalPages) : exec .pmmFree s = finish .ok 0 0 (s.releasePages (pageIndex s.arg0) 1) := by
  have hin : ¬(pageIndex s.arg0 < reservedPages ∨ s.totalPages ≤ pageIndex s.arg0) := not_or.mpr ⟨hlow.not_gt, hhigh.not_ge⟩
  simp only [exec, execPmmFree, hp, Bool.not_true, Bool.false_eq_true, if_false, if_neg hin]

theorem exec_pmmFreen_zero {s : State} (hp : s.flag .pmmReady = true) (hn : s.arg1 = 0) : exec .pmmFreen s = finish .ok 0 0 s := by
  simp only [exec, execPmmFreen, hp, Bool.not_true, Bool.false_eq_true, if_false, if_pos hn]

theorem exec_pmmFreen_inRange {s : State} (hp : s.flag .pmmReady = true) (hn : s.arg1 ≠ 0) (hlow : 4096 ≤ pageIndex s.arg0)
    (hhigh : pageIndex s.arg0 + s.arg1.toNat ≤ s.totalPages) :
    exec .pmmFreen s = finish .ok 0 0 (s.releasePages (pageIndex s.arg0) s.arg1.toNat) := by
  have hin : ¬(pageIndex s.arg0 < reservedPages ∨ s.totalPages < pageIndex s.arg0 + s.arg1.toNat) :=
    not_or.mpr ⟨hlow.not_gt, hhigh.not_gt⟩
  simp only [exec, execPmmFreen, hp, Bool.not_true, Bool.false_eq_true, if_false, if_neg hn, if_neg hin]

/-- A `PMM_FREE` that ends `OK` freed a page in range (R128). -/
theorem exec_pmmFree_of_ok {s t : State} (hp : s.flag .pmmReady = true) (hx : exec .pmmFree s = .next t) (hok : t.status = 0#32) :
    4096 ≤ pageIndex s.arg0 ∧ pageIndex s.arg0 < s.totalPages ∧ t = (s.releasePages (pageIndex s.arg0) 1).done .ok 0 0 := by
  obtain ⟨hlow, hhigh⟩ := not_or.mp (not_rangeError_of_ok (i := .pmmFree) (pmmReady_not_stateError hp (by simp)) hx hok)
  rw [Nat.not_lt] at hlow
  rw [Nat.not_le] at hhigh
  rw [exec_pmmFree_inRange hp hlow hhigh, finish_eq_next] at hx
  exact ⟨hlow, hhigh, hx.symm⟩

/-- A `PMM_FREEN` of some pages that ends `OK` freed a run in range (R129). -/
theorem exec_pmmFreen_of_ok {s t : State} (hp : s.flag .pmmReady = true) (hn : s.arg1 ≠ 0) (hx : exec .pmmFreen s = .next t)
    (hok : t.status = 0#32) :
    4096 ≤ pageIndex s.arg0 ∧ pageIndex s.arg0 + s.arg1.toNat ≤ s.totalPages ∧
      t = (s.releasePages (pageIndex s.arg0) s.arg1.toNat).done .ok 0 0 := by
  have hin := not_rangeError_of_ok (i := .pmmFreen) (pmmReady_not_stateError hp (by simp)) hx hok
  obtain ⟨hlow, hhigh⟩ := not_or.mp fun h => hin ⟨Nat.pos_of_ne_zero (BitVec.toNat_ne_iff_ne.mpr hn), h⟩
  rw [Nat.not_lt] at hlow hhigh
  rw [exec_pmmFreen_inRange hp hn hlow hhigh, finish_eq_next] at hx
  exact ⟨hlow, hhigh, hx.symm⟩

/-! ## Initialisation and the queries -/

/-- Settles O19: the two checks, then `initFrames`, whose free pages `used_forMemory` lists. -/
theorem pmmInit : Obligations.PmmInit := by
  intro s
  refine ⟨fun hp => exec_of_stateError (i := .pmmInit) hp, fun hp hsmall => ?_, fun hp hsize => ?_⟩
  · have hready : ¬ stateError s .pmmInit := by simp [stateError, hp]
    exact exec_of_argError hready hsmall
  · refine ⟨(s.initFrames s.arg0.toNat).done .ok 0 0, exec_pmmInit_ok hp hsize, rfl, ?_, fun i => ?_⟩
    · have hlt := s.arg0.isLt
      rw [done_totalBlocks, initFrames_totalBlocks, BitVec.toNat_ofNat, blockBytes]
      omega
    · rw [done_bitmap, initFrames_bitmap, used_forMemory]
      simp

/-- Settles O26: the queries have no check. -/
theorem queriesAnswerByteCounts : Obligations.QueriesAnswerByteCounts :=
  fun _ => ⟨rfl, rfl, rfl⟩

/-- Before `PMM_INIT` there are no blocks (R37); after it their pages have 64-bit addresses (R120). -/
theorem totalBlocks_lt {s : State} (h : s.Inv) : s.totalBlocks.toNat < 2 ^ 47 := by
  cases hp : s.flag .pmmReady with
  | true => exact (h.frames hp).blocksFit
  | false => simp [(h.beforePmm hp).1]

/-- `USED_PAGES` never exceeds the pages there are (R29). -/
theorem usedPages_le_totalPages {s : State} (h : s.Inv) : s.usedPages.toNat ≤ s.totalPages := by
  cases hp : s.flag .pmmReady with
  | true => exact (h.frames hp).counted ▸ countUsed_le _ _ _
  | false => simp [(h.beforePmm hp).2.1]

/-- Settles O27: the products fit 64 bits and the difference does not go below 0. -/
theorem usedPlusFreeIsTotal : Obligations.UsedPlusFreeIsTotal := by
  intro s hI
  have hfit := totalBlocks_lt hI
  have hle : s.usedPages.toNat ≤ s.totalBlocks.toNat * 32 := usedPages_le_totalPages hI
  obtain ⟨ht, hu, hf⟩ := queriesAnswerByteCounts s
  have htotal : (s.totalBlocks * 131072#64).toNat = s.totalBlocks.toNat * 131072 := by
    rw [BitVec.toNat_mul, BitVec.toNat_ofNat]
    omega
  have hused : (s.usedPages * 4096#64).toNat = s.usedPages.toNat * 4096 := by
    rw [BitVec.toNat_mul, BitVec.toNat_ofNat]
    omega
  have hfreemem : ((s.totalBlocks * 32#64 - s.usedPages) * 4096#64).toNat =
      (s.totalBlocks.toNat * 32 - s.usedPages.toNat) * 4096 := by
    rw [BitVec.toNat_mul, BitVec.toNat_sub, BitVec.toNat_mul, BitVec.toNat_ofNat, BitVec.toNat_ofNat]
    omega
  refine ⟨_, _, _, ht, hu, hf, rfl, rfl, rfl, htotal, hused, hle, hfreemem, ?_, fun hp => ?_⟩
  · show (s.usedPages * 4096#64).toNat + ((s.totalBlocks * 32#64 - s.usedPages) * 4096#64).toNat = (s.totalBlocks * 131072#64).toNat
    omega
  · obtain ⟨hb, hn, -⟩ := hI.beforePmm hp
    simp [hb, hn]

/-! ## Allocation -/

/-- Settles O20: the page found is free, so its address is not the 0 that stands for none. -/
theorem pmmAllocTakesTheLowestFreePage : Obligations.PmmAllocTakesTheLowestFreePage := by
  refine ⟨fun s hp => exec_of_stateError (i := .pmmAlloc) hp, fun s hI hp => ⟨fun i hi hfree hlow => ?_, exec_pmmAlloc_full hp⟩⟩
  have ha : pageAddr i ≠ 0 := pageAddr_ne_zero (hI.frames hp) hi hfree
  exact ⟨(s.takePages i 1).done .ok (pageAddr i) 0, exec_pmmAlloc_lowest hp ha hi hfree hlow, rfl, used_setPages_one s.bitmap i⟩

/-- Settles O21: the scan finds `f` exactly when `f` starts the lowest run. -/
theorem pmmAllocnTakesTheLowestRun : Obligations.PmmAllocnTakesTheLowestRun := by
  refine ⟨fun s hp => exec_of_stateError (i := .pmmAllocn) hp, fun s hp hn => ?_, fun s hp hn => ⟨fun f hr hfree hlow => ?_,
    exec_pmmAllocn_none hp hn⟩⟩
  · exact exec_of_argError (pmmReady_not_stateError hp (by simp)) hn
  · refine ⟨(s.takePages f s.arg0.toNat).done .ok (pageAddr f) 0, exec_pmmAllocn_lowest hp hn hr hfree hlow, ?_,
      used_setPages s.bitmap f s.arg0.toNat⟩
    have hcount : s.usedPages + s.arg0 = s.usedPages + BitVec.ofNat 64 s.arg0.toNat := by rw [BitVec.ofNat_toNat, BitVec.setWidth_eq]
    rw [hcount]
    rfl

/-! ## Release -/

/-- Settles O23: a run of one page counts 1 if it was used and 0 if not. -/
theorem pmmFree : Obligations.PmmFree := by
  refine ⟨fun s hp => exec_of_stateError (i := .pmmFree) hp, fun s hp => ⟨fun hlow hhigh => ?_, fun hr => ?_⟩⟩
  · refine ⟨(s.releasePages (pageIndex s.arg0) 1).done .ok 0 0, exec_pmmFree_inRange hp hlow hhigh, ?_, used_clearPages_one s.bitmap _⟩
    have hcount : (s.releasePages (pageIndex s.arg0) 1).usedPages =
        if s.bitmap.used (pageIndex s.arg0) then s.usedPages - 1#64 else s.usedPages := by
      rw [releasePages_usedPages, countUsed_one]
      split <;> simp
    exact congrArg (fun n => { (s.releasePages (pageIndex s.arg0) 1).done .ok 0 0 with usedPages := n }) hcount
  · exact exec_of_rangeError (pmmReady_not_stateError hp (by simp)) hr

/-- Settles O24: the count of 0 stands before the range check, and `releasePages` counts the used pages of the run. -/
theorem pmmFreenIsAllOrNothing : Obligations.PmmFreenIsAllOrNothing := by
  refine ⟨fun s hp => exec_of_stateError (i := .pmmFreen) hp, fun s hp => ⟨exec_pmmFreen_zero hp, fun hn hlow hhigh => ?_,
    fun hn hr => ?_⟩⟩
  · exact ⟨(s.releasePages (pageIndex s.arg0) s.arg1.toNat).done .ok 0 0, exec_pmmFreen_inRange hp hn hlow hhigh, rfl,
      used_clearPages s.bitmap _ _⟩
  · exact exec_of_rangeError (pmmReady_not_stateError hp (by simp)) ⟨Nat.pos_of_ne_zero (BitVec.toNat_ne_iff_ne.mpr hn), hr⟩

/-- Settles O22: what was freed is free and in range, so it is the lowest page, or run, that the scan can find. -/
theorem freedFramesComeBack : Obligations.FreedFramesComeBack := by
  refine ⟨fun s t a hI hp hx hok hlow => ?_, fun s t a n hI hp hn hx hok hlow => ?_⟩
  · obtain ⟨hge, hlt, rfl⟩ := exec_pmmFree_of_ok (s := { s with arg0 := a }) hp hx hok
    have hF : (s.releasePages (pageIndex a) 1).FrameInv := frameInv_releasePages (hI.frames hp) hge hlt
    have hfree : (s.bitmap.clearPages (pageIndex a) 1).used (pageIndex a) = false := by simp [used_clearPages_one]
    have hbelow : ∀ j < pageIndex a, (s.bitmap.clearPages (pageIndex a) 1).used j = true := by
      intro j hj
      rw [used_clearPages_one, hlow j hj, decide_eq_true hj.ne, Bool.and_self]
    exact ⟨_, exec_pmmAlloc_lowest hp (pageAddr_ne_zero hF hlt hfree) hlt hfree hbelow, rfl, rfl⟩
  · obtain ⟨-, hr, rfl⟩ := exec_pmmFreen_of_ok (s := { s with arg0 := a, arg1 := n }) hp hn hx hok
    have hfree : ∀ j, pageIndex a ≤ j → j < pageIndex a + n.toNat → (s.bitmap.clearPages (pageIndex a) n.toNat).used j = false := by
      intro j hj hj'
      rw [used_clearPages, decide_eq_true hj, decide_eq_true hj', Bool.and_self, Bool.not_true, Bool.and_false]
    exact ⟨_, exec_pmmAllocn_lowest hp hn hr hfree hlow, rfl, rfl⟩

end Sys2Proof.Machine

/-! SUPPORT. What becomes of the tables and leaf entries at `ROOT` under every command (R160, R164). -/

namespace Sys2Proof.Machine

/-- Once `VMM_READY`, only `VMM_MAP` and `VMM_UNMAP` touch the words of memory or `ROOT`: `VMM_INIT`, the one other command that writes
either, is refused (R30, R77, R151). -/
theorem exec_mem_root {i : Instr} {s t : State} (hm : i ≠ .vmmMap) (hu : i ≠ .vmmUnmap) (hv : s.flag .vmmReady = true)
    (hx : exec i s = .next t) : t.mem = s.mem ∧ t.root = s.root := by
  by_cases hi : i = .vmmInit
  · subst hi
    rw [exec_of_stateError (i := .vmmInit) (Or.inl hv), finish_eq_next] at hx
    exact hx ▸ ⟨rfl, rfl⟩
  · exact Prod.mk.inj <| exec_untouched (f := fun u => (u.mem, u.root))
      { store := fun h => by simp [storing, hi, hm, hu] at h
        newRoot := fun h => absurd h hi } hx

/-- An unmap, whatever it ends with, moves no table, and where it ends `OK` the page has no leaf entry (R159, R164). -/
theorem exec_vmmUnmap_entries {s t : State} (hv : s.flag .vmmReady = true) (hT : s.TreeInv) (hx : exec .vmmUnmap s = .next t) :
    t.root = s.root ∧ (∀ v n, n ≤ 3 → tableAt t.mem s.root v n = tableAt s.mem s.root v n) ∧
      ∀ v, leafEntry t.mem s.root v = if t.status = 0#32 ∧ vpn v = vpn s.arg0 then none else leafEntry s.mem s.root v := by
  rcases exec_vmmUnmap_cases hv hx with ⟨u, hu, rfl⟩ | ⟨hnone, rfl⟩ | rfl
  · refine ⟨rfl, fun v n hn => tableAt_leafWrite hT hu 0 hn, fun v => ?_⟩
    have hleaf := leafEntry_leafWrite hT hu 0 v
    rw [not_present_zero, if_neg Bool.false_ne_true] at hleaf
    refine hleaf.trans (if_congr ?_ rfl rfl)
    exact eq_comm.trans (and_iff_right rfl).symm
  · refine ⟨rfl, fun _ _ _ => rfl, fun v => ?_⟩
    split
    · rename_i h
      exact (leafEntry_congr h.2).trans (leafEntry_of_none hnone)
    · rfl
  · exact ⟨rfl, fun _ _ _ => rfl, fun v => (if_neg fun h => absurd h.1 (show ¬ Status.errBus.code = 0#32 by decide)).symm⟩

/-- A map, whatever it ends with, moves no table, and where it ends `OK` the page's leaf entry is `phys | flags` (R152, R164). -/
theorem exec_vmmMap_entries {s t : State} (hv : s.flag .vmmReady = true) (hT : s.TreeInv) (hF : s.FrameInv)
    (hx : exec .vmmMap s = .next t) :
    t.root = s.root ∧ (∀ v n x, n ≤ 3 → tableAt s.mem s.root v n = some x → tableAt t.mem s.root v n = some x) ∧
      ∀ v, leafEntry t.mem s.root v =
        if t.status = 0#32 ∧ vpn v = vpn s.arg0 then (if present (s.arg1 ||| s.arg2) then some (s.arg1 ||| s.arg2) else none)
        else leafEntry s.mem s.root v := by
  rcases exec_vmmMap_cases hv hT hF hx with ⟨u, hu, rfl⟩ | ⟨u, st, hu, rfl, hst⟩
  · refine ⟨hu.root, hu.tables, fun v => (hu.leaves v).trans (if_congr ?_ rfl rfl)⟩
    exact eq_comm.trans (and_iff_right rfl).symm
  · exact ⟨hu.root, hu.tables, fun v => (hu.leaves v).trans (if_neg fun h => hst h.1).symm⟩

/-- Settles O46: a map and an unmap move no table and change their own page's leaf entry when they end `OK`; no other command writes a
word of memory or `ROOT`. -/
theorem entriesChangeOnlyUnderMapAndUnmap : Obligations.EntriesChangeOnlyUnderMapAndUnmap := by
  intro i s t hI hv hT hx
  by_cases hm : i = .vmmMap
  · subst hm
    obtain ⟨hroot, htables, hleaves⟩ := exec_vmmMap_entries hv hT (hI.frames (hI.vmmAfterPmm hv)) hx
    rw [hroot]
    refine ⟨rfl, htables, fun v => (hleaves v).trans (if_congr ?_ (if_congr ?_ rfl rfl) rfl)⟩
    · simp [vpn]
    · simp [present]
  · by_cases hu : i = .vmmUnmap
    · subst hu
      obtain ⟨hroot, htables, hleaves⟩ := exec_vmmUnmap_entries hv hT hx
      rw [hroot]
      refine ⟨rfl, fun v n x hn h => (htables v n hn).trans h, fun v => (hleaves v).trans (if_congr ?_ ?_ rfl)⟩
      · simp [vpn]
      · simp
    · obtain ⟨hmem, hroot⟩ := exec_mem_root hm hu hv hx
      rw [hmem, hroot]
      exact ⟨rfl, fun _ _ _ _ h => h, fun v => (if_neg fun h => h.2.2.elim hm hu).symm⟩

end Sys2Proof.Machine

/-! SUPPORT. `VMM_GETPA` and `VMM_SWITCH` whole (R161, R163), and the root each command works on (R150, R180). -/

namespace Sys2Proof.Machine

/-! ## `VMM_GETPA` and `VMM_SWITCH` -/

/-- `VMM_GETPA` along a backed path answers what memory holds for the page (R161). -/
theorem exec_vmmGetpa_backed {s : State} (hv : s.flag .vmmReady = true) (hr : s.root.toNat % 4096 = 0)
    (hP : s.PathBacked s.root s.arg0) :
    (∀ e, leafEntry s.mem s.root s.arg0 = some e → exec .vmmGetpa s = finish .ok (translate e s.arg0) 0 s) ∧
      (leafEntry s.mem s.root s.arg0 = none → exec .vmmGetpa s = finish .fail 0 0 s) := by
  obtain ⟨w, hw, hleaf⟩ := walk_backed hr hP
  simp only [exec, execVmmGetpa, hv, Bool.not_true, Bool.false_eq_true, if_false, hw, conclude_ok]
  cases w with
  | absent => exact ⟨fun e he => (nomatch hleaf.symm.trans he), fun _ => rfl⟩
  | found e a => exact ⟨fun e' he => by rw [Option.some.inj (hleaf.symm.trans he)], fun hnone => nomatch hleaf.symm.trans hnone⟩

/-- Settles O32: the walk along a backed path finds the leaf entry memory holds. -/
theorem vmmGetpaAnswersTheWalk : Obligations.VmmGetpaAnswersTheWalk := by
  refine ⟨fun s hv => exec_of_stateError (i := .vmmGetpa) hv, fun s hv hr hP => ?_⟩
  obtain ⟨hfound, habsent⟩ := exec_vmmGetpa_backed hv hr hP
  refine ⟨fun e he => ?_, habsent⟩
  rw [hfound e he, translate_eq]
  rfl

/-- Settles O42: the offset of the operand decides, and no element but the named ones is written. -/
theorem vmmSwitch : Obligations.VmmSwitch := by
  refine fun s => ⟨fun h => ?_, fun h => exec_of_argError (i := .vmmSwitch) not_false h⟩
  exact if_neg (not_not.mpr ((voff_eq_zero_iff_bits s.arg0).mpr h))

/-! ## The root each command works on -/

/-- A part of a command that only reads, over another state. -/
def CmdResult.over {α : Type} (u : State) : CmdResult α → CmdResult α
  | .ok a _ => .ok a u
  | .busError _ => .busError u
  | .fault f => .fault f

theorem over_andThen {α β : Type} {s u : State} {r : CmdResult α} {k : α → State → CmdResult β} (hr : r.Leaves (· = s))
    (hk : ∀ a, k a u = (k a s).over u) : (r.over u).andThen k = (r.andThen k).over u := by
  cases r with
  | ok a t =>
    obtain rfl : t = s := hr
    exact hk a
  | busError t => rfl
  | fault f => rfl

section SameMemory

variable {s u : State} (hm : u.mem = s.mem) (hc : u.cfg = s.cfg)

include hm hc

theorem memRead_over (a : Word) : memRead a u = (memRead a s).over u := by
  unfold memRead
  rw [State.memValid, hc, hm, ← State.memValid]
  split
  · rfl
  · split <;> rfl

theorem descend_over (v : Word) (ls : List Level) (t : Word) : descend v ls t u = (descend v ls t s).over u := by
  induction ls generalizing t with
  | nil => rfl
  | cons l ls ih =>
    rw [descend, descend, memRead_over hm hc]
    refine over_andThen (leaves_memRead _ _ _ rfl) fun e => ?_
    split
    · exact ih _
    · rfl

/-- A walk depends on memory alone (R73, R161, R186). -/
theorem walk_over (root v : Word) : walk root v u = (walk root v s).over u := by
  rw [walk, walk, descend_over hm hc]
  refine over_andThen (leaves_descend v nonLeafLevels root s) fun r => ?_
  cases r with
  | none => rfl
  | some t =>
    simp only [memRead_over hm hc]
    exact over_andThen (leaves_memRead _ _ _ rfl) fun e => rfl

end SameMemory

/-- `s` with another active root. -/
def State.besideRoot (s : State) (r : Word) : Beside :=
  { a0 := s.arg0, a1 := s.arg1, a2 := s.arg2, r, script := s.hostScript, d := s.hostData }

/-- A command that neither reads nor writes `ACTIVE_ROOT` does the same beside another one (R150). -/
theorem exec_withActiveRoot {i : Instr} {s t : State} (r : Word) (hx : i ≠ .tlbXlate) (hsw : i ≠ .vmmSwitch) (h : exec i s = .next t) :
    exec i { s with activeRoot := r } = .next { t with activeRoot := r } := by
  have hb : exec i (s.beside (s.besideRoot r)) = besideResult (s.besideRoot r) (exec i s) :=
    exec_beside _ i s (fun _ => rfl) (fun _ => rfl) (fun _ => rfl) (fun h => absurd h hx) hsw
  refine hb.trans ?_
  rw [h, ← exec_operands_kept h]
  rfl

/-- Where a walk stands in a command, the command ends over the changed state as over the one given: the walk reads memory alone, and
the change touches nothing that `done` writes. -/
theorem conclude_walk_map (g : State → State) (hdone : ∀ st r0 r1 x, (g x).done st r0 r1 = g (x.done st r0 r1)) {s t : State}
    (hm : (g s).mem = s.mem) (hc : (g s).cfg = s.cfg) {root v : Word} {k : Walk → State → Result}
    (hk : ∀ w, k w s = .next t → k w (g s) = .next (g t)) (h : (walk root v s).conclude k = .next t) :
    (walk root v (g s)).conclude k = .next (g t) := by
  have hl := leaves_walk root v s
  rw [walk_over hm hc]
  cases hw : walk root v s with
  | ok w u =>
    rw [hw] at h hl
    obtain rfl : u = s := hl
    exact hk w h
  | busError u =>
    rw [hw] at h hl
    obtain rfl : u = s := hl
    exact finish_eq_next.mpr ((hdone _ _ _ _).trans (congrArg g (finish_eq_next.mp h)))
  | fault f => rw [hw] at h; cases h

/-- The state with another cache. -/
def State.withTlb (c : Tlb) (s : State) : State :=
  { s with tlb := c }

/-- The state with another root and another frame allocator. -/
def State.withRootAndPfa (r n u : Word) (b : Bitmap) (s : State) : State :=
  { s with root := r, totalBlocks := n, usedPages := u, bitmap := b }

/-- `VMM_GETPA` does not depend on the cache (R161). -/
theorem exec_vmmGetpa_withTlb {s t : State} (c : Tlb) (h : exec .vmmGetpa s = .next t) :
    exec .vmmGetpa (s.withTlb c) = .next (t.withTlb c) := by
  have hmap {st r0 r1} (h : finish st r0 r1 s = .next t) : finish st r0 r1 (s.withTlb c) = .next (t.withTlb c) :=
    finish_eq_next.mp h ▸ rfl
  simp only [exec, execVmmGetpa] at h ⊢
  rw [show (s.withTlb c).flag .vmmReady = s.flag .vmmReady from rfl]
  split at h
  · rw [if_pos (by assumption)]
    exact hmap h
  · rw [if_neg (by assumption)]
    refine conclude_walk_map (State.withTlb c) (fun _ _ _ _ => rfl) rfl rfl (fun w hw => ?_) h
    cases w with
    | absent => exact hmap hw
    | found e a => exact hmap hw

/-- `TLB_XLATE` does not depend on `ROOT` or on the frame allocator (R180, R186). -/
theorem exec_tlbXlate_withRootAndPfa {s t : State} (r n u : Word) (b : Bitmap) (h : exec .tlbXlate s = .next t) :
    exec .tlbXlate (s.withRootAndPfa r n u b) = .next (t.withRootAndPfa r n u b) := by
  have hmap {st r0 r1} {x : State} (h : finish st r0 r1 x = .next t) :
      finish st r0 r1 (x.withRootAndPfa r n u b) = .next (t.withRootAndPfa r n u b) := finish_eq_next.mp h ▸ rfl
  simp only [exec, execTlbXlate] at h ⊢
  rw [show (s.withRootAndPfa r n u b).flag .activeValid = s.flag .activeValid from rfl,
    show (s.withRootAndPfa r n u b).tlb = s.tlb from rfl]
  split at h
  · rw [if_pos (by assumption)]
    exact hmap h
  · rw [if_neg (by assumption)]
    cases hf : s.tlb.find (vpn s.arg0) with
    | some e =>
      rw [hf] at h
      rw [show (s.withRootAndPfa r n u b).arg0 = s.arg0 from rfl, hf]
      exact hmap h
    | none =>
      rw [hf] at h
      rw [show (s.withRootAndPfa r n u b).arg0 = s.arg0 from rfl, hf]
      refine conclude_walk_map (State.withRootAndPfa r n u b) (fun _ _ _ _ => rfl) rfl rfl (fun w hw => ?_) h
      cases w with
      | absent => exact hmap hw
      | found e a => exact hmap (x := tlbFill (vpn s.arg0) e s) hw

/-- Settles O44: what the commands read of the two roots, the cache and the frame allocator. -/
theorem whichRootEachCommandUses : Obligations.WhichRootEachCommandUses := by
  refine fun s t r n u c b => ⟨fun i hi h => ?_, exec_vmmGetpa_withTlb c, exec_tlbXlate_withRootAndPfa r n u b⟩
  have hne : i ≠ .tlbXlate ∧ i ≠ .vmmSwitch :=
    (by decide : ∀ i ∈ [Instr.vmmInit, .vmmMap, .vmmUnmap, .vmmGetpa], i ≠ .tlbXlate ∧ i ≠ .vmmSwitch) i hi
  exact exec_withActiveRoot r hne.1 hne.2 h

end Sys2Proof.Machine

/-! SUPPORT. `VMM_UNMAP` whole (R159), and `VMM_MAP` where the tables exist (R154), where the frames for the missing ones do (R152) and
where they do not (R155). -/

namespace Sys2Proof.Machine

/-! ## Where the three tables exist, and where an unmap finds one absent -/

/-- Along a backed path the leaf entry can be written (R64). -/
theorem memWrite_leaf {s : State} {v u : Word} (hr : s.root.toNat % 4096 = 0) (hP : s.PathBacked s.root v)
    (hu : tableAt s.mem s.root v 3 = some u) (x : Word) :
    memWrite (entryAddr u (vidx v .pt)) x s = .ok () (s.storeWord (entryAddr u (vidx v .pt)) x) := by
  have hvalid : s.memValid (entryAddr u (vidx v .pt)) = true := pathBacked_entry (n := 3) hP le_rfl hu
  exact memWrite_of_valid (entryAddr_aligned _ _ (tableAt_aligned hr le_rfl hu)) hvalid

section Backed

variable {s : State} {u : Word} (hv : s.flag .vmmReady = true) (hr : s.root.toNat % 4096 = 0) (hP : s.PathBacked s.root s.arg0)

include hv hr hP

/-- An unmap where an intermediate table is absent does nothing (R159). -/
theorem exec_vmmUnmap_absent (hnone : tableAt s.mem s.root s.arg0 3 = none) : exec .vmmUnmap s = finish .ok 0 0 s := by
  simp only [exec, execVmmUnmap, hv, Bool.not_true, Bool.false_eq_true, if_false, descend_backed hr hP, hnone, conclude_ok]

variable (hu : tableAt s.mem s.root s.arg0 3 = some u)

include hu

/-- An unmap where the three tables exist writes 0 into the leaf entry (R159). -/
theorem exec_vmmUnmap_table :
    exec .vmmUnmap s = finish .ok 0 0 (tlbInvalidate (vpn s.arg0) (s.storeWord (entryAddr u (vidx s.arg0 .pt)) 0)) := by
  simp only [exec, execVmmUnmap, hv, Bool.not_true, Bool.false_eq_true, if_false, descend_backed hr hP, hu, conclude_ok,
    memWrite_leaf hr hP hu]
  rfl

/-- A map where the three tables exist writes `phys | flags` into the leaf entry (R154). -/
theorem exec_vmmMap_table : exec .vmmMap s =
    finish .ok 0 0 (tlbInvalidate (vpn s.arg0) (s.storeWord (entryAddr u (vidx s.arg0 .pt)) (s.arg1 ||| s.arg2))) := by
  have hd : descendCreating s.arg0 nonLeafLevels s.root s = .ok (some u) s :=
    descendCreating_present (by rw [descend_backed hr hP, hu])
  simp only [exec, execVmmMap, hv, Bool.not_true, Bool.false_eq_true, if_false, ptwMap, hd, andThen_ok, memWrite_leaf hr hP hu,
    conclude_ok, if_true]

end Backed

/-- Settles O35: the descent along a backed path, then one write or none. -/
theorem vmmUnmapClearsOneEntry : Obligations.VmmUnmapClearsOneEntry := by
  refine ⟨fun s hv => exec_of_stateError (i := .vmmUnmap) hv, fun s hv hr hP => ⟨exec_vmmUnmap_absent hv hr hP, fun u hu => ?_⟩⟩
  exact ⟨_, exec_vmmUnmap_table hv hr hP hu, rfl, readWord_writeWord_same _ _ _, fun b hb => readByte_writeWord_outside _ _ hb⟩

/-- Settles O36: the descent creates nothing, so the leaf write is all there is. -/
theorem vmmMapOverwritesTheLeaf : Obligations.VmmMapOverwritesTheLeaf := fun _ _ hv hr hP hu =>
  ⟨_, exec_vmmMap_table hv hr hP hu, rfl, readWord_writeWord_same _ _ _, fun _ hb => readByte_writeWord_outside _ _ hb⟩

/-! ## Where tables are missing -/

/-- A leaf write changes no other word of the tables on its path (R152). -/
theorem readWord_leafWrite_other {s : State} {v t y : Word} {n : Nat} {idx : BitVec 9} (hT : s.TreeInv)
    (ht : tableAt s.mem s.root v 3 = some t) (x : Word) (hn : n ≤ 3) (hy : tableAt s.mem s.root v n = some y)
    (hidx : n = 3 → idx ≠ vidx v .pt) :
    (s.storeWord (entryAddr t (vidx v .pt)) x).mem.readWord (entryAddr y idx) = s.mem.readWord (entryAddr y idx) := by
  rcases Nat.lt_or_eq_of_le hn with hlt | rfl
  · exact readWord_leafWrite_nonLeaf hT ht x hlt hy idx
  · obtain rfl := Option.some.inj (ht.symm.trans hy)
    have hal := (hT.backed v 3 t le_rfl ht).1
    exact readWord_writeWord_other _ _ _ _ (entryAddr_aligned _ _ hal) (entryAddr_aligned _ _ hal) fun e =>
      hidx rfl (entryAddr_inj hal hal e).2

/-- Memory stands behind the frames the allocator hands out. -/
theorem frameBacked_of_mem_freeList {s : State} (hF : s.FrameInv) (hB : s.RangeBacked) {p : Nat} (hp : p ∈ s.freeList) :
    s.FrameBacked p :=
  frameBacked_of_range hF hB (mem_freeList.mp hp).1

section Missing

variable {s : State} {x : Word} {k : Nat} (hI : s.Inv) (hv : s.flag .vmmReady = true) (hT : s.TreeInv) (hB : s.RangeBacked) (hk : k < 3)
  (hx : tableAt s.mem s.root s.arg0 k = some x)
  (habs : present (s.mem.readWord (entryAddr x (vidx s.arg0 (levelAt k)))) = false)

include hI hv hT hB hk hx habs

/-- A map with the frames it lacks: `3 - k` tables are created, then the leaf is written (R152). -/
theorem exec_vmmMap_creates (hfree : 3 - k ≤ s.freePages) :
    ∃ u f, Creates s.arg0 k x (3 - k) s u ∧ s.freeList[2 - k]? = some f ∧ tableAt u.mem u.root s.arg0 3 = some (pageAddr f) ∧
      exec .vmmMap s = finish .ok 0 0
        (tlbInvalidate (vpn s.arg0) (u.storeWord (entryAddr (pageAddr f) (vidx s.arg0 .pt)) (s.arg1 ||| s.arg2))) := by
  have hF := hI.frames (hI.vmmAfterPmm hv)
  obtain ⟨u, f, hc, hf, hleaf, hrun⟩ := ptwMap_creates (p := s.arg1) (f := s.arg2) hT hF (pathBacked_tree hT hB _) hk hx habs hfree
    fun p hp => frameBacked_of_mem_freeList hF hB (List.mem_of_mem_take hp)
  refine ⟨u, f, hc, hf, hleaf, ?_⟩
  simp only [exec, execVmmMap, hv, Bool.not_true, Bool.false_eq_true, if_false, hrun, conclude_ok, if_true]

/-- A map without them: as many tables are created as there are frames (R155). -/
theorem exec_vmmMap_fails (hfree : s.freePages < 3 - k) :
    ∃ u, Creates s.arg0 k x s.freePages s u ∧ exec .vmmMap s = finish .fail 0 0 u := by
  have hF := hI.frames (hI.vmmAfterPmm hv)
  obtain ⟨u, hc, hrun⟩ := ptwMap_fails (p := s.arg1) (f := s.arg2) hT hF (pathBacked_tree hT hB _) hk hx habs hfree
    fun p => frameBacked_of_mem_freeList hF hB
  refine ⟨u, hc, ?_⟩
  simp only [exec, execVmmMap, hv, Bool.not_true, Bool.false_eq_true, if_false, hrun, conclude_ok]

end Missing

/-- Settles O37: the tables the descent created, under a leaf write that touches one word of the last of them. -/
theorem vmmMapCreatesTheMissingTables : Obligations.VmmMapCreatesTheMissingTables := by
  intro s k x hI hv hT hB hk hx habs hfree
  obtain ⟨u, f, hc, hf, hleaf, hrun⟩ := exec_vmmMap_creates hI hv hT hB hk hx habs hfree
  have hg := hc.grew
  have hroot := hg.root
  have hat {n : Nat} (hn : n ≤ 3) := tableAt_leafWrite hg.tree hleaf (s.arg1 ||| s.arg2) (w := s.arg0) hn
  have hword {n : Nat} {y : Word} {idx : BitVec 9} (hn : n ≤ 3) (hy : tableAt u.mem u.root s.arg0 n = some y) :=
    readWord_leafWrite_other (idx := idx) hg.tree hleaf (s.arg1 ||| s.arg2) hn hy
  refine ⟨_, hrun, ?_, hc.taken, fun j p hj hp => ⟨?_, fun idx hidx => ?_⟩, ⟨_, (hat le_rfl).trans hleaf, readWord_writeWord_same _ _ _⟩,
    fun b hb hpage => ?_⟩
  · rw [hc.rest]
    rfl
  · obtain ⟨y, hy, hlink⟩ := hc.link j p hj hp
    rw [← hroot] at hy
    exact ⟨y, (hat (by omega)).trans hy, (hword (by omega) hy (by omega)).trans hlink⟩
  · have hy := hc.table j p hj hp
    rw [← hroot] at hy
    refine (hword (by omega) hy fun h3 => ?_).trans (hc.zero j p idx hj hp (.inl hidx))
    rwa [h3] at hidx
  · have hfb : pageIndex b ≠ pageIndex (pageAddr f) := by
      intro e
      have hlt := (mem_freeList.mp (List.mem_of_getElem? hf)).1
      rw [e, pageIndex_pageAddr (hI.frames (hI.vmmAfterPmm hv)) hlt, Bool.eq_false_iff, ne_eq, List.contains_iff_mem] at hpage
      exact hpage (List.mem_of_getElem? (i := 2 - k) (by rw [List.getElem?_take_of_lt (by omega), hf]))
    refine (readByte_writeWord_outside _ _ (outsideWord_of_pageIndex ?_ ?_)).trans (hc.bytes b hb hpage)
    · exact entryAddr_aligned _ _ (pageAddr_aligned f)
    · rwa [pageIndex_entryAddr _ _ (pageAddr_aligned f)]

/-- Settles O38: the tables the descent created, and the path ends below the last of them. -/
theorem vmmMapThatRunsOutKeepsItsTables : Obligations.VmmMapThatRunsOutKeepsItsTables := by
  intro s k x hI hv hT hB hk hx habs hfree
  obtain ⟨u, hc, hrun⟩ := exec_vmmMap_fails hI hv hT hB hk hx habs hfree
  have hroot := hc.grew.root
  have hlen := length_freeList s
  have hall : s.freeList.take s.freePages = s.freeList := by rw [← hlen, List.take_length]
  have hlt {j p : Nat} (hp : s.freeList[j]? = some p) : j < s.freePages := hlen ▸ (List.getElem?_eq_some_iff.mp hp).1
  refine ⟨_, hrun, ?_, fun i => ?_, fun j p hp => ⟨?_, fun idx hidx => hc.zero j p idx (hlt hp) hp hidx⟩, ?_, fun h0 b => ?_,
    fun b hb hpage => hc.bytes b hb (by rwa [hall])⟩
  · rw [hc.rest]
    rfl
  · rw [← hall]
    exact hc.taken i
  · obtain ⟨y, hy, hlink⟩ := hc.link j p (hlt hp) hp
    rw [← hroot] at hy
    exact ⟨y, hy, hlink⟩
  · have hend := hc.ends (by omega) hlen.ge hx habs
    rw [← hroot] at hend
    exact tableAt_none (by omega) le_rfl hend
  · rw [done_mem, hc.idle h0]

end Sys2Proof.Machine

/-! SUPPORT. `VMM_INIT` with memory behind the range: with the eleven frames it needs, and without them (R151). -/

namespace Sys2Proof.Machine

/-- The path to a page depends on the page number only (R71). -/
theorem tableAt_vpn_congr {m : Memory} {r v w : Word} (n : Nat) (h : vpn v = vpn w) : tableAt m r v n = tableAt m r w n :=
  tableAt_congr fun l _ => (vpn_eq_iff v w).mp h l

/-- Once every page is mapped, the path of each of them leads through the frames two, three and the one of its leaf table (R151). -/
theorem IdMapped.path_tables {s u : State} (h : IdMapped s 4096 u) {v : Word} (hv : (vpn v).toNat < 4096) :
    (∀ n, n = 1 ∨ n = 2 → ∃ p, s.freeList[n]? = some p ∧ tableAt u.mem u.root v n = some (pageAddr p)) ∧
      ∃ p, s.freeList[3 + (vpn v).toNat / 512]? = some p ∧ tableAt u.mem u.root v 3 = some (pageAddr p) := by
  have hpage (n : Nat) : tableAt u.mem u.root v n = tableAt u.mem u.root (pageAddr (vpn v).toNat) n :=
    tableAt_vpn_congr n (BitVec.eq_of_toNat_eq (vpn_pageAddr hv).symm)
  refine ⟨fun n hn => ?_, ?_⟩
  · obtain ⟨p, hp, ht⟩ := h.upper (by omega) n hn
    exact ⟨p, hp, (hpage n).trans ((tableAt_congr (same_upper_tables hv (by omega) (by omega))).trans ht)⟩
  · obtain ⟨p, hp, ht⟩ := h.leafTable _ hv
    exact ⟨p, hp, (hpage 3).trans ht⟩

/-- The pages mapped once the run is done, by their bits (R70, R151). -/
theorem IdMapped.leafEntry_bits {s u : State} (h : IdMapped s 4096 u) (v : Word) :
    leafEntry u.mem u.root v = if v.extractLsb' 24 24 = 0#24 then some ((v &&& 0xFFF000#64) ||| 3#64) else none := by
  rw [h.leaves]
  by_cases hlow : v.extractLsb' 24 24 = 0#24
  · rw [if_pos ((vpn_lt_iff v).mpr hlow), if_pos hlow, pageAddr_vpn hlow]
    rfl
  · rw [if_neg (mt (vpn_lt_iff v).mp hlow), if_neg hlow]

section Init

variable {s : State} (hI : s.Inv) (hp : s.flag .pmmReady = true) (hv : s.flag .vmmReady = false) (hB : s.RangeBacked)

include hI hp hv hB

/-- With a free page `VMM_INIT` maps under it, as far as the first `m` frames go. -/
theorem exec_vmmInit_run {m : Nat} (h0 : 0 < m) (hm : m ≤ 11) (hle : m ≤ s.freePages) :
    ∃ f r, s.freeList[0]? = some f ∧ IdEnds s m r ∧
      exec .vmmInit s = r.conclude fun mapped u =>
        if mapped then finish .ok (pageAddr f) 0 (u.raiseFlag .vmmReady) else finish .fail 0 0 u := by
  have hF := hI.frames hp
  obtain ⟨f, rest, hl, hf, hfree, hlow⟩ := head_lowest (s := s) (by omega)
  refine ⟨f, _, by rw [hl, List.getElem?_cons_zero], ?_, vmmInit_run hF (frameBacked_of_range hF hB hf) hp hv hf hfree hlow⟩
  exact identityMap_ends hm hle (fun p hp => frameBacked_of_mem_freeList hF hB (List.mem_of_mem_take hp))
    (idMapped_zero hF hf hfree hlow) h0 (by omega)

/-- With eleven free frames every page is mapped (R151). -/
theorem exec_vmmInit_maps (hfree : 11 ≤ s.freePages) :
    ∃ u, IdMapped s 4096 u ∧ exec .vmmInit s = finish .ok u.root 0 (u.raiseFlag .vmmReady) := by
  obtain ⟨f, r, hf, hends, hrun⟩ := exec_vmmInit_run hI hp hv hB (by omega) le_rfl hfree
  obtain ⟨u, rfl, hu⟩ := hends.done rfl
  have hroot := hu.root
  rw [hf] at hroot
  exact ⟨u, hu, Option.some.inj hroot ▸ hrun⟩

/-- With some free frames but fewer, the run stops at the last of them (R151). -/
theorem exec_vmmInit_runsOut (h0 : 0 < s.freePages) (hfew : s.freePages < 11) :
    ∃ u, IdStopped s s.freePages u ∧ exec .vmmInit s = finish .fail 0 0 u := by
  obtain ⟨f, r, hf, hends, hrun⟩ := exec_vmmInit_run hI hp hv hB h0 hfew.le le_rfl
  obtain ⟨u, rfl, hu⟩ := hends.fails hfew rfl
  exact ⟨u, hu, hrun⟩

end Init

/-- With no free frame nothing is done (R151). -/
theorem exec_vmmInit_full {s : State} (hp : s.flag .pmmReady = true) (hv : s.flag .vmmReady = false) (hfull : s.freePages = 0) :
    exec .vmmInit s = finish .fail 0 0 s := by
  have hnil : s.freeList = [] := List.length_eq_zero_iff.mp ((length_freeList s).trans hfull)
  simp only [exec, execVmmInit, hp, hv, Bool.not_true, Bool.false_eq_true, if_false, pfaAllocOne_of_full s (freeList_eq_nil.mp hnil),
    if_true]

/-- Settles O40: what the run of maps leaves once all 4096 pages are mapped, and `VMM_READY`. -/
theorem vmmInitBuildsTheIdentityMap : Obligations.VmmInitBuildsTheIdentityMap := by
  intro s hI hp hv hB hfree
  obtain ⟨u, hu, hrun⟩ := exec_vmmInit_maps hI hp hv hB hfree
  have hlen := length_freeList s
  have hget (j : Nat) (hj : j < 11) : s.freeList[j]? = some (s.freeList.getD j 0) := by
    rw [List.getD_eq_getElem?_getD, List.getElem?_eq_getElem (by omega), Option.getD_some]
  have hroot : u.root = pageAddr (s.freeList.getD 0 0) := by
    have h := hu.root
    rw [hget 0 (by decide)] at h
    exact (Option.some.inj h).symm
  have htable {n : Nat} (hn : n < 11) {v : Word} {k : Nat}
      (h : ∃ p, s.freeList[n]? = some p ∧ tableAt u.mem u.root v k = some (pageAddr p)) :
      tableAt u.mem u.root v k = some (pageAddr (s.freeList.getD n 0)) := by
    obtain ⟨p, hp, ht⟩ := h
    rwa [Option.some.inj ((hget n hn).symm.trans hp)]
  refine ⟨_, fun j => s.freeList.getD j 0, hget, hrun, ?_, hu.taken, treeInv_congr hu.since.tree rfl rfl rfl fun _ h => h,
    fun v hlow => ?_, hu.leafEntry_bits, fun b hb => ?_⟩
  · have hrest := hu.rest
    rw [hroot] at hrest
    rw [hrest]
    rfl
  · have hpage := (vpn_lt_iff v).mpr hlow
    obtain ⟨hupper, hleaf⟩ := hu.path_tables hpage
    rw [(vpn_bits hlow).2]
    exact ⟨htable (by decide) (hupper 1 (.inl rfl)), htable (by decide) (hupper 2 (.inr rfl)), htable (by omega) hleaf⟩
  · refine hu.since.bytes b ?_
    rw [hu.taken, show tablesFor 4096 = 11 from rfl, hb, Bool.or_false]

/-- Settles O41: what the run of maps leaves when it stops at the last free frame. -/
theorem vmmInitThatRunsOut : Obligations.VmmInitThatRunsOut := by
  refine fun s hI hp hv hB => ⟨exec_vmmInit_full hp hv, fun h0 hfew => ?_⟩
  obtain ⟨u, hu, hrun⟩ := exec_vmmInit_runsOut hI hp hv hB h0 hfew
  have hlen := length_freeList s
  have hall : s.freeList.take s.freePages = s.freeList := by rw [← hlen, List.take_length]
  have hused (i : Nat) : u.bitmap.used i = (s.bitmap.used i || s.freeList.contains i) := by rw [hu.taken, hall]
  have hlt {j p : Nat} (hp : s.freeList[j]? = some p) : j < s.freePages := hlen ▸ (List.getElem?_eq_some_iff.mp hp).1
  obtain ⟨f0, hf0, hroot⟩ := Option.map_eq_some_iff.mp hu.root
  refine ⟨_, f0, hf0, hrun, ?_, hused, ?_, treeInv_done hu.since.tree _ _ _, fun n p hn0 hn3 hn => ?_, fun n p hn => ?_,
    hu.leafEntry_bits hfew, fun b hb => ?_⟩
  · have hrest := hu.rest
    rw [← hroot] at hrest
    rw [hrest]
    rfl
  · show u.freePages = 0
    rw [← length_freeList, hu.free, List.length_drop, hlen, Nat.sub_self]
  · exact hu.upper n p hn0 (hlt hn) (by omega) hn
  · have hn' := hlt hn
    obtain ⟨q, hq, ht⟩ := hu.leafTable (512 * n) (by omega)
    rw [Nat.mul_div_cancel_left n (by decide), hn] at hq
    rw [← pageAddr_tableSpan]
    exact Option.some.inj hq ▸ ht
  · exact hu.since.bytes b (by rw [hused, hb, Bool.or_false])

end Sys2Proof.Machine

/-! SUPPORT. Programs on the tree at `ROOT`: what a map or an unmap wrote, a later query answers (R165, R258). -/

namespace Sys2Proof.Machine

/-- A ready state with R39 and memory behind the range, in which `e` is mapped at the page of `v`. -/
structure MapsTo (v : Word) (e : Option Word) (s : State) : Prop where
  inv : s.Inv
  ready : s.flag .vmmReady = true
  tree : s.TreeInv
  backed : s.RangeBacked
  leaf : leafEntry s.mem s.root v = e

/-- In a ready state the parameters are admissible: `TOTAL_BLOCKS` lies between 128 and `MAX_BLOCKS` (R7, R29). -/
theorem cfg_wf_of_ready {s : State} (hI : s.Inv) (hv : s.flag .vmmReady = true) : s.cfg.wf = true := by
  have hF := hI.frames (hI.vmmAfterPmm hv)
  exact decide_eq_true (hF.blocksLow.trans hF.blocksHigh)

/-- The operands of a transaction are no part of the tree (R90). -/
theorem MapsTo.writeArgs {v : Word} {e : Option Word} {s : State} (h : MapsTo v e s) (args : List Word) : MapsTo v e (s.writeArgs args) := by
  have hargs (a0 a1 a2 : Word) : MapsTo v e { s with arg0 := a0, arg1 := a1, arg2 := a2 } :=
    ⟨inv_host h.inv a0 a1 a2 s.hostScript s.hostData, h.ready, treeInv_congr h.tree rfl rfl rfl fun _ h => h, h.backed, h.leaf⟩
  match args with
  | [] => exact h
  | [a] => exact hargs a s.arg1 s.arg2
  | [a, b] => exact hargs a b s.arg2
  | a :: b :: c :: _ => exact hargs a b c

/-- Once set, `VMM_READY` stays (R25): a second `VMM_INIT` is refused. -/
theorem exec_vmmReady_kept {i : Instr} {s t : State} (hv : s.flag .vmmReady = true) (hx : exec i s = .next t) :
    t.flag .vmmReady = true := by
  by_cases hi : i = .vmmInit
  · subst hi
    rw [exec_of_stateError (i := .vmmInit) (Or.inl hv), finish_eq_next] at hx
    rw [← hx, flag_done (by decide), hv]
  · rw [exec_flag (b := .vmmReady) (by decide) (fun e => hi (Option.some.inj e).symm) hx, hv]

/-- A command that spares the tables leaves a ready state with its tree; what it leaves at the page is R164's to say. -/
theorem MapsTo.exec {v : Word} {e : Option Word} {i : Instr} {s t : State} (h : MapsTo v e s) (hx : exec i s = .next t)
    (hs : t.status = 0#32 → s.SparesTables i) : MapsTo v (leafEntry t.mem t.root v) t := by
  obtain ⟨hIt, hcfg⟩ := exec_inv h.inv (cfg_wf_of_ready h.inv h.ready) hx
  have hpages := (exec_beyond (h.inv.vmmAfterPmm h.ready) hx).1
  refine ⟨hIt, exec_vmmReady_kept h.ready hx, commandsKeepTheTree i s t h.inv h.ready h.tree hx hs, fun a h8 hlt => ?_, rfl⟩
  rw [hpages] at hlt
  rw [State.memValid, hcfg]
  exact h.backed a h8 hlt

/-- A transaction that is no map or unmap of the page keeps what is mapped there (R164). -/
theorem MapsTo.transact {v : Word} {e : Option Word} {c : Command} {s t : State} (h : MapsTo v e s) (hx : transact c s = .next t)
    (hs : t.status = 0#32 → (s.writeArgs c.args).SparesTables c.instr)
    (hother : c.instr = .vmmMap ∨ c.instr = .vmmUnmap → vpn v ≠ vpn (s.writeArgs c.args).arg0) : MapsTo v e t := by
  have hw := h.writeArgs c.args
  obtain ⟨_, _, hleaf⟩ := entriesChangeOnlyUnderMapAndUnmap c.instr _ t hw.inv hw.ready hw.tree hx
  have hkept := hleaf v
  rw [if_neg fun hc => hother hc.2.2 hc.2.1, hw.leaf] at hkept
  exact hkept ▸ hw.exec hx hs

/-- The first operand of a transaction is what `ARG0` holds (R90). -/
theorem writeArgs_arg0 (s : State) {args : List Word} {a : Word} (h : args.head? = some a) : (s.writeArgs args).arg0 = a := by
  match args, h with
  | [_], rfl => rfl
  | [_, _], rfl => rfl
  | _ :: _ :: _ :: _, rfl => rfl

/-- `VMM_MAP` and `VMM_UNMAP` name a page in their first operand (R92, R153, R159). -/
theorem head_of_wf {c : Command} (h : c.wf = true) (hc : c.instr = .vmmMap ∨ c.instr = .vmmUnmap) : ∃ a, c.args.head? = some a := by
  have hlen := Command.wf_iff.mp h
  cases ha : c.args with
  | nil =>
    rw [ha] at hlen
    rcases hc with hc | hc <;> rw [hc] at hlen <;> cases hlen
  | cons a rest => exact ⟨a, rfl⟩

/-- A program without a map or unmap of the page keeps what is mapped there (R165). -/
theorem MapsTo.runProgram {v : Word} {e : Option Word} {cs : List Command} {s t : State} (h : MapsTo v e s)
    (hcs : ∀ c ∈ cs, c.wf = true ∧ (c.instr = .vmmMap ∨ c.instr = .vmmUnmap → ∀ a, c.args.head? = some a → vpn a ≠ vpn v))
    (hs : sparesTables cs s) (hx : runProgram cs s = .next t) : MapsTo v e t := by
  induction cs generalizing s with
  | nil =>
    injection hx with hx
    exact hx ▸ h
  | cons c cs ih =>
    obtain ⟨⟨hwf, hpage⟩, hcs⟩ := List.forall_mem_cons.mp hcs
    rw [Machine.runProgram] at hx
    cases hc : Machine.transact c s with
    | next u =>
      rw [hc] at hx
      obtain ⟨hspare, hrest⟩ := hs u hc
      refine ih (h.transact hc hspare fun hedit => ?_) hcs hrest hx
      obtain ⟨a, ha⟩ := head_of_wf hwf hedit
      rw [writeArgs_arg0 s ha]
      exact (hpage hedit a ha).symm
    | fault f => rw [hc] at hx; cases hx
    | refused r => rw [hc] at hx; cases hx

/-- A query of an address of the page answers what is mapped there (R161). -/
theorem MapsTo.query {v v' : Word} {e : Option Word} {s : State} (h : MapsTo v e s) (hv' : vpn v' = vpn v) :
    ∃ u, Machine.transact { instr := .vmmGetpa, args := [v'] } s = .next u ∧
      match e with
      | some x => u.status = 0#32 ∧ u.res0 = translate x v'
      | none => u.status = 1#32 ∧ u.res0 = 0#64 := by
  have hw := h.writeArgs [v']
  obtain ⟨hfound, habsent⟩ := exec_vmmGetpa_backed hw.ready hw.inv.rootAligned (pathBacked_tree hw.tree hw.backed _)
  have hleaf := (leafEntry_congr hv').trans h.leaf
  cases e with
  | some x => exact ⟨_, hfound x hleaf, rfl, rfl⟩
  | none => exact ⟨_, habsent hleaf, rfl, rfl⟩

/-- An aligned frame and flags below 4096 make an entry whose frame is the one (R67, R69). -/
theorem frame_or_of_aligned {p f : Word} (hp : p.extractLsb' 0 12 = 0#12) (hf : f.extractLsb' 12 52 = 0#52) : frame (p ||| f) = p := by
  have hmask : ∀ i < 64, frameMask.getLsbD i = decide (12 ≤ i) := by decide
  apply BitVec.eq_of_getLsbD_eq
  intro i hi
  rw [frame, BitVec.getLsbD_and, BitVec.getLsbD_or, hmask i hi]
  by_cases h12 : i < 12
  · have hpi := congrArg (fun x => BitVec.getLsbD x i) hp
    simp only [BitVec.getLsbD_extractLsb', h12, decide_true, Bool.true_and, Nat.zero_add, BitVec.getLsbD_zero] at hpi
    rw [hpi, decide_eq_false (Nat.not_le.mpr h12), Bool.and_false]
  · have hfi := congrArg (fun x => BitVec.getLsbD x (i - 12)) hf
    simp only [BitVec.getLsbD_extractLsb', show i - 12 < 52 by omega, decide_true, Bool.true_and, show 12 + (i - 12) = i by omega,
      BitVec.getLsbD_zero] at hfi
    rw [hfi, Bool.or_false, decide_eq_true (Nat.not_lt.mp h12), Bool.and_true]

/-- A map that ends `OK` maps the page to `phys | flags` (R153, R164). -/
theorem MapsTo.afterMap {v p f : Word} {e : Option Word} {s t : State} (h : MapsTo v e s) (hf : f.getLsbD 0 = true)
    (hx : Machine.transact { instr := .vmmMap, args := [v, p, f] } s = .next t) (hok : t.status = 0#32) : MapsTo v (some (p ||| f)) t := by
  have hw := h.writeArgs [v, p, f]
  have hF := hw.inv.frames (hw.inv.vmmAfterPmm hw.ready)
  obtain ⟨hroot, _, hleaf⟩ := exec_vmmMap_entries hw.ready hw.tree hF hx
  have hmapped : leafEntry t.mem t.root v = some (p ||| f) := by
    have hpresent : present (p ||| f) = true := by rw [present, BitVec.getLsbD_or, hf, Bool.or_true]
    rw [hroot, hleaf v, if_pos ⟨hok, rfl⟩]
    exact if_pos hpresent
  exact hmapped ▸ hw.exec hx fun _ _ _ _ _ _ hfree => hfree

/-- An unmap over backed memory leaves nothing mapped at the page (R159, R164). -/
theorem MapsTo.afterUnmap {v : Word} {e : Option Word} {s t : State} (h : MapsTo v e s)
    (hx : Machine.transact { instr := .vmmUnmap, args := [v] } s = .next t) : MapsTo v none t := by
  have hw := h.writeArgs [v]
  have hP := pathBacked_tree hw.tree hw.backed v
  have hok : t.status = 0#32 := by
    cases hu : tableAt s.mem s.root v 3 with
    | none =>
      have hend := hx.symm.trans (exec_vmmUnmap_absent hw.ready hw.inv.rootAligned hP hu)
      exact Host.Outcome.next.inj hend ▸ rfl
    | some u =>
      have hend := hx.symm.trans (exec_vmmUnmap_table hw.ready hw.inv.rootAligned hP hu)
      exact Host.Outcome.next.inj hend ▸ rfl
  obtain ⟨hroot, _, hleaf⟩ := exec_vmmUnmap_entries hw.ready hw.tree hx
  have hgone : leafEntry t.mem t.root v = none := by
    rw [hroot, hleaf v, if_pos ⟨hok, rfl⟩]
  exact hgone ▸ hw.exec hx fun _ _ _ _ _ _ hfree => hfree

/-- Settles O47: the entry a map or an unmap leaves is kept by every command between, and the query reads it. -/
theorem mapThenQuery : Obligations.MapThenQuery := by
  have hstart {v : Word} {s : State} (hI : s.Inv) (hv : s.flag .vmmReady = true) (hT : s.TreeInv) (hB : s.RangeBacked) :
      MapsTo v (leafEntry s.mem s.root v) s := ⟨hI, hv, hT, hB, rfl⟩
  refine ⟨fun s t t' v v' p f between hI hv hT hB hp hf hfhigh hv' hmap hok hbetween hspare hrun => ?_,
    fun s t v v' hI hv hT hB hv' hunmap => ((hstart hI hv hT hB).afterUnmap hunmap).query hv'⟩
  have hmapped : MapsTo v (some (p ||| f)) t := (hstart hI hv hT hB).afterMap hf hmap hok
  obtain ⟨u, hu, hstatus, hres⟩ := (hmapped.runProgram hbetween hspare hrun).query hv'
  exact ⟨u, hu, hstatus, by rw [hres, translate, frame_or_of_aligned hp hfhigh, voff_eq]⟩

end Sys2Proof.Machine

/-! SUPPORT. `TLB_XLATE` and `TLB_INVLPG` (R186, R187), and the sets of pairs a fill leaves (R185). -/

namespace Sys2Proof.Machine

/-! ## Hit and miss -/

/-- A hit answers from the cached pair and reads no memory (R186). -/
theorem exec_tlbXlate_hit {s : State} {e : Word} (hv : s.flag .activeValid = true) (hf : s.tlb.find (vpn s.arg0) = some e) :
    exec .tlbXlate s = finish .ok (translate e s.arg0) (entryFlags e) s := by
  simp only [exec, execTlbXlate, hv, Bool.not_true, Bool.false_eq_true, if_false, hf]

/-- A miss along a backed path answers what memory holds for the page; a page found is filled in, an absent one is not (R186). -/
theorem exec_tlbXlate_miss {s : State} (hv : s.flag .activeValid = true) (hr : s.activeRoot.toNat % 4096 = 0)
    (hP : s.PathBacked s.activeRoot s.arg0) (hf : s.tlb.find (vpn s.arg0) = none) :
    (∀ e, leafEntry s.mem s.activeRoot s.arg0 = some e →
      exec .tlbXlate s = finish .ok (translate e s.arg0) (entryFlags e) (tlbFill (vpn s.arg0) e s)) ∧
    (leafEntry s.mem s.activeRoot s.arg0 = none → exec .tlbXlate s = finish .fail 0 0 s) := by
  obtain ⟨w, hw, hleaf⟩ := walk_backed hr hP
  simp only [exec, execTlbXlate, hv, Bool.not_true, Bool.false_eq_true, if_false, hf, hw, conclude_ok]
  cases w with
  | absent => exact ⟨fun e he => (nomatch hleaf.symm.trans he), fun _ => rfl⟩
  | found e a => exact ⟨fun e' he => by rw [Option.some.inj (hleaf.symm.trans he)], fun hnone => nomatch hleaf.symm.trans hnone⟩

/-- Where the page's cached pair, if there is one, is what memory holds, `TLB_XLATE` along a backed path answers the walk (R186, R188). -/
theorem exec_tlbXlate_walk {s : State} (hv : s.flag .activeValid = true) (hr : s.activeRoot.toNat % 4096 = 0)
    (hP : s.PathBacked s.activeRoot s.arg0)
    (hc : ∀ e, s.tlb.find (vpn s.arg0) = some e → leafEntry s.mem s.activeRoot s.arg0 = some e) :
    ∃ t, exec .tlbXlate s = .next t ∧
      (∀ e, leafEntry s.mem s.activeRoot s.arg0 = some e →
        t.status = 0#32 ∧ t.res0 = (e &&& 0xFFFFFFFFFFFFF000#64) ||| (s.arg0 &&& 0xFFF#64) ∧ t.res1 = e &&& 0xFFF#64) ∧
      (leafEntry s.mem s.activeRoot s.arg0 = none → t.status = 1#32 ∧ t.res0 = 0#64 ∧ t.res1 = 0#64) := by
  cases hleaf : leafEntry s.mem s.activeRoot s.arg0 with
  | some e =>
    have hok : ∃ u, exec .tlbXlate s = finish .ok (translate e s.arg0) (entryFlags e) u := by
      cases hf : s.tlb.find (vpn s.arg0) with
      | some e' =>
        obtain rfl : e' = e := Option.some.inj ((hc e' hf).symm.trans hleaf)
        exact ⟨s, exec_tlbXlate_hit hv hf⟩
      | none => exact ⟨_, (exec_tlbXlate_miss hv hr hP hf).1 e hleaf⟩
    obtain ⟨u, hu⟩ := hok
    refine ⟨_, hu, fun e' he' => ?_, nofun⟩
    obtain rfl : e = e' := Option.some.inj he'
    exact ⟨rfl, translate_eq e s.arg0, entryFlags_eq e⟩
  | none =>
    have hf : s.tlb.find (vpn s.arg0) = none := Option.eq_none_iff_forall_ne_some.mpr fun e he => nomatch hleaf.symm.trans (hc e he)
    exact ⟨_, (exec_tlbXlate_miss hv hr hP hf).2 hleaf, nofun, fun _ => ⟨rfl, rfl, rfl⟩⟩

/-- Settles O48: in a cache in order the pair is the one the look-up finds. -/
theorem tlbXlateHit : Obligations.TlbXlateHit := by
  intro s e hI hv hmem
  rw [exec_tlbXlate_hit hv (find_of_mem hI.tlbSorted hmem), translate_eq, entryFlags_eq, finish_ok]

/-- Settles O49: the answer is the walk's, and a fill keeps only old pairs and the new one. -/
theorem tlbXlateMiss : Obligations.TlbXlateMiss := by
  intro s hv hr hP hmiss
  obtain ⟨hfound, habsent⟩ := exec_tlbXlate_miss hv hr hP (find_eq_none_iff.mpr hmiss)
  refine ⟨fun e he => ⟨_, hfound e he, ?_, fun p hp => (mem_retain_add hp).symm, length_retain_le _ _ _⟩, habsent⟩
  rw [translate_eq, entryFlags_eq]
  rfl

/-- Settles O51: an invalidation, then `done`. -/
theorem tlbInvlpg : Obligations.TlbInvlpg := fun s => finish_ok 0 0 (tlbInvalidate (vpn s.arg0) s)

/-- Settles O52: neither an invalidation nor a flush leaves a pair of the page, so the walk answers. -/
theorem afterInvalidationTranslationWalks : Obligations.AfterInvalidationTranslationWalks := by
  intro s u v hv hr hP hu
  obtain ⟨c, hf, rfl⟩ : ∃ c : Tlb, c.find (vpn v) = none ∧ u = { s with tlb := c } := by
    rcases hu with rfl | rfl
    · exact ⟨s.tlb.remove (vpn v), find_remove_same s.tlb (vpn v), rfl⟩
    · exact ⟨[], rfl, rfl⟩
  obtain ⟨t, hx, hfound, habsent⟩ := exec_tlbXlate_walk (s := { s with tlb := c, arg0 := v }) hv hr hP fun e he =>
    nomatch hf.symm.trans he
  exact ⟨t, hx, hfound, fun hnone => (habsent hnone).1⟩

/-- Settles O55: a cached pair of the page is what the walk finds there. -/
theorem coherentTranslationIsTheWalk : Obligations.CoherentTranslationIsTheWalk := by
  intro s hI hc hv hP
  refine exec_tlbXlate_walk hv hI.activeRootAligned hP fun e he => ?_
  rw [← leafEntry_congr (vpn_pageBase (vpn s.arg0))]
  exact hc (vpn s.arg0, e) (mem_of_find he)

/-- Settles O53: the invariant bounds the cache by `TLB_ENTRIES`, before and after. -/
theorem withoutStorageTheCacheStaysEmpty : Obligations.WithoutStorageTheCacheStaysEmpty := by
  intro i s t hI hc h0 hx
  obtain ⟨hIt, hcfg⟩ := exec_inv hI hc hx
  have hs := hI.tlbBound
  have ht := hIt.tlbBound
  rw [hcfg] at ht
  exact ⟨List.eq_nil_of_length_eq_zero (by omega), List.eq_nil_of_length_eq_zero (by omega)⟩

/-! ## What a fill leaves -/

/-- Two caches in order with the same pairs are the same. -/
theorem sorted_ext {t u : Tlb} (ht : (t.map Prod.fst).Pairwise fun a b => a.toNat < b.toNat)
    (hu : (u.map Prod.fst).Pairwise fun a b => a.toNat < b.toNat) (h : ∀ p, p ∈ t ↔ p ∈ u) : t = u := by
  rw [List.pairwise_map] at ht hu
  have : Std.Irrefl fun p q : Vpn × Word => p.1.toNat < q.1.toNat := ⟨fun _ => lt_irrefl _⟩
  have : Std.Antisymm fun p q : Vpn × Word => p.1.toNat < q.1.toNat := ⟨fun _ _ h h' => absurd h' h.asymm⟩
  exact ht.eq_of_mem_iff hu h

/-- The draw that keeps the pages of a set of pairs. -/
def Tlb.keeping (kept : Tlb) (n : Vpn) : Bool :=
  (kept.map Prod.fst).contains n

/-- Of a cache in order, the draw for a set of its pairs, at most `TLB_ENTRIES`, leaves exactly those (R185). -/
theorem retain_keeping {t kept : Tlb} {entries : Nat} (ht : (t.map Prod.fst).Pairwise fun a b => a.toNat < b.toNat)
    (hk : (kept.map Prod.fst).Pairwise fun a b => a.toNat < b.toNat) (hsub : ∀ p ∈ kept, p ∈ t) (hl : kept.length ≤ entries) :
    t.retain kept.keeping entries = kept := by
  have hfilter : t.filter (fun p => kept.keeping p.1) = kept := by
    refine sorted_ext (ht.sublist (List.filter_sublist.map _)) hk fun p => ?_
    rw [List.mem_filter, Tlb.keeping, List.contains_iff_mem]
    refine ⟨fun ⟨hp, hkey⟩ => ?_, fun hp => ⟨hsub p hp, List.mem_map_of_mem hp⟩⟩
    obtain ⟨q, hq, hpage⟩ := List.mem_map.mp hkey
    have hentry : some q.2 = some p.2 := (find_of_mem ht (hsub q hq)).symm.trans (hpage ▸ find_of_mem ht hp)
    exact Prod.ext hpage (Option.some.inj hentry) ▸ hq
  rw [Tlb.retain, hfilter, List.take_of_length_le hl]

/-- Settles O50: `retain` drops pairs only, and the draw for an allowed set leaves that set. -/
theorem aFillCanLeaveEveryAllowedSet : Obligations.AFillCanLeaveEveryAllowedSet := by
  refine ⟨fun _ _ _ => rfl, fun old n e entries hs => ⟨fun keeps => ⟨length_retain_le _ _ _, fun p hp => ?_⟩,
    fun kept hk hl hsub => ⟨kept.keeping, ?_⟩⟩⟩
  · exact (mem_add hs p).mp (List.mem_filter.mp (List.mem_of_mem_take hp)).1
  · exact retain_keeping (sorted_insertByKey _ n e old hs) hk (fun p hp => (mem_add hs p).mpr (hsub p hp)) hl

end Sys2Proof.Machine

/-! SUPPORT. The cache against memory under every command (R188): the tree at `ACTIVE_ROOT` where it shares no table with the one a
command edits, and where it is that tree. -/

namespace Sys2Proof.Machine

/-! ## The cached pairs -/

/-- The ends of `TLB_XLATE`: nothing but `done`, or a fill with what memory holds for the page (R186). -/
theorem exec_tlbXlate_cases {s t : State} (hx : exec .tlbXlate s = .next t) :
    (∃ st r0 r1, t = s.done st r0 r1) ∨
      ∃ e r0 r1, leafEntry s.mem s.activeRoot s.arg0 = some e ∧ t = (tlbFill (vpn s.arg0) e s).done .ok r0 r1 := by
  have ends {st r0 r1} (h : finish st r0 r1 s = .next t) : ∃ st r0 r1, t = s.done st r0 r1 :=
    ⟨st, r0, r1, (finish_eq_next.mp h).symm⟩
  simp only [exec, execTlbXlate] at hx
  split at hx
  · exact .inl (ends hx)
  · split at hx
    · exact .inl (ends hx)
    · have hl := leaves_walk s.activeRoot s.arg0 s
      cases hw : walk s.activeRoot s.arg0 s with
      | ok w u =>
        rw [hw] at hx
        obtain ⟨rfl, _, hfound⟩ := walk_leaf hw
        cases w with
        | absent => exact .inl (ends hx)
        | found e a => exact .inr ⟨e, _, _, hfound e a rfl, (finish_eq_next.mp hx).symm⟩
      | busError u =>
        rw [hw] at hx hl
        obtain rfl : u = s := hl
        exact .inl (ends hx)
      | fault f => rw [hw] at hx; cases hx

/-- A command other than `TLB_XLATE` adds no pair to the cache (R181, R183, R184). -/
theorem kept_tlbSubset {i : Instr} (hi : i ≠ .tlbXlate) (c : Tlb) : Kept i fun u => u.tlb ⊆ c where
  done _ _ _ _ h _ _ := h
  store _ _ _ _ h _ := h
  take _ _ _ _ h _ _ := h
  release _ _ _ _ h _ _ _ := h
  init _ _ _ h _ _ _ := h
  newRoot _ _ _ _ h _ _ _ _ := h
  switch _ _ _ _ _ := List.nil_subset c
  vmmReady _ _ h _ := h
  invalidate _ _ _ h := fun _ hp => h (mem_remove.mp hp).1
  fill h := absurd h hi

/-- A cached pair was cached before, or is what memory held for its page (R181, R186). -/
theorem exec_tlb_pairs {i : Instr} {s t : State} (hx : exec i s = .next t) {p : Vpn × Word} (hp : p ∈ t.tlb) :
    p ∈ s.tlb ∨ leafEntry s.mem s.activeRoot (pageBase p.1) = some p.2 := by
  by_cases hi : i = .tlbXlate
  · subst hi
    rcases exec_tlbXlate_cases hx with ⟨st, r0, r1, rfl⟩ | ⟨e, r0, r1, hleaf, rfl⟩
    · exact .inl hp
    · rcases mem_retain_add hp with rfl | hold
      · exact .inr ((leafEntry_congr (vpn_pageBase _)).trans hleaf)
      · exact .inl hold
  · exact .inl (exec_keeps (kept_tlbSubset hi s.tlb) (List.Subset.refl _) hx hp)

/-- A command that leaves `ACTIVE_ROOT`, and what is mapped there at the pages it leaves cached, keeps the cache coherent. -/
theorem coherent_of_leaves {i : Instr} {s t : State} (hc : s.Coherent) (hx : exec i s = .next t) (hsw : i ≠ .vmmSwitch)
    (hleaf : ∀ p ∈ t.tlb, leafEntry t.mem s.activeRoot (pageBase p.1) = leafEntry s.mem s.activeRoot (pageBase p.1)) :
    t.Coherent := by
  intro p hp
  rw [exec_untouched (f := State.activeRoot) { switch := fun h => absurd h hsw } hx, hleaf p hp]
  exact (exec_tlb_pairs hx hp).elim (hc p) id

/-- `VMM_SWITCH` flushes the cache or does nothing to it (R163). -/
theorem coherent_vmmSwitch {s t : State} (hc : s.Coherent) (hx : exec .vmmSwitch s = .next t) : t.Coherent := by
  simp only [exec, execVmmSwitch] at hx
  split at hx
  · exact finish_eq_next.mp hx ▸ hc
  · exact finish_eq_next.mp hx ▸ nofun

/-! ## An active tree apart from the edited one -/

/-- Where no used page is freed and nothing changes beyond the range, only the pages that were free and in range can change. -/
theorem used_of_guarded {s t : State} {j : Nat} (hused : ∀ i, s.bitmap.used i = true → t.bitmap.used i = true)
    (hbeyond : ∀ i, s.totalPages ≤ i → t.bitmap.used i = s.bitmap.used i) (hj : s.bitmap.used j = true ∨ s.totalPages ≤ j) :
    t.bitmap.used j = s.bitmap.used j :=
  hj.elim (fun h => (hused j h).trans h.symm) (hbeyond j)

/-- A byte in a page that no command may take, and in no table of the tree at `ROOT`, is kept by every command (R60, R77). -/
theorem exec_readByte_guarded {i : Instr} {s t : State} {b : Word} (hI : s.Inv)
    (hb : s.bitmap.used (pageIndex b) = true ∨ s.totalPages ≤ pageIndex b)
    (htree : s.flag .vmmReady = true → s.TreeInv ∧
      ∀ v n x, n ≤ 3 → tableAt s.mem s.root v n = some x → pageIndex b ≠ pageIndex x)
    (hx : exec i s = .next t) : t.mem.readByte b = s.mem.readByte b := by
  by_cases hi : i ∈ storing
  · by_cases he : stateError s i
    · rw [exec_of_stateError he, finish_eq_next] at hx
      rw [← hx, done_mem]
    · cases i with
      | vmmInit =>
        have hk := keepsByte_vmmInit (b := b) hI hx
        have hbeyond := exec_keeps (kept_beyond (by decide) s.totalPages s.bitmap) ⟨rfl, fun _ _ => rfl⟩ hx
        exact hk.byte (used_of_guarded hk.used hbeyond.2 hb)
      | vmmMap =>
        have hv : s.flag .vmmReady = true := Bool.eq_true_of_not_eq_false he
        obtain ⟨hT, hoff⟩ := htree hv
        rcases exec_vmmMap_cases hv hT (hI.frames (hI.vmmAfterPmm hv)) hx with ⟨u, hu, rfl⟩ | ⟨u, st, hu, rfl, _⟩
        · exact hu.bytes b (used_of_guarded hu.used hu.inRange hb) hoff
        · exact hu.bytes b (used_of_guarded hu.used hu.inRange hb) hoff
      | vmmUnmap =>
        have hv : s.flag .vmmReady = true := Bool.eq_true_of_not_eq_false he
        obtain ⟨hT, hoff⟩ := htree hv
        rcases exec_vmmUnmap_cases hv hx with ⟨u, hu, rfl⟩ | ⟨_, rfl⟩ | rfl
        · have hal := (hT.backed _ 3 u le_rfl hu).1
          refine readByte_writeWord_outside _ _ (outsideWord_of_pageIndex (entryAddr_aligned u _ hal) ?_)
          rw [pageIndex_entryAddr u _ hal]
          exact hoff _ 3 u le_rfl hu
        · rfl
        · rfl
      | _ => exact absurd hi (by decide)
  · rw [exec_untouched (f := State.mem) { store := fun h => absurd h hi } hx]

/-- Where no table of the active tree can be handed out, and none is one of the tree at `ROOT`, no command changes what is mapped in the
active tree (R188). -/
theorem exec_leafEntry_apart {i : Instr} {s t : State} (hI : s.Inv) (hg : s.ActiveGuarded)
    (hapart : s.flag .vmmReady = true → s.TreeInv ∧ ∀ v w n k x, n ≤ 3 → k ≤ 3 → tableAt s.mem s.root v n = some x →
      tableAt s.mem s.activeRoot w k ≠ some x)
    (hx : exec i s = .next t) (v : Word) : leafEntry t.mem s.activeRoot v = leafEntry s.mem s.activeRoot v := by
  refine leafEntry_words v fun w k y idx hk hy => readWord_congr fun b hb => ?_
  have hal : y.toNat % 4096 = 0 := tableAt_aligned hI.activeRootAligned hk hy
  have hpage : pageIndex b = pageIndex y := by
    rw [pageIndex_of_word (entryAddr_aligned y idx hal) hb, pageIndex_entryAddr y idx hal]
  refine exec_readByte_guarded hI (hpage ▸ hg w k y hk hy) (fun hv => ?_) hx
  obtain ⟨hT, hne⟩ := hapart hv
  refine ⟨hT, fun v' n x hn hxt e => hne v' w n k x hn hk hxt ?_⟩
  rw [aligned_eq_of_page (hT.backed v' n x hn hxt).1 hal (e.symm.trans hpage), hy]

/-! ## An active tree that is the edited one -/

/-- No command changes what is mapped at `ROOT` at a page it leaves cached: a map and an unmap that do invalidate the page (R183, R188). -/
theorem exec_leafEntry_cached {i : Instr} {s t : State} (hI : s.Inv) (hv : s.flag .vmmReady = true) (hT : s.TreeInv)
    (hx : exec i s = .next t) {p : Vpn × Word} (hp : p ∈ t.tlb) :
    leafEntry t.mem s.root (pageBase p.1) = leafEntry s.mem s.root (pageBase p.1) := by
  have other {n : Vpn} (h : p ∈ s.tlb.remove n) : n ≠ vpn (pageBase p.1) := by
    rw [vpn_pageBase]
    exact (mem_remove.mp h).2.symm
  by_cases hm : i = .vmmMap
  · subst hm
    rcases exec_vmmMap_cases hv hT (hI.frames (hI.vmmAfterPmm hv)) hx with ⟨u, hu, rfl⟩ | ⟨u, st, hu, rfl, _⟩
    · exact (hu.leaves _).trans (if_neg (other (hu.tlb ▸ hp)))
    · exact hu.leaves _
  · by_cases hu : i = .vmmUnmap
    · subst hu
      rcases exec_vmmUnmap_cases hv hx with ⟨u, hu, rfl⟩ | ⟨_, rfl⟩ | rfl
      · exact (leafEntry_leafWrite hT hu 0 _).trans (if_neg (other hp))
      · rfl
      · rfl
    · rw [(exec_mem_root hm hu hv hx).1]

/-- Settles O54: a pair in the cache was there before or is the walk's own, and the entry under it stays as it was, whether the active
tree is the one at `ROOT` or shares no table with it. -/
theorem commandsKeepTheCacheCoherent : Obligations.CommandsKeepTheCacheCoherent := by
  intro i s t hI htree hg hc hx
  by_cases hsw : i = .vmmSwitch
  · exact coherent_vmmSwitch hc (hsw ▸ hx)
  · refine coherent_of_leaves hc hx hsw fun p hp => ?_
    by_cases hsame : s.flag .vmmReady = true ∧ s.activeRoot = s.root
    · obtain ⟨hv, hroot⟩ := hsame
      rw [hroot]
      exact exec_leafEntry_cached hI hv (htree hv).1 hx hp
    · exact exec_leafEntry_apart hI hg (fun hv => (htree hv).imp id fun h => h.resolve_left fun e => hsame ⟨hv, e⟩) hx _

end Sys2Proof.Machine

/-! SUPPORT. How every command ends (R220 to R226): which check ended it, what `done` leaves of the state, and that it ends at all. -/

namespace Sys2Proof.Machine

/-! ## The end of a command, in the order of the checks -/

/-- How a command ends, by the first check that fails (R222, R224). -/
inductive Ended (i : Instr) (s t : State) : Prop where
  | notReady (hs : stateError s i) (ht : t = s.done .errState 0 0)
  | badOperand (hs : ¬ stateError s i) (ha : argError s i) (ht : t = s.done .errArg 0 0)
  | outOfRange (hs : ¬ stateError s i) (ha : ¬ argError s i) (hr : rangeError s i) (ht : t = s.done .errRange 0 0)
  | passed (hs : ¬ stateError s i) (ha : ¬ argError s i) (hr : ¬ rangeError s i) (e : Ends i s t)

theorem exec_ended {i : Instr} {s t : State} (hx : exec i s = .next t) : Ended i s t := by
  by_cases hs : stateError s i
  · rw [exec_of_stateError hs, finish_eq_next] at hx
    exact .notReady hs hx.symm
  by_cases ha : argError s i
  · rw [exec_of_argError hs ha, finish_eq_next] at hx
    exact .badOperand hs ha hx.symm
  by_cases hr : rangeError s i
  · rw [exec_of_rangeError hs hr, finish_eq_next] at hx
    exact .outOfRange hs ha hr hx.symm
  obtain ⟨e⟩ := exec_ends hs ha hr hx
  exact .passed hs ha hr e

theorem code_inj {a b : Status} : a.code = b.code ↔ a = b := by
  cases a <;> cases b <;> decide

/-- A command that passed its checks ends with none of the codes of a failed check, nor with `ERR_CMD` (R220, R222). -/
theorem Ends.status_cases {i : Instr} {s t : State} (e : Ends i s t) :
    t.status = 0#32 ∨ t.status = 1#32 ∨ (t.status = 6#32 ∧ reachesMemory i = true) := by
  have hcode : t.status = e.st.code := congrArg State.status e.done
  rw [hcode]
  rcases e.status with h | ⟨h, _⟩ | ⟨h, _, _, hm⟩
  · exact .inl (congrArg Status.code h)
  · exact .inr (.inl (congrArg Status.code h))
  · exact .inr (.inr ⟨congrArg Status.code h, hm⟩)

/-- Settles O15: each failed check has a code of its own, and a command that passes all three ends with none of these codes. -/
theorem errorsAreReportedInTheOrderOfTheChecks : Obligations.ErrorsAreReportedInTheOrderOfTheChecks := by
  intro i s t hx
  cases exec_ended hx with
  | notReady hs ht => simp [ht, Status.code, hs]
  | badOperand hs ha ht => simp [ht, Status.code, hs, ha]
  | outOfRange hs ha hr ht => simp [ht, Status.code, hs, ha, hr]
  | passed hs ha hr e =>
    rcases e.status_cases with h | h | ⟨h, hm⟩
    · simp [h, hs, ha, hr]
    · simp [h, hs, ha, hr]
    · simp [h, hs, ha, hr, hm]

/-- Settles O14: a failed check ends the command in the state it began in, and so does a `FAIL` that is no `VMM_MAP`'s or `VMM_INIT`'s. -/
theorem refusedAndFailedCommandsAreWhollyNotDone : Obligations.RefusedAndFailedCommandsAreWhollyNotDone := by
  intro i s t hI hx
  cases exec_ended hx with
  | notReady _ ht | badOperand _ _ ht | outOfRange _ _ _ ht =>
    rw [ht]
    exact ⟨fun _ => rfl, fun h => by simp [Status.code] at h⟩
  | passed _ _ _ e =>
    refine ⟨fun h => ?_, fun h hmap hinit => ?_⟩
    · rcases e.status_cases with h' | h' | ⟨h', _⟩ <;> simp [h'] at h
    · have hst : e.st = .fail := code_inj.mp ((congrArg State.status e.done).symm.trans h)
      obtain ⟨_, h0, h1⟩ : e.st = .fail ∧ e.r0 = 0 ∧ e.r1 = 0 := by simpa [hst] using e.status
      calc t = e.before.done e.st e.r0 e.r1 := e.done
        _ = s.done .fail 0 0 := by rw [e.failed hI hinit hmap hst, hst, h0, h1]

/-! ## What `done` leaves -/

/-- Every command ends in one `done`, with zeros unless with `OK`, in a state whose `FLAGS` from `ERR` up are as the command found them
(R25, R221). -/
theorem exec_eq_done {i : Instr} {s t : State} (hx : exec i s = .next t) :
    ∃ u st r0 r1, t = State.done st r0 r1 u ∧ (st ≠ .ok → r0 = 0 ∧ r1 = 0) ∧ (i ≠ .tlbXlate → r1 = 0) ∧
      ∀ k, 3 ≤ k → u.flags.getLsbD k = s.flags.getLsbD k := by
  cases exec_ended hx with
  | notReady _ ht | badOperand _ _ ht | outOfRange _ _ _ ht =>
    exact ⟨s, _, 0, 0, ht, fun _ => ⟨rfl, rfl⟩, fun _ => rfl, fun _ _ => rfl⟩
  | passed _ _ _ e =>
    refine ⟨e.before, e.st, e.r0, e.r1, e.done, fun hne => ?_, e.second, e.flags⟩
    rcases e.status with h | ⟨_, h0, h1⟩ | ⟨_, h0, h1, _⟩
    · exact absurd h hne
    · exact ⟨h0, h1⟩
    · exact ⟨h0, h1⟩

/-- No update of a command clears a bit of `FLAGS`, so no command does (R25). -/
theorem exec_keeps_flag_set {i : Instr} {s t : State} (hx : exec i s = .next t) {k : Nat} (hk : s.flags.getLsbD k = true) :
    t.flags.getLsbD k = true := by
  have raised (b : FlagBit) {f : Word32} (hf : f.getLsbD k = true) : (b.raise f).getLsbD k = true := by
    rw [getLsbD_raise, hf, Bool.true_or]
  exact exec_keeps (P := fun u => u.flags.getLsbD k = true)
    { done := fun u st _ _ h _ _ => by rw [done_flags, getLsbD_mark, h, Bool.true_or]
      store := fun _ _ _ _ h _ => h
      take := fun _ _ _ _ h _ _ => h
      release := fun _ _ _ _ h _ _ _ => h
      init := fun _ _ _ h _ _ _ => raised .pmmReady h
      newRoot := fun _ _ _ _ h _ _ _ _ => h
      switch := fun _ _ _ h _ => raised .activeValid h
      vmmReady := fun _ _ h _ => raised .vmmReady h
      invalidate := fun _ _ _ h => h
      fill := fun _ _ _ _ h _ _ => h } hk hx

/-- Settles O13: the end is one `done`, which marks `FLAGS.ERR` for the codes from 2 on and no other bit. -/
theorem everyCommandEndsInDone : Obligations.EveryCommandEndsInDone := by
  intro i s t hx
  have hset : ∀ k, s.flags.getLsbD k = true → t.flags.getLsbD k = true := fun k hk => exec_keeps_flag_set hx hk
  obtain ⟨u, st, r0, r1, rfl, hzero, hsecond, hflags⟩ := exec_eq_done hx
  simp only [done_status, done_res0, done_res1, done_flags, getLsbD_mark] at hset ⊢
  refine ⟨code_le st, fun h => ?_, fun h => ?_, fun h => ?_, hsecond, hset, fun k hk => ?_⟩
  · obtain ⟨h0, h1⟩ := hzero fun e => absurd (e ▸ h) (by decide)
    exact ⟨h0, h1, by simp [h]⟩
  · rw [hflags 3 le_rfl, decide_eq_false (Nat.not_le.mpr h), Bool.false_and, Bool.or_false]
  · exact hzero fun e => absurd (e ▸ h) (by decide)
  · rw [hflags k (by omega), decide_eq_false (show ¬ k = 3 by omega), Bool.and_false, Bool.or_false]

/-- Settles O17: no base of a table is misaligned in a state of the invariant. -/
theorem everyCommandCompletes : Obligations.EveryCommandCompletes :=
  fun i _ hI => exec_completes i hI

end Sys2Proof.Machine

/-! SUPPORT. The block straight after a reset event (R251), and the boot sequence with the translation it leaves (R253, R100). -/

namespace Sys2Proof.Machine

/-! ## Straight after reset -/

/-- A state as a reset event leaves it, in what the commands then see and write; the operands are any (R37, R251). -/
structure State.Fresh (s : State) : Prop where
  res0 : s.res0 = 0#64
  res1 : s.res1 = 0#64
  status : s.status = 0#32
  flags : s.flags = 0#32
  totalBlocks : s.totalBlocks = 0#64
  usedPages : s.usedPages = 0#64
  tlb : s.tlb = []

theorem fresh_of_reset {u r : State} (hr : hostAccess .reset u = .next r) (a0 a1 a2 : Word) :
    State.Fresh { r with arg0 := a0, arg1 := a1, arg2 := a2 } := by
  obtain ⟨-, -, -, hres0, hres1, hstatus, hflags, hblocks, hused, -, -, -, htlb⟩ := resetValues.1 r (.inr ⟨u, hr⟩)
  exact ⟨hres0, hres1, hstatus, hflags, hblocks, hused, htlb⟩

theorem State.Fresh.flag {s : State} (h : s.Fresh) (b : FlagBit) : s.flag b = false := by
  rw [State.flag, h.flags]
  exact BitVec.getLsbD_zero

theorem State.Fresh.eq {s : State} (h : s.Fresh) : s = { s with res0 := 0#64, res1 := 0#64, status := 0#32, flags := 0#32, tlb := [] } := by
  cases s
  obtain ⟨rfl, rfl, rfl, rfl, -, -, rfl⟩ := h
  rfl

/-- The results, and a status of `OK`, are there already. -/
theorem State.Fresh.finish_ok {s : State} (h : s.Fresh) : finish .ok 0 0 s = .next s := by
  rw [h.eq]
  rfl

theorem State.Fresh.finish_errState {s : State} (h : s.Fresh) :
    finish .errState 0 0 s = .next { s with status := 3#32, flags := 8#32 } := by
  rw [Machine.finish_errState, h.flags, BitVec.zero_or, h.eq]
  rfl

/-- There is no cached pair to drop (R32, R37). -/
theorem State.Fresh.tlbInvalidate {s : State} (h : s.Fresh) (n : Vpn) : Machine.tlbInvalidate n s = s := by
  rw [h.eq]
  rfl

/-- `VMM_SWITCH` changes the root and `ACTIVE_VALID` only: the cache it flushes is empty (R163). -/
theorem State.Fresh.exec_vmmSwitch {s : State} (h : s.Fresh) (ha : s.arg0.extractLsb' 0 12 = 0#12) :
    exec .vmmSwitch s = .next { s with activeRoot := s.arg0, flags := 4#32 } := by
  rw [(vmmSwitch s).1 ha, h.flags, BitVec.zero_or, h.eq]

/-- The queries count no blocks and no pages, and `TLB_INVLPG` finds no pair (R131 to R133, R187). -/
theorem State.Fresh.exec_unchanged {s : State} (h : s.Fresh) {i : Instr}
    (hi : i ∈ [Instr.pmmTotal, .pmmUsed, .pmmFreemem, .tlbInvlpg]) : exec i s = .next s := by
  simp only [List.mem_cons, List.not_mem_nil, or_false] at hi
  rcases hi with rfl | rfl | rfl | rfl
  · rw [exec, execPmmTotal, h.totalBlocks, BitVec.zero_mul]
    exact h.finish_ok
  · rw [exec, execPmmUsed, h.usedPages, BitVec.zero_mul]
    exact h.finish_ok
  · rw [exec, execPmmFreemem, h.totalBlocks, h.usedPages, BitVec.zero_mul, BitVec.sub_zero, BitVec.zero_mul]
    exact h.finish_ok
  · rw [exec, execTlbInvlpg, h.tlbInvalidate, h.finish_ok]

/-- Settles O12: no bit of `FLAGS` is set, which is all the checks of readiness ask, and what the other commands write is there
already, but for a root or a frame allocator. -/
theorem straightAfterReset : Obligations.StraightAfterReset := by
  intro u r s a0 a1 a2 hr hs
  have h : s.Fresh := hs ▸ fresh_of_reset hr a0 a1 a2
  have harg : s.arg0 = a0 := congrArg State.arg0 hs
  refine ⟨fun i hi => h.exec_unchanged hi, fun i hi => ?_, fun halign => ?_, fun hsize => ?_⟩
  · have hcheck : stateError s i := by cases i <;> simp [stateError, h.flag] at hi ⊢
    exact (exec_of_stateError hcheck).trans h.finish_errState
  · rw [← harg] at halign ⊢
    exact h.exec_vmmSwitch halign
  · refine ⟨_, exec_pmmInit_ok (h.flag .pmmReady) (harg ▸ hsize), rfl, ?_⟩
    calc FlagBit.pmmReady.raise s.flags
      _ = 1#32 := by rw [h.flags]; decide

/-! ## The boot sequence -/

section Init

variable {s : State} {n : Nat} (hn : n < 2 ^ 64)

include hn

/-- The pages of the range after `PMM_INIT` (R26, R120). -/
theorem totalPages_initFrames : (s.initFrames n).totalPages = min (n / 131072) s.cfg.maxBlocks * 32 := by
  rw [State.totalPages, initFrames_totalBlocks, BitVec.toNat_ofNat, blockBytes, bitsPerWord]
  omega

/-- The host owes `PMM_INIT` the memory it names, which holds the whole range (R7, R254). -/
theorem rangeBacked_initFrames (hB : ∀ a : Word, a.toNat % 8 = 0 → a.toNat < n → s.memValid a = true) :
    (s.initFrames n).RangeBacked := by
  intro a ha hlt
  rw [totalPages_initFrames hn, pageSize] at hlt
  exact hB a ha (by omega)

/-- The range after `PMM_INIT` is free from the end of the reserved region on (R120). -/
theorem free_initFrames {i : Nat} (hi : 4096 ≤ i) (hlt : i < (s.initFrames n).totalPages) :
    (s.initFrames n).bitmap.used i = false := by
  rw [totalPages_initFrames hn] at hlt
  rw [initFrames_bitmap, used_forMemory, decide_eq_true hi, decide_eq_true (by omega)]
  rfl

variable (hblocks : 129 ≤ min (n / 131072) s.cfg.maxBlocks)

include hblocks

/-- The lowest free page after `PMM_INIT` is the first beyond the reserved region (R120, R122). -/
theorem head_freeList_initFrames : (s.initFrames n).freeList[0]? = some 4096 := by
  have hpages := totalPages_initFrames (s := s) hn
  have hlow : ∀ j < 4096, (s.initFrames n).bitmap.used j = true :=
    (frameInv_initFrames (by omega) (by omega) hn).reserved
  rw [freeList_takePages (by omega) (free_initFrames hn le_rfl (by omega)) hlow, List.getElem?_cons_zero]

/-- One block beyond the reserved region is more than the frames `VMM_INIT` needs (R151, R253). -/
theorem freePages_initFrames : 11 ≤ (s.initFrames n).freePages := by
  have hpages := totalPages_initFrames (s := s) hn
  rw [State.freePages, initFrames_bitmap, countUsed_forMemory _ _ _ (by omega) (by omega)]
  omega

end Init

/-- Bits 23 to 12 of an address, with flags 3, are an entry that translates the address to its low 24 bits (R75, R186). -/
theorem identityEntry_answer (v : Word) :
    (((v &&& 0xFFF000#64) ||| 3#64) &&& 0xFFFFFFFFFFFFF000#64) ||| (v &&& 0xFFF#64) = v &&& 0xFFFFFF#64 ∧
      ((v &&& 0xFFF000#64) ||| 3#64) &&& 0xFFF#64 = 3#64 := by
  rw [BitVec.and_or_distrib_right, BitVec.and_or_distrib_right, BitVec.and_assoc, BitVec.and_assoc]
  constructor
  · calc v &&& 0xFFF000#64 ||| 0#64 ||| v &&& 0xFFF#64
      _ = v &&& (0xFFF000#64 ||| 0xFFF#64) := by rw [BitVec.or_zero, BitVec.and_or_distrib_left]
  · calc v &&& 0#64 ||| 3#64
      _ = 3#64 := by rw [BitVec.and_zero, BitVec.zero_or]

/-- A tree of R39 with memory behind it that maps the first 16 MiB to themselves with flags 3, and nothing else (R151). -/
structure IdentityTree (s : State) : Prop where
  inv : s.Inv
  tree : s.TreeInv
  backed : s.RangeBacked
  leaves : ∀ v : Word, leafEntry s.mem s.root v =
    if v.extractLsb' 24 24 = 0#24 then some ((v &&& 0xFFF000#64) ||| 3#64) else none

/-- What `VMM_ACTIVATE` leaves where `ROOT` is aligned (R100, R163). -/
def State.activated (s : State) : State :=
  (tlbFlush (((s.writeArgs [s.root]).setActiveRoot s.root).raiseFlag .activeValid)).done .ok 0 0

theorem runActivate_aligned {s : State} (hr : s.root.toNat % 4096 = 0) : runActivate s = .next s.activated :=
  if_neg (not_not.mpr ((voff_eq_zero_iff s.root).mpr hr))

theorem activated_valid (s : State) : s.activated.flag .activeValid = true := by
  rw [State.activated, flag_done (by decide)]
  exact (flag_raiseFlag .activeValid .activeValid _).trans (by simp)

/-- Once the identity map is active, translation answers it: the cache is empty, so the walk decides (R186, R253). -/
theorem IdentityTree.xlate {s : State} (h : IdentityTree s) (v : Word) :
    ∃ w, transact { instr := .tlbXlate, args := [v] } s.activated = .next w ∧
      if v.extractLsb' 24 24 = 0#24 then w.status = 0#32 ∧ w.res0 = v &&& 0xFFFFFF#64 ∧ w.res1 = 3#64
      else w.status = 1#32 ∧ w.res0 = 0#64 ∧ w.res1 = 0#64 := by
  obtain ⟨w, hw, hfound, habsent⟩ := exec_tlbXlate_walk (s := s.activated.writeArgs [v]) (activated_valid s) h.inv.rootAligned
    (pathBacked_tree h.tree h.backed v) nofun
  have hleaf := h.leaves v
  refine ⟨w, hw, ?_⟩
  by_cases hlow : v.extractLsb' 24 24 = 0#24
  · rw [if_pos hlow] at hleaf ⊢
    obtain ⟨hstatus, hres0, hres1⟩ := hfound _ hleaf
    obtain ⟨hframe, hflags⟩ := identityEntry_answer v
    exact ⟨hstatus, hres0.trans hframe, hres1.trans hflags⟩
  · rw [if_neg hlow] at hleaf ⊢
    exact habsent hleaf

/-- `VMM_INIT` straight after a `PMM_INIT` that leaves it a block of free pages (R151, R253). -/
theorem exec_vmmInit_initFrames {s : State} {n : Nat} (hI : s.Inv) (hv : s.flag .vmmReady = false) (hn : n < 2 ^ 64)
    (hblocks : 129 ≤ min (n / 131072) s.cfg.maxBlocks)
    (hB : ∀ a : Word, a.toNat % 8 = 0 → a.toNat < n → s.memValid a = true) :
    ∃ t, exec .vmmInit ((s.initFrames n).done .ok 0 0) = .next t ∧ IdentityTree t ∧ t.flags = s.flags ||| 1#32 ||| 2#32 ∧
      t.root = 0x1000000#64 ∧ t.usedPages = 4107#64 := by
  have hc : s.cfg.wf = true := decide_eq_true (by omega)
  have hready : ((s.initFrames n).done .ok 0 0).flag .pmmReady = true :=
    (flag_raiseFlag .pmmReady .pmmReady s).trans (by simp)
  have hnot : ((s.initFrames n).done .ok 0 0).flag .vmmReady = false :=
    (flag_raiseFlag .pmmReady .vmmReady s).trans (by simp [hv])
  have hinv : ((s.initFrames n).done .ok 0 0).Inv :=
    inv_done (inv_initFrames hI (by omega) (by omega) hn) .ok 0 (by decide)
  have hback : ((s.initFrames n).done .ok 0 0).RangeBacked := rangeBacked_initFrames hn hB
  obtain ⟨t, f, hf, hx, ht, -, htree, -, hleaves, -⟩ :=
    vmmInitBuildsTheIdentityMap _ hinv hready hnot hback (freePages_initFrames hn hblocks)
  have hfirst : f 0 = 4096 := Option.some.inj ((hf 0 (by decide)).symm.trans (head_freeList_initFrames hn hblocks))
  obtain ⟨hinv', hcfg⟩ := exec_inv hinv hc hx
  refine ⟨t, hx, ⟨hinv', htree, rangeBacked_congr hcfg (congrArg State.totalBlocks ht :) hback, hleaves⟩,
    congrArg State.flags ht, ?_, congrArg State.usedPages ht⟩
  calc t.root = BitVec.ofNat 64 (f 0 * 4096) := congrArg State.root ht
    _ = 0x1000000#64 := by rw [hfirst]

/-- The three commands of the boot sequence, from any state before `PMM_INIT` (R100, R253). -/
theorem runPseudo_boot {s : State} {bytes : Word} (hI : s.Inv) (hp : s.flag .pmmReady = false) (hv : s.flag .vmmReady = false)
    (hblocks : 129 ≤ min (bytes.toNat / 131072) s.cfg.maxBlocks)
    (hB : ∀ a : Word, a.toNat % 8 = 0 → a.toNat < bytes.toNat → s.memValid a = true) :
    ∃ t, runPseudo (.boot bytes) s = some (.next t.activated) ∧ IdentityTree t ∧ t.flags = s.flags ||| 1#32 ||| 2#32 ∧
      t.root = 0x1000000#64 ∧ t.usedPages = 4107#64 := by
  have hpmm : transact { instr := .pmmInit, args := [bytes] } s =
      finish .ok 0 0 ((s.writeArgs [bytes]).initFrames bytes.toNat) :=
    exec_pmmInit_ok (s := s.writeArgs [bytes]) hp (show 0x1000000 ≤ bytes.toNat by omega)
  obtain ⟨t, hvmm, ht, hflags, hroot, hused⟩ := exec_vmmInit_initFrames (s := s.writeArgs [bytes])
    (inv_host hI bytes s.arg1 s.arg2 s.hostScript s.hostData) hv bytes.isLt hblocks hB
  refine ⟨t, ?_, ht, hflags, hroot, hused⟩
  calc runPseudo (.boot bytes) s
    _ = some (thenRun (exec .vmmInit (((s.writeArgs [bytes]).initFrames bytes.toNat).done .ok 0 0)) runActivate) := by
      rw [runPseudo, hpmm]
      rfl
    _ = some (.next t.activated) := by
      rw [hvmm]
      exact congrArg some (runActivate_aligned ht.inv.rootAligned)

/-- Settles O57: the boot sequence leaves the identity map active over an empty cache. -/
theorem bootGivesTheIdentityTranslation : Obligations.BootGivesTheIdentityTranslation := by
  intro u s bytes _ hm hr hblocks hB
  have h : s.Fresh := fresh_of_reset hr s.arg0 s.arg1 s.arg2
  have hI : s.Inv := by
    rw [← Host.Outcome.next.inj ((hostAccess_reset u).symm.trans hr)]
    exact inv_blockReset u.cfg hm u.tlbDraws u.hostScript u.hostData
  obtain ⟨t, hboot, ht, hflags, hroot, hused⟩ := runPseudo_boot hI (h.flag .pmmReady) (h.flag .vmmReady) hblocks hB
  refine ⟨t.activated, hboot, rfl, ?_, hroot, hroot, hused, ht.xlate⟩
  calc t.activated.flags = t.flags ||| 4#32 := rfl
    _ = 7#32 := by rw [hflags, h.flags]; decide

end Sys2Proof.Machine
